-- ==== Sys2Proof/Word.lean ====
section
/-! DEFINITION. The word types of the VUD-ER block (spec/00_scope.md R12, R13). -/

namespace Sys2Proof

/-- One byte lane of a bus word (R86). -/
abbrev Byte := BitVec 8

/-- A bus word, a u32, or the bit pattern of a binary32 value (R12). -/
abbrev Word := BitVec 32

/-- The bit pattern of a binary64 value, held by the host in a LO/HI pair of words (R12, R87). -/
abbrev DWord := BitVec 64

/-- A block offset: 20 bits, a 1 MiB window (R12, R80). -/
abbrev Offset := BitVec 20

end Sys2Proof
end

