-- ==== Sys2Proof/Config.lean ====
section
/-! DEFINITION. What an implementation fixes (spec/00_scope.md R10, R11) and the free values the spec
leaves open (spec/93_implementation_defined.md I10, I11, I13). -/

namespace Sys2Proof

/-- Which functions EXP64 and TAN64 are (R11, R24). -/
inductive MathSource where
  /-- The default: the correctly rounded function (R24). -/
  | correctlyRounded
  /-- The function of some particular math library, of which the spec says nothing more (R11, I13). -/
  | library
deriving DecidableEq, Repr

/-- The instance parameters of R11, which "a model takes as an argument". They are fixed for the instance:
no step changes them. -/
structure Params where
  /-- NFILT, the number of filter instances. -/
  nfilt : Nat
  /-- BLOCK_MAX, the capacity of INBUF and OUTBUF in samples. -/
  blockMax : Nat
  /-- RING_MAX, the largest ring capacity in samples. -/
  ringMax : Nat
  /-- PULSE_MAX, the capacity of the pulse and envelope tables. -/
  pulseMax : Nat
  /-- BASE, the bus address of offset 0. -/
  base : Nat
  /-- EXP64. -/
  exp64 : MathSource
  /-- TAN64. -/
  tan64 : MathSource
deriving DecidableEq, Repr

/-- The recommended values of R11. DESIGN CHOICE (log entry 1): R11 recommends no BASE, so 0 stands here; BASE plays
no part in a step. -/
def Params.recommended : Params :=
  { nfilt := 16, blockMax := 256, ringMax := 16384, pulseMax := 4096, base := 0,
    exp64 := .correctlyRounded, tan64 := .correctlyRounded }

/-- The ring guard GUARD = 256 samples (R10). -/
abbrev guardSamples : Nat := 256

/-- What the byte of INBUF or OUTBUF at a block offset holds from power-on until something writes it: a free
draw per entry, under no law (R60, R61, I10, I11; log entry 4). -/
opaque Config.powerOnByte : Nat → Byte

/-- EXP64 of a particular math library (R11, I13), on the bits of a binary64 operand. A free function (log entry 2). -/
opaque Config.libExp64 : DWord → DWord

/-- TAN64 of a particular math library (R11, I13). A free function (log entry 2). -/
opaque Config.libTan64 : DWord → DWord

end Sys2Proof
end

