-- ==== Sys2Proof/Machine/State.lean ====
section
/-! DEFINITION. The state of the machine: the block's state record (spec/10_state.md R30), the parameters of its instance
(spec/00_scope.md R11), and the host whose accesses drive it (spec/10_state.md R62, spec/30_encoding.md R140). Plain data. -/

namespace Sys2Proof.Machine

/-- The fifteen operand registers (R31, R32), each 32 bits, written by the host only. -/
structure OperandRegs where
  srLo : Word
  srHi : Word
  durLo : Word
  durHi : Word
  densLo : Word
  densHi : Word
  seed : Word
  maxblk : Word
  nsamp : Word
  gain : Word
  fGlow : Word
  fGhigh : Word
  fFc : Word
  fSr : Word
  fIn : Word
deriving DecidableEq, Repr

/-- The error record (R35, R36, R37): STATUS bits 13:8, ERRCODE and ERRINFO. Bit c - 1 of `bits` is the sticky bit of
error code c. -/
structure ErrorRecord where
  bits : BitVec 6
  code : BitVec 16
  info : Word
deriving DecidableEq, Repr

/-- What the last successful generation left (R39 to R47), and the write pointer CONVOLVE advances (R43). -/
structure GenRegs where
  seqlen : Word
  grid : Word
  npulses : Word
  ringcap : Word
  wptr : Word
  normgain : Word
  decay : DWord
  lcgstate : Word
  actMaxblk : Word
deriving DecidableEq, Repr

/-- One filter instance (R59). -/
structure Filter where
  b0 : Word
  b1 : Word
  a1 : Word
  z1 : Word
  zout1 : Word
  configured : Bool
deriving DecidableEq, Repr

/-- The windows' bytes INBUF, OUTBUF, PULSE, ENV and RING (R56 to R58, R60, R61), by block offset (R82), one byte lane
each (R86). Kept in one canonical form (`Memory.wf`). -/
abbrev Memory := List Host.Cell

/-- How wide a host access is; only a word access is not a bus error (R85). -/
inductive AccessSize where
  | byte
  | half
  | word
  | dword
deriving DecidableEq, Repr

/-- One access of the host (R85, R140) at a block offset. The data of a write that is not a word is never looked
at, for such a write is ignored (R85; log entry 9). -/
inductive Access where
  | read (size : AccessSize) (off : Offset)
  | write (size : AccessSize) (off : Offset) (data : Word)
deriving DecidableEq, Repr

/-- The host (R98, R140, R335): the accesses of its program still to come, how many have completed (R62: the position
that plays the part of a program counter), and the values its reads have returned, oldest first. -/
structure HostAgent where
  pending : List Access
  position : Nat
  reads : List Word
deriving DecidableEq, Repr

/-- The machine. All fields but `params` and `host` are the record of R30. -/
structure State where
  /-- The instance parameters (R11): fixed, no step writes them (log entry 1). -/
  params : Params
  /-- SR_LO .. F_IN. -/
  regs : OperandRegs
  /-- PREPARED, STATUS bit 0. -/
  prepared : Bool
  /-- ERRBITS, ERRCODE, ERRINFO. -/
  err : ErrorRecord
  /-- SEQLEN .. ACT_MAXBLK. -/
  gen : GenRegs
  /-- F_OUT. -/
  fOut : Word
  /-- FB[0 .. NFILT-1]. -/
  fb : List Filter
  /-- INBUF, OUTBUF, PULSE, ENV, RING. -/
  mem : Memory
  /-- The host's program and what it has read (log entry 6). -/
  host : HostAgent
deriving DecidableEq, Repr

/-- No behaviour of the block stops the machine: errors are recorded and the access completes (R16, R280), and every access
terminates (R333). So there is no fault to raise (log entry 8). -/
inductive Fault where
deriving DecidableEq, Repr

/-- Why a step has no meaning. -/
inductive Refusal where
  /-- Raised by an arm of `exec` whose command has no meaning yet; none is left. Safe. -/
  | notModelled (mnemonic : String)
deriving DecidableEq, Repr

/-- A filter at reset (R59, R321): +0.0 in every field, not configured. -/
def Filter.reset : Filter :=
  { b0 := 0, b1 := 0, a1 := 0, z1 := 0, zout1 := 0, configured := false }

/-- The operand registers at reset (R32, R321). -/
def OperandRegs.reset : OperandRegs :=
  { srLo := 0, srHi := 0, durLo := 0, durHi := 0, densLo := 0, densHi := 0, seed := 0, maxblk := 0,
    nsamp := 0, gain := 0, fGlow := 0, fGhigh := 0, fFc := 0, fSr := 0, fIn := 0 }

/-- The result registers at reset (R39 to R47, R321). -/
def GenRegs.reset : GenRegs :=
  { seqlen := 0, grid := 0, npulses := 0, ringcap := 0, wptr := 0, normgain := 0, decay := 0,
    lcgstate := 0, actMaxblk := 0 }

/-- The reset state of an instance (R320, R321), its host at rest. No byte of memory is listed: INBUF and OUTBUF
are then free draws, and PULSE, ENV and RING read 0, as R321 allows (log entries 4, 5, 6). -/
def State.resetOf (p : Params) : State :=
  { params := p
    regs := OperandRegs.reset
    prepared := false
    err := { bits := 0, code := 0, info := 0 }
    gen := GenRegs.reset
    fOut := 0
    fb := List.replicate p.nfilt Filter.reset
    mem := []
    host := { pending := [], position := 0, reads := [] } }

/-- The reset state of an instance with the recommended parameters of R11 (log entry 1). -/
def State.reset : State := State.resetOf Params.recommended

end Sys2Proof.Machine
end

