-- ==== Sys2Proof/Machine/Control.lean ====
section
/-! DEFINITION. The control commands: NOP and nothing else (spec/44_control.md R270 to R273). -/

namespace Sys2Proof.Machine

/-- NOP does nothing (R270). -/
def execNop (s : State) : Host.Outcome State Fault Refusal := .next s

end Sys2Proof.Machine
end

