-- ==== Sys2Proof/Syntax.lean ====
section
/-! DEFINITION. The commands of the block, one constructor per row of the opcode table
(spec/30_encoding.md R124). The only operand in a command word is FIDX (R122). -/

namespace Sys2Proof

/-- The eight commands. `fidx` is FIDX, bits 15:8 of the word of a filter-class command (R121, R125). -/
inductive Instr where
  /-- NOP, 0x00000000 (R270). -/
  | nop
  /-- GENERATE, 0x00000001 (R163). -/
  | generate
  /-- CONVOLVE, 0x00000002 (R200). -/
  | convolve
  /-- FLT_SETCOEF, 0x0000ff03 (R230). -/
  | fltSetcoef (fidx : BitVec 8)
  /-- FLT_PROCESS, 0x0000ff04 (R232). -/
  | fltProcess (fidx : BitVec 8)
  /-- FLT_RESET, 0x0000ff05 (R234). -/
  | fltReset (fidx : BitVec 8)
  /-- PREPARE, 0x00000006 (R260). -/
  | prepare
  /-- ER_RESET, 0x00000007 (R262). -/
  | erReset
deriving DecidableEq, Repr

end Sys2Proof
end

