-- ==== Sys2Proof/Decode.lean ====
section
/-! DEFINITION. The decoder of command words, total on every 32-bit word (spec/30_encoding.md R121, R126, R131), and
the encoder written from the same tables (R124). -/

namespace Sys2Proof

/-- Why a command word is illegal (R126). -/
inductive DecodeError where
  /-- OP >= 0x08. -/
  | illegalOpcode
  /-- RSV != 0. -/
  | reservedNonzero
  /-- FIDX != 0 outside the filter class. -/
  | indexNonzero
  /-- Fewer than four bytes: no command word at all (R120). -/
  | truncated
deriving DecidableEq, Repr

/-- OP, bits 7:0 (R121). -/
def opField (w : Word) : BitVec 8 := w.extractLsb' 0 8

/-- FIDX, bits 15:8 (R121). -/
def fidxField (w : Word) : BitVec 8 := w.extractLsb' 8 8

/-- RSV, bits 31:16 (R121). -/
def rsvField (w : Word) : BitVec 16 := w.extractLsb' 16 16

/-- A command outside the filter class must have FIDX = 0 (R125, R126). -/
def plainCommand (fidx : BitVec 8) (i : Instr) : Except DecodeError Instr :=
  if fidx = 0 then .ok i else .error .indexNonzero

/-- The procedure of R131 up to its illegal-word check. The filter-index check (E_FILTER) comes after it and needs the
instance's NFILT: it stands in the meanings of the filter commands. -/
def decode (w : Word) : Except DecodeError Instr :=
  if 0x08 ≤ (opField w).toNat then .error .illegalOpcode
  else if rsvField w ≠ 0 then .error .reservedNonzero
  else match (opField w).toNat with
    | 0x00 => plainCommand (fidxField w) .nop
    | 0x01 => plainCommand (fidxField w) .generate
    | 0x02 => plainCommand (fidxField w) .convolve
    | 0x03 => .ok (.fltSetcoef (fidxField w))
    | 0x04 => .ok (.fltProcess (fidxField w))
    | 0x05 => .ok (.fltReset (fidxField w))
    | 0x06 => plainCommand (fidxField w) .prepare
    | 0x07 => plainCommand (fidxField w) .erReset
    | _ => .error .illegalOpcode

/-- A word from its four byte lanes, the first at the lowest address: little-endian (R86). -/
def wordOfBytes (b0 b1 b2 b3 : Byte) : Word := b3 ++ b2 ++ b1 ++ b0

/-- Byte lane k of a word: bits 8k+7 : 8k (R86). -/
def byteLane (w : Word) (k : Nat) : Byte := w.extractLsb' (8 * k) 8

/-- Decode the command word that stands at the head of a string of bytes, and return the bytes after it. Every
command is one word (R120, R128). The byte order is that of the bus (R86; log entry 20). -/
def decodeBytes : List Byte → Except DecodeError (Instr × List Byte)
  | b0 :: b1 :: b2 :: b3 :: rest => (decode (wordOfBytes b0 b1 b2 b3)).map fun i => (i, rest)
  | _ => .error .truncated

/-- The opcode of each command (R124). -/
def opcodeOf : Instr → BitVec 8
  | .nop => 0x00
  | .generate => 0x01
  | .convolve => 0x02
  | .fltSetcoef _ => 0x03
  | .fltProcess _ => 0x04
  | .fltReset _ => 0x05
  | .prepare => 0x06
  | .erReset => 0x07

/-- The FIDX a command carries; 0 outside the filter class (R121). -/
def indexOf : Instr → BitVec 8
  | .nop => 0
  | .generate => 0
  | .convolve => 0
  | .fltSetcoef fidx => fidx
  | .fltProcess fidx => fidx
  | .fltReset fidx => fidx
  | .prepare => 0
  | .erReset => 0

/-- The command word of a command: RSV = 0, then FIDX, then OP (R121, R124). -/
def encode (i : Instr) : Word := (0 : BitVec 16) ++ indexOf i ++ opcodeOf i

/-- The command of an opcode-table row's bits: bit 0 of `w` is the least significant bit of the word, the bits
from `nbits` up are 0; the word is laid out little-endian (R86) and given to the decoder. -/
def decodeTableWord (nbits w : Nat) : Option Instr :=
  let word : Word := BitVec.ofNat 32 (w % 2 ^ nbits)
  match decodeBytes [byteLane word 0, byteLane word 1, byteLane word 2, byteLane word 3] with
  | .ok (i, _) => some i
  | .error _ => none

end Sys2Proof
end

