-- ==== Sys2Proof/Machine/Ops.lean ====
section
/-! DEFINITION. The named operations over the state: the bytes and words of the windows (spec/20_memory.md R82, R86), the
arrays of spec/10_state.md R56 to R61, and error recording (spec/60_exceptions.md R285), which is this block's whole exception
entry: nothing is saved but the record, no vector is taken and there is no return (R280, R292). -/

namespace Sys2Proof.Machine

/-! ### Memory -/

/-- The byte at an offset that nothing has written, where the spec lets the model name it: 0 in PULSE, ENV and RING
(R321); none in INBUF and OUTBUF, 0x10000 to 0x2FFFF, which hold an arbitrary pattern (R60, R61). -/
def Memory.fixedDefault (a : Nat) : Option Byte :=
  if 0x10000 ≤ a ∧ a < 0x30000 then none else some 0

/-- What an offset that is not listed reads as: the one definition of it (log entries 4, 5). -/
def Memory.unlisted (a : Nat) : Byte :=
  match Memory.fixedDefault a with
  | some b => b
  | none => Config.powerOnByte a

/-- The listed byte, if there is one. -/
def Memory.find (a : Nat) : Memory → Option Byte
  | [] => none
  | c :: m => if c.1 = a then some c.2 else Memory.find a m

/-- The byte at an offset. -/
def Memory.readByte (m : Memory) (a : Nat) : Byte :=
  match Memory.find a m with
  | some b => b
  | none => Memory.unlisted a

/-- List a byte in its place among rising addresses, in the stead of an earlier one. -/
def Memory.insert (a : Nat) (b : Byte) : Memory → Memory
  | [] => [(a, b)]
  | c :: m =>
    if a < c.1 then (a, b) :: c :: m
    else if c.1 = a then (a, b) :: m
    else c :: Memory.insert a b m

/-- Take an offset off the list. -/
def Memory.erase (a : Nat) (m : Memory) : Memory := m.filter fun c => c.1 != a

/-- Store a byte, keeping the canonical form: the value an unlisted offset is known to read as is not listed. -/
def Memory.writeByte (m : Memory) (a : Nat) (b : Byte) : Memory :=
  if Memory.fixedDefault a = some b then Memory.erase a m else Memory.insert a b m

/-- The canonical form: addresses strictly rising, and no entry equal to what its address is known to read as
unlisted. -/
def Memory.wf : Memory → Bool
  | [] => true
  | c :: m =>
    (Memory.fixedDefault c.1 != some c.2) && m.all (fun d => decide (c.1 < d.1)) && Memory.wf m

/-- A word, little-endian (R86). -/
def Memory.readWord (m : Memory) (a : Nat) : Word :=
  wordOfBytes (m.readByte a) (m.readByte (a + 1)) (m.readByte (a + 2)) (m.readByte (a + 3))

/-- Store a word, little-endian (R86). -/
def Memory.writeWord (m : Memory) (a : Nat) (w : Word) : Memory :=
  (((m.writeByte a (byteLane w 0)).writeByte (a + 1) (byteLane w 1)).writeByte (a + 2) (byteLane w 2)).writeByte
    (a + 3) (byteLane w 3)

/-- Store a string of words from an offset up. -/
def Memory.writeWords (m : Memory) (a : Nat) : List Word → Memory
  | [] => m
  | w :: ws => Memory.writeWords (m.writeWord a w) (a + 4) ws

/-- Set `count` words from an offset up to zero, where unlisted words read as zero: take their bytes off the list. -/
def Memory.clearWords (m : Memory) (a count : Nat) : Memory :=
  m.filter fun c => !(decide (a ≤ c.1) && decide (c.1 < a + 4 * count))

/-! ### The arrays behind the windows (R82) -/

/-- Offsets of the window entries (R82). -/
def inbufAddr (i : Nat) : Nat := 0x10000 + 4 * i
def outbufAddr (i : Nat) : Nat := 0x20000 + 4 * i
def pulseAddr (k : Nat) : Nat := 0x30000 + 4 * k
def envAddr (k : Nat) : Nat := 0x40000 + 4 * k
def ringAddr (i : Nat) : Nat := 0x80000 + 4 * i

/-- INBUF[i] (R60). -/
def State.inbuf (s : State) (i : Nat) : Word := s.mem.readWord (inbufAddr i)
/-- OUTBUF[i] (R61). -/
def State.outbuf (s : State) (i : Nat) : Word := s.mem.readWord (outbufAddr i)
/-- The word of PULSE[k], in the format of R129 (R56). -/
def State.pulseWord (s : State) (k : Nat) : Word := s.mem.readWord (pulseAddr k)
/-- ENV[k] (R57). -/
def State.env (s : State) (k : Nat) : Word := s.mem.readWord (envAddr k)
/-- RING[i] (R58). -/
def State.ring (s : State) (i : Nat) : Word := s.mem.readWord (ringAddr i)

/-- FB[i] (R59). -/
def State.filter (s : State) (i : Nat) : Filter := s.fb.getD i Filter.reset

/-- FB[i] replaced. -/
def State.setFilter (s : State) (i : Nat) (f : Filter) : State := { s with fb := s.fb.set i f }

/-! ### Error recording -/

/-- The error codes of R281; E_CONFIG carries its sub-cause. -/
inductive ErrorCause where
  | illegal
  | config (sub : BitVec 8)
  | notReady
  | block
  | filter
  | bus
deriving DecidableEq, Repr

/-- CODE of an error (R281). -/
def errorCode : ErrorCause → Nat
  | .illegal => 1
  | .config _ => 2
  | .notReady => 3
  | .block => 4
  | .filter => 5
  | .bus => 6

/-- SUB of an error: 0 unless E_CONFIG (R281, R285). -/
def errorSub : ErrorCause → BitVec 8
  | .illegal => 0
  | .config sub => sub
  | .notReady => 0
  | .block => 0
  | .filter => 0
  | .bus => 0

/-- `record` of R285: the sticky bit set, ERRCODE and ERRINFO overwritten. -/
def recordError (c : ErrorCause) (info : Word) (e : ErrorRecord) : ErrorRecord :=
  { bits := e.bits ||| (1#6 <<< (errorCode c - 1))
    code := errorSub c ++ BitVec.ofNat 8 (errorCode c)
    info := info }

/-- `raise` of R16: no effect on any state other than the error record. -/
def State.raise (s : State) (c : ErrorCause) (info : Word) : State :=
  { s with err := recordError c info s.err }

/-- The host's write-one-to-clear of the error bits, the only acknowledgement there is (R35, R294): ERRBITS and not
v[13:8]. ERRCODE and ERRINFO stay. -/
def State.clearErrors (s : State) (v : Word) : State :=
  { s with err := { s.err with bits := s.err.bits &&& ~~~(v.extractLsb' 8 6) } }

end Sys2Proof.Machine
end

