-- ==== Sys2Proof/Machine/Flags.lean ====
section
/-! DEFINITION. The flags of the block (spec/10_state.md R35, R63): PREPARED, the six sticky error bits and FB[i].CONFIGURED. There
are no condition codes, and no floating-point flag is kept (spec/00_scope.md R18). -/

namespace Sys2Proof.Machine

/-- A one-bit flag as a word: bit 0, the rest 0. -/
def flagWord (b : Bool) : Word := if b then 1 else 0

/-- STATUS as it reads: the error bits in 13:8, PREPARED in bit 0, every other bit 0 (R35, R85). -/
def State.statusWord (s : State) : Word := (0 : BitVec 18) ++ s.err.bits ++ (0 : BitVec 7) ++ BitVec.ofBool s.prepared

/-- FFLAGS of filter i as it reads: CONFIGURED in bit 0, the rest 0 (R130). -/
def State.fflagsWord (s : State) (i : Nat) : Word := flagWord (s.filter i).configured

/-- PREPARED set by a successful generation (R63, R173). -/
def State.setPrepared (s : State) : State := { s with prepared := true }

end Sys2Proof.Machine
end

