-- ==== Sys2Proof/Machine/Float.lean ====
section
/-! DEFINITION. The IEEE 754 primitives of spec/00_scope.md section 6 (R18 to R23): binary32 and binary64, round to nearest with
ties to even, no fused multiply-add, subnormals kept, canonical NaN results. Every operation computes an exact
value (for quotients and roots: one that rounds alike) and rounds it once. The IEEE rules themselves are the spec's
"general knowledge" (R18, log entry 10). -/

namespace Sys2Proof.Machine

/-- An IEEE 754 binary format: the bits of the significand with its hidden bit, and of the exponent (R123). -/
structure FloatFormat where
  prec : Nat
  ebits : Nat
deriving DecidableEq, Repr

/-- Sign 31, exponent 30:23, fraction 22:0 (R123). -/
def binary32 : FloatFormat := ⟨24, 8⟩

/-- Sign 63, exponent 62:52, fraction 51:0 (R123). -/
def binary64 : FloatFormat := ⟨53, 11⟩

/-- A floating-point datum: NaN, a signed infinity, or the exact value (-1)^neg * mant * 2^exp. -/
inductive FloatVal where
  | nan
  | inf (neg : Bool)
  | fin (neg : Bool) (mant : Nat) (exp : Int)
deriving DecidableEq, Repr

/-! ### Formats -/

/-- The exponent of the least quantum: the value of a subnormal is its fraction times 2^minExp. -/
def FloatFormat.minExp (f : FloatFormat) : Int := 3 - 2 ^ (f.ebits - 1) - f.prec

/-- The weight of the exponent field. -/
def FloatFormat.expUnit (f : FloatFormat) : Nat := 2 ^ (f.prec - 1)

/-- The exponent field of infinities and NaNs: all ones. -/
def FloatFormat.expMask (f : FloatFormat) : Nat := 2 ^ f.ebits - 1

/-- The weight of the sign bit. -/
def FloatFormat.signUnit (f : FloatFormat) : Nat := 2 ^ (f.prec - 1 + f.ebits)

/-- The bits of +infinity. -/
def FloatFormat.infBits (f : FloatFormat) : Nat := f.expMask * f.expUnit

/-- The canonical quiet NaN (R20). -/
def FloatFormat.nanBits (f : FloatFormat) : Nat := f.infBits + 2 ^ (f.prec - 2)

/-- What a bit pattern stands for. -/
def FloatFormat.unpack (f : FloatFormat) (bits : Nat) : FloatVal :=
  let frac := bits % f.expUnit
  let ex := bits / f.expUnit % 2 ^ f.ebits
  let neg := decide (bits / f.signUnit % 2 = 1)
  if ex = f.expMask then
    if frac = 0 then .inf neg else .nan
  else if ex = 0 then .fin neg frac f.minExp
  else .fin neg (frac + f.expUnit) (f.minExp + (ex - 1 : Nat))

/-! ### Rounding -/

/-- mant * 2^(-shift) to the nearest integer, ties to even (R18). -/
def shiftToNearest (mant : Nat) (shift : Int) : Nat :=
  if shift ≤ 0 then mant * 2 ^ (-shift).toNat
  else
    let d := 2 ^ shift.toNat
    let q := mant / d
    let r := mant % d
    if d < 2 * r then q + 1
    else if d = 2 * r then q + q % 2
    else q

/-- The exponent of the last place kept of mant * 2^exp: prec significant bits, but no place below minExp. -/
def FloatFormat.quantum (f : FloatFormat) (mant : Nat) (exp : Int) : Int :=
  max (mant.log2 + exp - (f.prec - 1 : Nat)) f.minExp

/-- The magnitude bits nearest to mant * 2^exp, ties to even; overflow gives infinity (R18, R19). A carry out of the
significand runs into the exponent field. -/
def FloatFormat.roundMag (f : FloatFormat) (mant : Nat) (exp : Int) : Nat :=
  if mant = 0 then 0
  else
    let q := f.quantum mant exp
    min ((q - f.minExp).toNat * f.expUnit + shiftToNearest mant (q - exp)) f.infBits

/-- The bits of a value rounded to the format; every NaN is the canonical one (R20). -/
def FloatFormat.pack (f : FloatFormat) : FloatVal → Nat
  | .nan => f.nanBits
  | .inf neg => (if neg then f.signUnit else 0) + f.infBits
  | .fin neg mant exp => (if neg then f.signUnit else 0) + f.roundMag mant exp

/-! ### Exact arithmetic on values -/

/-- The signed integer (-1)^neg * mant * 2^(exp - e0), for e0 <= exp. -/
def alignedInt (neg : Bool) (mant : Nat) (exp e0 : Int) : Int :=
  let m : Int := (mant * 2 ^ (exp - e0).toNat : Nat)
  if neg then -m else m

/-- Exact sum. An exact zero sum is +0 unless both operands are negative zeros. -/
def FloatVal.add : FloatVal → FloatVal → FloatVal
  | .nan, _ => .nan
  | _, .nan => .nan
  | .inf a, .inf b => if a = b then .inf a else .nan
  | .inf a, .fin _ _ _ => .inf a
  | .fin _ _ _, .inf b => .inf b
  | .fin a m e, .fin b n d =>
    let e0 := min e d
    let s := alignedInt a m e e0 + alignedInt b n d e0
    if s = 0 then .fin (a && b) 0 e0 else .fin (decide (s < 0)) s.natAbs e0

/-- The sign flipped; a NaN stays a NaN. -/
def FloatVal.negate : FloatVal → FloatVal
  | .nan => .nan
  | .inf a => .inf (!a)
  | .fin a m e => .fin (!a) m e

/-- Exact product; an infinity times a zero is a NaN. -/
def FloatVal.mul : FloatVal → FloatVal → FloatVal
  | .nan, _ => .nan
  | _, .nan => .nan
  | .inf a, .inf b => .inf (a != b)
  | .inf a, .fin b n _ => if n = 0 then .nan else .inf (a != b)
  | .fin a m _, .inf b => if m = 0 then .nan else .inf (a != b)
  | .fin a m e, .fin b n d => .fin (a != b) (m * n) (e + d)

/-- An integer that has one more bit than `q` and rounds to `prec` bits as the exact quotient or root does: `q` with a
last bit that says whether something was cut off. -/
def sticky (q : Nat) (rest : Nat) : Nat := 2 * q + (if rest = 0 then 0 else 1)

/-- m / n with at least prec + 2 significant bits and a sticky last bit; the exponent of its last bit is minus
(the shift + 1). -/
def quotientSticky (prec m n : Nat) : Nat × Nat :=
  let k := prec + 2 + (n.log2 + 1)
  (sticky (m * 2 ^ k / n) (m * 2 ^ k % n), k + 1)

/-- Quotient, for rounding to prec bits. 0/0 and inf/inf are NaN; x/0 is an infinity. -/
def FloatVal.div (prec : Nat) : FloatVal → FloatVal → FloatVal
  | .nan, _ => .nan
  | _, .nan => .nan
  | .inf _, .inf _ => .nan
  | .inf a, .fin b _ _ => .inf (a != b)
  | .fin a _ _, .inf b => .fin (a != b) 0 0
  | .fin a m e, .fin b n d =>
    if n = 0 then (if m = 0 then .nan else .inf (a != b))
    else
      let q := quotientSticky prec m n
      .fin (a != b) q.1 (e - d - q.2)

/-- One digit at a time from bit `bits - 1` down: the largest r' with r'^2 <= n that keeps the bits of r. -/
def sqrtDigits (n : Nat) : Nat → Nat → Nat
  | 0, r => r
  | b + 1, r => if (r + 2 ^ b) * (r + 2 ^ b) ≤ n then sqrtDigits n b (r + 2 ^ b) else sqrtDigits n b r

/-- The integer square root, rounded down. -/
def isqrt (n : Nat) : Nat := sqrtDigits n (n.log2 / 2 + 1) 0

/-- Square root, for rounding to prec bits (R23). The root of a negative zero is a negative zero, of any other
negative value a NaN. -/
def FloatVal.sqrt (prec : Nat) : FloatVal → FloatVal
  | .nan => .nan
  | .inf a => if a then .nan else .inf false
  | .fin a m e =>
    if m = 0 then .fin a 0 e
    else if a then .nan
    else
      let k : Nat := 2 * (prec + 2) + (e % 2).toNat
      let n := m * 2 ^ k
      let r := isqrt n
      .fin false (sticky r (n - r * r)) ((e - k) / 2 - 1)

/-- Ordered less-than: false when an operand is NaN (R19). -/
def FloatVal.lt : FloatVal → FloatVal → Bool
  | .nan, _ => false
  | _, .nan => false
  | .inf a, .inf b => a && !b
  | .inf a, .fin _ _ _ => a
  | .fin _ _ _, .inf b => !b
  | .fin a m e, .fin b n d =>
    let e0 := min e d
    decide (alignedInt a m e e0 < alignedInt b n d e0)

/-- Ordered equality of values: +0 equals -0, a NaN equals nothing. -/
def FloatVal.eq : FloatVal → FloatVal → Bool
  | .nan, _ => false
  | _, .nan => false
  | .inf a, .inf b => a == b
  | .inf _, .fin _ _ _ => false
  | .fin _ _ _, .inf _ => false
  | .fin a m e, .fin b n d =>
    let e0 := min e d
    decide (alignedInt a m e e0 = alignedInt b n d e0)

/-- The nearest integer of a finite value, halves away from zero (R21). Only finite values are rounded. -/
def FloatVal.roundHalfAway : FloatVal → Int
  | .nan => 0
  | .inf _ => 0
  | .fin neg m e =>
    let n : Nat :=
      if 0 ≤ e then m * 2 ^ e.toNat
      else
        let d := 2 ^ (-e).toNat
        m / d + (if d ≤ 2 * (m % d) then 1 else 0)
    if neg then -(n : Int) else n

/-! ### The primitives of R19, on bit patterns -/

/-- The value of a binary32 pattern. -/
def val32 (w : Word) : FloatVal := binary32.unpack w.toNat

/-- The value of a binary64 pattern. -/
def val64 (w : DWord) : FloatVal := binary64.unpack w.toNat

/-- A value rounded to binary32. -/
def round32 (v : FloatVal) : Word := BitVec.ofNat 32 (binary32.pack v)

/-- A value rounded to binary64. -/
def round64 (v : FloatVal) : DWord := BitVec.ofNat 64 (binary64.pack v)

def add32 (a b : Word) : Word := round32 ((val32 a).add (val32 b))
def sub32 (a b : Word) : Word := round32 ((val32 a).add (val32 b).negate)
def mul32 (a b : Word) : Word := round32 ((val32 a).mul (val32 b))

def add64 (a b : DWord) : DWord := round64 ((val64 a).add (val64 b))
def sub64 (a b : DWord) : DWord := round64 ((val64 a).add (val64 b).negate)
def mul64 (a b : DWord) : DWord := round64 ((val64 a).mul (val64 b))
def div64 (a b : DWord) : DWord := round64 ((val64 a).div 53 (val64 b))
def sqrt64 (a : DWord) : DWord := round64 ((val64 a).sqrt 53)

/-- `abs` clears the sign bit, of a NaN too (R19, R20). -/
def abs32 (a : Word) : Word := a &&& 0x7FFFFFFF
def abs64 (a : DWord) : DWord := a &&& 0x7FFFFFFFFFFFFFFF

/-- `neg` flips the sign bit, of a NaN too (R19, R20). -/
def neg32 (a : Word) : Word := a ^^^ 0x80000000
def neg64 (a : DWord) : DWord := a ^^^ 0x8000000000000000

/-- The exact widening of a binary32 value; a NaN becomes the canonical one (R19, R20). -/
def cvt64 (a : Word) : DWord := round64 (val32 a)

/-- binary64 to binary32; overflow gives an infinity (R19). -/
def cvt32 (a : DWord) : Word := round32 (val64 a)

/-- The binary64 value of an integer, exact for |n| < 2^53 (R19). -/
def i2d (n : Int) : DWord := round64 (.fin (decide (n < 0)) n.natAbs 0)

/-- `isfinite` (R19). -/
def FloatVal.isFinite : FloatVal → Bool
  | .nan => false
  | .inf _ => false
  | .fin _ _ _ => true

def isFinite32 (a : Word) : Bool := (val32 a).isFinite
def isFinite64 (a : DWord) : Bool := (val64 a).isFinite

/-- The four ordered comparisons of R19. -/
def lt32 (a b : Word) : Bool := (val32 a).lt (val32 b)
def le32 (a b : Word) : Bool := (val32 a).lt (val32 b) || (val32 a).eq (val32 b)
def gt32 (a b : Word) : Bool := lt32 b a
def ge32 (a b : Word) : Bool := le32 b a
def lt64 (a b : DWord) : Bool := (val64 a).lt (val64 b)
def le64 (a b : DWord) : Bool := (val64 a).lt (val64 b) || (val64 a).eq (val64 b)
def gt64 (a b : DWord) : Bool := lt64 b a
def ge64 (a b : DWord) : Bool := le64 b a

/-- `rha` on a finite binary64 value (R21). -/
def rha (a : DWord) : Int := (val64 a).roundHalfAway

/-! ### The constants of R22, and the literals the rules write -/

/-- LN10_64. -/
def ln10Const : DWord := 0x40026BB1BBB55516
/-- NEG3LN10_64 = mul64(-3.0, LN10_64). -/
def neg3Ln10Const : DWord := 0xC01BA18A998FFFA1
/-- PI64. -/
def piConst : DWord := 0x400921FB54442D18
/-- CULL32. -/
def cullConst : Word := 0x2EDBE6FF
/-- EQ_EPS64. -/
def eqEpsConst : DWord := 0x3EB0C6F7A0B5ED8D
/-- NEG_EPS64. -/
def negEpsConst : DWord := 0x3D719799812DEA11
/-- +0.0 and ±1.0 in binary32. -/
def zero32 : Word := 0x00000000
def one32 : Word := 0x3F800000
def minusOne32 : Word := 0xBF800000
/-- +0.0, 1.0, 2.0 and 1000.0 in binary64. -/
def zero64 : DWord := 0x0000000000000000
def one64 : DWord := 0x3FF0000000000000
def two64 : DWord := 0x4000000000000000
def thousand64 : DWord := 0x408F400000000000

end Sys2Proof.Machine
end

