-- ==== Sys2Proof/Machine/Operands.lean ====
section
/-! DEFINITION. Every operand form of a command (spec/30_encoding.md R122, R123): u32, binary32 and binary64-pair operand
registers (spec/10_state.md R32), the filter index, and a pulse-table word (R129). -/

namespace Sys2Proof.Machine

/-- The names of the operand registers (R32). -/
inductive OperandReg where
  | srLo | srHi | durLo | durHi | densLo | densHi | seed | maxblk | nsamp | gain
  | fGlow | fGhigh | fFc | fSr | fIn
deriving DecidableEq, Repr

/-- `x[NAME]` (R14). -/
def OperandRegs.get (x : OperandRegs) : OperandReg → Word
  | .srLo => x.srLo
  | .srHi => x.srHi
  | .durLo => x.durLo
  | .durHi => x.durHi
  | .densLo => x.densLo
  | .densHi => x.densHi
  | .seed => x.seed
  | .maxblk => x.maxblk
  | .nsamp => x.nsamp
  | .gain => x.gain
  | .fGlow => x.fGlow
  | .fGhigh => x.fGhigh
  | .fFc => x.fFc
  | .fSr => x.fSr
  | .fIn => x.fIn

/-- `x[NAME] <- v` (R14): all 32 bits, unchanged (R31). -/
def OperandRegs.set (x : OperandRegs) (r : OperandReg) (v : Word) : OperandRegs :=
  match r with
  | .srLo => { x with srLo := v }
  | .srHi => { x with srHi := v }
  | .durLo => { x with durLo := v }
  | .durHi => { x with durHi := v }
  | .densLo => { x with densLo := v }
  | .densHi => { x with densHi := v }
  | .seed => { x with seed := v }
  | .maxblk => { x with maxblk := v }
  | .nsamp => { x with nsamp := v }
  | .gain => { x with gain := v }
  | .fGlow => { x with fGlow := v }
  | .fGhigh => { x with fGhigh := v }
  | .fFc => { x with fFc := v }
  | .fSr => { x with fSr := v }
  | .fIn => { x with fIn := v }

/-- A binary64 pair: HI in bits 63:32, LO in bits 31:0 (R14, R87). -/
def pair64 (hi lo : Word) : DWord := hi ++ lo

/-- `x64[SR]`. -/
def State.sampleRate (s : State) : DWord := pair64 s.regs.srHi s.regs.srLo
/-- `x64[DUR]`. -/
def State.duration (s : State) : DWord := pair64 s.regs.durHi s.regs.durLo
/-- `x64[DENS]`. -/
def State.density (s : State) : DWord := pair64 s.regs.densHi s.regs.densLo

/-- FIDX zero-extended to an index: no sign extension, no scaling (R122). -/
def filterIndex (fidx : BitVec 8) : Nat := fidx.toNat

/-- One pulse: its position and whether its sign is -1 (R56). -/
structure Pulse where
  pos : BitVec 31
  neg : Bool
deriving DecidableEq, Repr

/-- The word of a pulse: NEG in bit 31, POS in bits 30:0 (R129). -/
def pulseToWord (p : Pulse) : Word := BitVec.ofBool p.neg ++ p.pos

/-- The pulse of a word (R129). -/
def pulseOfWord (w : Word) : Pulse := { pos := w.extractLsb' 0 31, neg := w.msb }

/-- PULSE[k] (R56). -/
def State.pulse (s : State) (k : Nat) : Pulse := pulseOfWord (s.pulseWord k)

end Sys2Proof.Machine
end

