-- ==== Sys2Proof/Machine/Convolver.lean ====
section
/-! DEFINITION. The ring-buffer sparse convolver: CONVOLVE (spec/41_convolver.md R200 to R208). -/

namespace Sys2Proof.Machine

/-- Step 1 (R202): the block's input samples copied into the ring, n ascending, before any read. `n` samples from
index `i` on. -/
def writeInputs (C wp0 : Nat) : Nat → Nat → Memory → Memory
  | 0, _, m => m
  | n + 1, i, m =>
    writeInputs C wp0 n (i + 1) (m.writeWord (ringAddr ((wp0 + i) % C)) (m.readWord (inbufAddr i)))

/-- sgn(k) of R204. -/
def pulseSign (p : Pulse) : Word := if p.neg then minusOne32 else one32

/-- `coeff` (R204): sign * gain * envelope * normGain, left to right in binary32. -/
def coeff (sgn g env ng : Word) : Word := mul32 (mul32 (mul32 sgn g) env) ng

/-- `culled` (R204): false when c is NaN. -/
def culled (c : Word) : Bool := lt32 (abs32 c) cullConst

/-- The ring slot that pulse position `pos` reads for output n: (wp0 + n - pos) mod C, the non-negative modulus of
R17 and R205. -/
def ringSlot (C wp0 n pos : Nat) : Nat := (((wp0 : Int) + n - pos) % (C : Int)).toNat

/-- The coefficient of pulse k of the tables (R204). -/
def State.pulseCoeff (s : State) (k : Nat) : Word :=
  coeff (pulseSign (s.pulse k)) s.regs.gain (s.env k) s.gen.normgain

/-- One pulse's term added to one output (R205). -/
def State.accumulate (s : State) (C wp0 n : Nat) (acc : Word) (k : Nat) : Word :=
  let c := s.pulseCoeff k
  if culled c then acc
  else add32 acc (mul32 c (s.ring (ringSlot C wp0 n (s.pulse k).pos.toNat)))

/-- Output n of the block (R203, R205): the left fold over the pulses in table order, from +0.0. Distinct n never
interact (R205), so the order over n is free. -/
def State.convolveOutput (s : State) (C wp0 n : Nat) : Word :=
  (List.range s.gen.npulses.toNat).foldl (s.accumulate C wp0 n) zero32

/-- Steps 1 to 4 of R200 for a block of N samples. -/
def State.convolveBlock (s : State) (N : Nat) : State :=
  let C := s.gen.ringcap.toNat
  let wp0 := s.gen.wptr.toNat
  let written := { s with mem := writeInputs C wp0 N 0 s.mem }
  let out := (List.range N).map (written.convolveOutput C wp0)
  { written with
    mem := written.mem.writeWords (outbufAddr 0) out
    gen := { written.gen with wptr := BitVec.ofNat 32 ((wp0 + N) % C) } }

/-- CONVOLVE (R200), its two checks first (R201). -/
def runConvolve (w : Word) (s : State) : State :=
  if ¬s.prepared then s.raise .notReady w
  else if s.gen.actMaxblk.toNat < s.regs.nsamp.toNat then s.raise .block w
  else s.convolveBlock s.regs.nsamp.toNat

def execConvolve (s : State) : Host.Outcome State Fault Refusal := .next (runConvolve (encode .convolve) s)

end Sys2Proof.Machine
end

