-- ==== Sys2Proof/Machine/Elementary.lean ====
section
/-! DEFINITION. exp64 and tan64 (spec/00_scope.md R24): the binary64 value nearest to e^v and tan(v). A pair of integers
encloses the exact value, scaled by a power of two; where both ends round to one binary64 value, so does everything
between them, the exact value among it. Otherwise the next, narrower enclosure is tried, without a bound on how many:
Laws/Elementary.lean proves that one decides for every operand, since e^v and tan(v) are irrational for every v but 0
(log entry 2). -/

namespace Sys2Proof.Machine

/-! ### Integer enclosures -/

/-- a / b rounded up. -/
def ceilQuot (a b : Nat) : Nat := (a + b - 1) / b

/-- The Taylor sum of e^y for y between ylo/S and yhi/S: `n` further terms from index `j` on, with the current term
between tlo/S and thi/S and the sum so far between lo/S and hi/S. The tail is at most twice the next term. -/
def expSeries (S ylo yhi : Nat) : Nat → Nat → Nat → Nat → Nat → Nat → Nat × Nat
  | 0, _, _, thi, lo, hi => (lo, hi + 2 * thi)
  | n + 1, j, tlo, thi, lo, hi =>
    expSeries S ylo yhi n (j + 1) (tlo * ylo / (S * (j + 1))) (ceilQuot (thi * yhi) (S * (j + 1)))
      (lo + tlo) (hi + thi)

/-- Square an enclosure k times. -/
def squareTimes (S : Nat) : Nat → Nat × Nat → Nat × Nat
  | 0, i => i
  | k + 1, i => squareTimes S k (i.1 * i.1 / S, ceilQuot (i.2 * i.2) S)

/-- mant * 2^exp * 2^w between two integers at most 1 apart. -/
def scaledBounds (mant : Nat) (sh : Int) : Nat × Nat :=
  if 0 ≤ sh then (mant * 2 ^ sh.toNat, mant * 2 ^ sh.toNat)
  else (mant / 2 ^ (-sh).toNat, mant / 2 ^ (-sh).toNat + 1)

/-- An enclosure of e^(mant * 2^exp): (lo, hi, w) with lo <= 2^w * e^x <= hi. The operand is divided by 2^k to lie
below 1/2, and the result squared k times. -/
def expBounds (prec mant : Nat) (exp : Int) : Nat × Nat × Nat :=
  let k := (mant.log2 + 2 + exp).toNat
  let w := prec + 2 * k
  let S := 2 ^ w
  let y := scaledBounds mant (exp - k + w)
  let i := squareTimes S k (expSeries S y.1 y.2 (w / 4 + 12) 0 S S 0 0)
  (i.1, i.2, w)

/-- An enclosure of e^(-(mant * 2^exp)), the reciprocal. -/
def expNegBounds (prec mant : Nat) (exp : Int) : Nat × Nat × Nat :=
  let i := expBounds prec mant exp
  let q := i.2.1.log2 + 1
  (2 ^ (i.2.2 + q) / i.2.1, ceilQuot (2 ^ (i.2.2 + q)) i.1, q)

/-- The magnitude bits to which both ends of an enclosure round, where they round alike. -/
def roundEnclosure (i : Nat × Nat × Nat) : Option Nat :=
  let lo := binary64.roundMag i.1 (-(i.2.2 : Int))
  if lo = binary64.roundMag i.2.1 (-(i.2.2 : Int)) then some lo else none

/-! ### The search for an enclosure that decides -/

/-- The precisions, in bits, at which the integer enclosures are tried first. -/
def triedPrecisions : List Nat := [128, 256, 512, 1024, 2048]

/-- The first of f n, f (2 n), f (4 n), ... that is not none. The search has no bound; where one of them is not none, it ends
(searchFrom_spec). -/
def searchFrom {α : Type} [Nonempty α] (f : Nat → Option α) (n : Nat) : α :=
  match f n with
  | some a => a
  | none => searchFrom f (2 * n)
partial_fixpoint

/-- What the first tried precision that decides gives; where none does, what the first Taylor sum that decides gives. -/
def firstDecided {α : Type} [Nonempty α] (enclosed taylor : Nat → Option α) : α :=
  match triedPrecisions.findSome? enclosed with
  | some a => a
  | none => searchFrom taylor 1

/-! ### Taylor sums of any length -/

/-- Term j of the exponential series. -/
def taylorTerm (x : ℚ) (j : Nat) : ℚ := x ^ j / j.factorial

/-- Twice the magnitude of term n: what the first n terms of the series of e^x, cos x and sin x leave out is at most
this, where 2 |x| <= n + 1. -/
def taylorTail (x : ℚ) (n : Nat) : ℚ := 2 * taylorTerm |x| n

/-- The first n terms of e^x. -/
def expSum (x : ℚ) (n : Nat) : ℚ := ∑ j ∈ Finset.range n, taylorTerm x j

/-- The terms below index n of cos x and of sin x: those of e^x with an even index, or an odd one, their signs in turn. -/
def cosSum (x : ℚ) (n : Nat) : ℚ :=
  ∑ j ∈ Finset.range n, if j % 4 = 0 then taylorTerm x j else if j % 4 = 2 then -taylorTerm x j else 0
def sinSum (x : ℚ) (n : Nat) : ℚ :=
  ∑ j ∈ Finset.range n, if j % 4 = 1 then taylorTerm x j else if j % 4 = 3 then -taylorTerm x j else 0

/-- The enclosure between two rational numbers, its ends cut to multiples of 2^-n. -/
def dyadicBounds (n : Nat) (lo hi : ℚ) : Nat × Nat × Nat :=
  (⌊lo * 2 ^ n⌋.toNat, ⌈hi * 2 ^ n⌉.toNat, n)

/-- The magnitude bits of the binary64 value nearest to e^x, where n terms decide it. -/
def expTaylor (x : ℚ) (n : Nat) : Option Nat :=
  if n + 1 < 2 * |x| then none
  else roundEnclosure (dyadicBounds n (expSum x n - taylorTail x n) (expSum x n + taylorTail x n))

/-- Sign and magnitude bits of the binary64 value nearest to tan x, where n terms of sin x and cos x decide it: both signs
are known, and so is the rounded quotient. -/
def tanTaylor (x : ℚ) (n : Nat) : Option (Bool × Nat) :=
  let err := taylorTail x n
  let num := |sinSum x n|
  let den := |cosSum x n|
  if n + 1 < 2 * |x| ∨ num ≤ err ∨ den ≤ err then none
  else (roundEnclosure (dyadicBounds n ((num - err) / (den + err)) ((num + err) / (den - err)))).map fun mag =>
    (decide (sinSum x n * cosSum x n < 0), mag)

/-- The magnitude bits of the binary64 value nearest to e^(±mant * 2^exp), for mant other than 0. -/
def expNearest (neg : Bool) (mant : Nat) (exp : Int) : Nat :=
  firstDecided
    (fun prec => roundEnclosure (if neg then expNegBounds prec mant exp else expBounds prec mant exp))
    (expTaylor (if neg then -(mant * 2 ^ exp) else mant * 2 ^ exp))

/-- Canonical NaN and +infinity of binary64 (R20, R24). -/
def nan64 : DWord := 0x7FF8000000000000
def inf64 : DWord := 0x7FF0000000000000
def nan32 : Word := 0x7FC00000
def inf32 : Word := 0x7F800000

/-- EXP64 (R24). From |v| = 2^11 on the result overflows to +infinity or rounds to +0. An
instance bound to a math library takes that library's value (R11; log entry 2). -/
def exp64 (src : MathSource) (v : DWord) : DWord :=
  match val64 v with
  | .nan => nan64
  | .inf neg => if neg then zero64 else inf64
  | .fin neg mant exp =>
    if mant = 0 then one64
    else match src with
      | .library => Config.libExp64 v
      | .correctlyRounded =>
        if 11 ≤ mant.log2 + exp then (if neg then zero64 else inf64)
        else BitVec.ofNat 64 (expNearest neg mant exp)

/-- n terms of S * arctan(1/q) = S * (1/q - 1/(3 q^3) + ...), each cut to an integer, from index j with
p = S / q^(2j+1). -/
def arctanSum (q : Nat) : Nat → Nat → Nat → Int → Int
  | 0, _, _, acc => acc
  | n + 1, j, p, acc =>
    arctanSum q n (j + 1) (p / (q * q))
      (if j % 2 = 0 then acc + (p / (2 * j + 1) : Nat) else acc - (p / (2 * j + 1) : Nat))

/-- lo <= 2^w * pi <= hi, by pi = 16 arctan(1/5) - 4 arctan(1/239). -/
def piBounds (w : Nat) : Nat × Nat :=
  let n := w / 4 + 4
  let mid := 16 * arctanSum 5 n 0 (2 ^ w / 5) 0 - 4 * arctanSum 239 n 0 (2 ^ w / 239) 0
  let err : Int := 20 * (n + 1 : Nat)
  ((mid - err).toNat, (mid + err).toNat)

/-- Enclosures of cos r and sin r, times S. -/
structure TrigBounds where
  cosLo : Int
  cosHi : Int
  sinLo : Int
  sinHi : Int
deriving DecidableEq, Repr

/-- Add term j of the Taylor series of cos and sin, which lies between tlo and thi. -/
def addTrigTerm (j tlo thi : Nat) (b : TrigBounds) : TrigBounds :=
  match j % 4 with
  | 0 => { b with cosLo := b.cosLo + tlo, cosHi := b.cosHi + thi }
  | 1 => { b with sinLo := b.sinLo + tlo, sinHi := b.sinHi + thi }
  | 2 => { b with cosLo := b.cosLo - thi, cosHi := b.cosHi - tlo }
  | _ => { b with sinLo := b.sinLo - thi, sinHi := b.sinHi - tlo }

/-- The Taylor sums of cos r and sin r for r between rlo/S and rhi/S, as expSeries. -/
def trigSeries (S rlo rhi : Nat) : Nat → Nat → Nat → Nat → TrigBounds → TrigBounds
  | 0, _, _, thi, b =>
    { cosLo := b.cosLo - 2 * thi, cosHi := b.cosHi + 2 * thi,
      sinLo := b.sinLo - 2 * thi, sinHi := b.sinHi + 2 * thi }
  | n + 1, j, tlo, thi, b =>
    trigSeries S rlo rhi n (j + 1) (tlo * rlo / (S * (j + 1))) (ceilQuot (thi * rhi) (S * (j + 1)))
      (addTrigTerm j tlo thi b)

/-- An enclosure (lo, hi, w) of a positive quotient of two enclosed values; none where an end is not positive. -/
def ratioBounds (w : Nat) (numLo numHi denLo denHi : Int) : Option (Nat × Nat × Nat) :=
  if 0 < numLo ∧ 0 < denLo then
    some (numLo.toNat * 2 ^ w / denHi.toNat, ceilQuot (numHi.toNat * 2 ^ w) denLo.toNat, w)
  else none

/-- The operand x = mant * 2^exp of tan reduced by a multiple of pi/2: (n, rlo, rhi, w) with
rlo <= 2^w * (x - n * pi/2) <= rhi. -/
def tanReduce (prec mant : Nat) (exp : Int) : Nat × Nat × Nat × Nat :=
  let w := max (prec + (mant.log2 + 1 + exp).natAbs + 32) (-exp).toNat
  let x := mant * 2 ^ (exp + w).toNat
  let p := piBounds w
  let n := 2 * x / p.2
  (n, 2 * x - n * p.2, 2 * x - n * p.1, w + 1)

/-- |tan x| = sin r / cos r for an even multiple, cos r / sin r for an odd one: (n is odd, the enclosure). None where the
reduced operand is not known to be at most 2. -/
def tanBounds (prec mant : Nat) (exp : Int) : Option (Bool × (Nat × Nat × Nat)) :=
  let r := tanReduce prec mant exp
  let w := r.2.2.2
  let S := 2 ^ w
  let t := trigSeries S r.2.1 r.2.2.1 (w / 4 + 24) 0 S S ⟨0, 0, 0, 0⟩
  if 2 * S < r.2.2.1 then none
  else if r.1 % 2 = 0 then (ratioBounds w t.sinLo t.sinHi t.cosLo t.cosHi).map fun i => (false, i)
  else (ratioBounds w t.cosLo t.cosHi t.sinLo t.sinHi).map fun i => (true, i)

/-- Sign and magnitude bits of the binary64 value nearest to tan(mant * 2^exp), for mant other than 0. -/
def tanNearest (mant : Nat) (exp : Int) : Bool × Nat :=
  firstDecided
    (fun prec => (tanBounds prec mant exp).bind fun b => (roundEnclosure b.2).map fun mag => (b.1, mag))
    (tanTaylor (mant * 2 ^ exp))

/-- TAN64 (R24). A zero keeps its sign, which no rule can observe (log entry 3). An instance bound to a math library takes
that library's value (R11; log entry 2). -/
def tan64 (src : MathSource) (v : DWord) : DWord :=
  match val64 v with
  | .nan => nan64
  | .inf _ => nan64
  | .fin neg mant exp =>
    match src with
    | .library => Config.libTan64 v
    | .correctlyRounded =>
      if mant = 0 then v
      else
        let t := tanNearest mant exp
        if neg != t.1 then neg64 (BitVec.ofNat 64 t.2) else BitVec.ofNat 64 t.2

end Sys2Proof.Machine
end

