-- ==== Sys2Proof/Machine/Generator.lean ====
section
/-! DEFINITION. The velvet-noise pulse-sequence generator and GENERATE (spec/40_generator.md R160 to R183). `runGeneration` is
GEN of R163, which PREPARE shares. -/

namespace Sys2Proof.Machine

/-- The recurrence of R160: u32(1664525 * s + 1013904223). The constant stands first because Lean's kernel would count a
large literal on the right of a sum down one by one. -/
def lcg (s : Word) : Word := 1013904223 + 1664525 * s

/-- `lcg` applied n times (R183). -/
def lcgIter : Nat → Word → Word
  | 0, s => s
  | n + 1, s => lcgIter n (lcg s)

/-- Lr of R164: the exact sequence length, before rounding. -/
def lengthReal (sr dur : DWord) : DWord := div64 (mul64 sr dur) thousand64

/-- Gr of R164: the exact grid size, before rounding. -/
def gridReal (sr dens : DWord) : DWord := div64 sr dens

/-- `seq_length` (R165). -/
def seqLength (sr dur : DWord) : Nat := (rha (lengthReal sr dur)).toNat

/-- `grid_size` (R166). -/
def gridSize (sr dens : DWord) : Nat := (max 1 (rha (gridReal sr dens))).toNat

/-- A finite value above zero (R164). -/
def positiveFinite (v : DWord) : Bool := isFinite64 v && gt64 v zero64

/-- `validate` (R164): the number of the first condition that fails, none where all hold. -/
def validate (p : Params) (sr dur dens : DWord) (mb : Word) : Option (BitVec 8) :=
  if ¬positiveFinite sr then some 1
  else if ¬positiveFinite dur then some 2
  else if ¬positiveFinite dens then some 3
  else if ¬(1 ≤ mb.toNat ∧ mb.toNat ≤ p.blockMax) then some 4
  else if ¬(isFinite64 (lengthReal sr dur) ∧ rha (lengthReal sr dur) ≤ (p.ringMax : Int) - guardSamples) then some 5
  else if ¬(isFinite64 (gridReal sr dens) ∧ rha (gridReal sr dens) ≤ 2 ^ 31 - 1) then some 6
  else if ¬(seqLength sr dur / gridSize sr dens ≤ p.pulseMax) then some 7
  else none

/-- The pulse of one cell (R162): the draw of the jitter, the draw of the sign, and the position; the state after both
draws comes with it. -/
def drawPulse (G m : Nat) (s : Word) : Nat × Bool × Word :=
  let s1 := lcg s
  let s2 := lcg s1
  (m * G + s1.toNat % G, s2.msb, s2)

/-- `place_pulses` (R168) from cell m on, for a number of cells; a position at or beyond L is not stored (R169). -/
def placePulses (L G : Nat) : Nat → Nat → Word → List Pulse × Word
  | 0, _, s => ([], s)
  | cells + 1, m, s =>
    let d := drawPulse G m s
    let rest := placePulses L G cells (m + 1) d.2.2
    (if d.1 < L then { pos := BitVec.ofNat 31 d.1, neg := d.2.1 } :: rest.1 else rest.1, rest.2)

/-- `decay_rate` (R170). -/
def decayRate (L : Nat) : DWord := div64 neg3Ln10Const (i2d (max 1 L : Nat))

/-- `envelope` (R171). -/
def envelope (src : MathSource) (decay : DWord) (pos : Nat) : Word :=
  cvt32 (exp64 src (mul64 decay (i2d pos)))

/-- The sum of squares of R172, ascending. -/
def energySum (env : List Word) : DWord :=
  env.foldl (fun sum e => add64 sum (mul64 (cvt64 e) (cvt64 e))) zero64

/-- `norm_gain` (R172). -/
def normGain (env : List Word) : Word :=
  let sum := energySum env
  if lt64 sum negEpsConst then one32 else cvt32 (div64 one64 (sqrt64 sum))

/-- The PULSE and ENV tables written from entry 0, and the ring in use set to +0.0 (R173). -/
def commitTables (L : Nat) (tbl : List Pulse) (env : List Word) (m : Memory) : Memory :=
  (((m.writeWords (pulseAddr 0) (tbl.map pulseToWord)).writeWords (envAddr 0) env).clearWords
    (ringAddr 0) (L + guardSamples))

/-- `commit` (R173), all in one step. -/
def commit (L G : Nat) (tbl : List Pulse) (env : List Word) (decay : DWord) (final : Word) (s : State) : State :=
  { s.setPrepared with
    mem := commitTables L tbl env s.mem
    gen :=
      { seqlen := BitVec.ofNat 32 L
        grid := BitVec.ofNat 32 G
        npulses := BitVec.ofNat 32 tbl.length
        ringcap := BitVec.ofNat 32 (L + guardSamples)
        wptr := 0
        normgain := normGain env
        decay := decay
        lcgstate := final
        actMaxblk := s.regs.maxblk } }

/-- The envelopes of a pulse list (R163, R171). -/
def envelopes (src : MathSource) (decay : DWord) (tbl : List Pulse) : List Word :=
  tbl.map fun p => envelope src decay p.pos.toNat

/-- The part of GEN after `validate` (R163). -/
def buildTables (sr dur dens : DWord) (s : State) : State :=
  let L := seqLength sr dur
  let G := gridSize sr dens
  let placed := placePulses L G (L / G) 0 s.regs.seed
  let decay := decayRate L
  commit L G placed.1 (envelopes s.params.exp64 decay placed.1) decay placed.2 s

/-- GEN (R163): refuse with E_CONFIG, or build and commit. -/
def runGeneration (w : Word) (sr dur dens : DWord) (s : State) : State :=
  match validate s.params sr dur dens s.regs.maxblk with
  | some sub => s.raise (.config sub) w
  | none => buildTables sr dur dens s

/-- GENERATE (R163). -/
def execGenerate (s : State) : Host.Outcome State Fault Refusal :=
  .next (runGeneration (encode .generate) s.sampleRate s.duration s.density s)

end Sys2Proof.Machine
end

