-- ==== Sys2Proof/Machine/EarlyReflections.lean ====
section
/-! DEFINITION. The early-reflection stage: PREPARE and ER_RESET (spec/43_early_reflections.md R260 to R266). Its `process` is
CONVOLVE (R263). -/

namespace Sys2Proof.Machine

/-- durationMs = 30.0 (R261). -/
def policyDuration : DWord := 0x403E000000000000

/-- density = 2000.0 (R261). -/
def policyDensity : DWord := 0x409F400000000000

/-- PREPARE (R260): GEN with the two policy constants. DUR and DENS are not read. -/
def execPrepare (s : State) : Host.Outcome State Fault Refusal :=
  .next (runGeneration (encode .prepare) s.sampleRate policyDuration policyDensity s)

/-- ER_RESET (R262): no effect on any state, no error (spec/90_conflicts.md C1). -/
def execErReset (s : State) : Host.Outcome State Fault Refusal := .next s

end Sys2Proof.Machine
end

