-- ==== Sys2Proof/Machine/Filter.lean ====
section
/-! DEFINITION. The shelving attenuation filter bank: FLT_SETCOEF, FLT_PROCESS, FLT_RESET (spec/42_filter.md R230 to R241). -/

namespace Sys2Proof.Machine

/-- B0, B1 and A1 (R230). -/
structure Coefficients where
  b0 : Word
  b1 : Word
  a1 : Word
deriving DecidableEq, Repr

/-- The flat test of R230: false when a gain is NaN or both are infinite alike. -/
def flatGains (glow ghigh : Word) : Bool := lt64 (abs64 (sub64 (cvt64 glow) (cvt64 ghigh))) eqEpsConst

/-- t of R230. -/
def tangent (src : MathSource) (fc sr : Word) : DWord := tan64 src (div64 (mul64 piConst (cvt64 fc)) (cvt64 sr))

/-- The shelving design of R230 from its tangent, in binary64, stored in binary32. -/
def shelvingDesign (glow ghigh : Word) (t : DWord) : Coefficients :=
  let gl := cvt64 glow
  let gh := cvt64 ghigh
  let a1 := div64 (sub64 t one64) (add64 t one64)
  let p := add64 one64 a1
  let q := sub64 one64 a1
  let b0 := div64 (add64 (mul64 gl p) (mul64 gh q)) two64
  let b1 := div64 (sub64 (mul64 gl p) (mul64 gh q)) two64
  { b0 := cvt32 b0, b1 := cvt32 b1, a1 := cvt32 a1 }

/-- The coefficients FLT_SETCOEF writes (R230). On the flat path B0 is a bit copy of gainLow. -/
def designCoefficients (src : MathSource) (glow ghigh fc sr : Word) : Coefficients :=
  if flatGains glow ghigh then { b0 := glow, b1 := zero32, a1 := zero32 }
  else shelvingDesign glow ghigh (tangent src fc sr)

/-- The difference equation of R232, each product and sum rounded, left to right. -/
def filterOutput (f : Filter) (x : Word) : Word :=
  sub32 (add32 (mul32 f.b0 x) (mul32 f.b1 f.z1)) (mul32 f.a1 f.zout1)

/-- The decoder's last check (R131, R284): a filter index the instance lacks raises E_FILTER. -/
def withFilter (w : Word) (fidx : BitVec 8) (s : State) (body : Nat → State) : State :=
  if s.params.nfilt ≤ filterIndex fidx then s.raise .filter w else body (filterIndex fidx)

/-- FLT_SETCOEF on instance i (R230): the coefficients and CONFIGURED; Z1 and ZOUT1 stay (R231). -/
def setCoefficients (i : Nat) (s : State) : State :=
  let c := designCoefficients s.params.tan64 s.regs.fGlow s.regs.fGhigh s.regs.fFc s.regs.fSr
  s.setFilter i { s.filter i with b0 := c.b0, b1 := c.b1, a1 := c.a1, configured := true }

/-- FLT_PROCESS on instance i (R232). -/
def processSample (w : Word) (i : Nat) (s : State) : State :=
  let f := s.filter i
  if ¬f.configured then s.raise .notReady w
  else
    let y := filterOutput f s.regs.fIn
    { s.setFilter i { f with z1 := s.regs.fIn, zout1 := y } with fOut := y }

/-- FLT_RESET on instance i (R234). -/
def resetFilter (i : Nat) (s : State) : State :=
  s.setFilter i { s.filter i with z1 := zero32, zout1 := zero32 }

def execFltSetcoef (fidx : BitVec 8) (s : State) : Host.Outcome State Fault Refusal :=
  .next (withFilter (encode (.fltSetcoef fidx)) fidx s fun i => setCoefficients i s)

def execFltProcess (fidx : BitVec 8) (s : State) : Host.Outcome State Fault Refusal :=
  .next (withFilter (encode (.fltProcess fidx)) fidx s fun i =>
    processSample (encode (.fltProcess fidx)) i s)

def execFltReset (fidx : BitVec 8) (s : State) : Host.Outcome State Fault Refusal :=
  .next (withFilter (encode (.fltReset fidx)) fidx s fun i => resetFilter i s)

end Sys2Proof.Machine
end

