-- ==== Sys2Proof/Machine/Dispatch.lean ====
section
/-! DEFINITION. The commands' meanings, one arm per command (spec/30_encoding.md R131). -/

namespace Sys2Proof.Machine

def exec (i : Instr) (s : State) : Host.Outcome State Fault Refusal :=
  match i with
  | .nop => Sys2Proof.Machine.execNop s
  | .generate => Sys2Proof.Machine.execGenerate s
  | .convolve => Sys2Proof.Machine.execConvolve s
  | .fltSetcoef fidx => Sys2Proof.Machine.execFltSetcoef fidx s
  | .fltProcess fidx => Sys2Proof.Machine.execFltProcess fidx s
  | .fltReset fidx => Sys2Proof.Machine.execFltReset fidx s
  | .prepare => Sys2Proof.Machine.execPrepare s
  | .erReset => Sys2Proof.Machine.execErReset s

end Sys2Proof.Machine
end

