-- ==== Sys2Proof/Machine/Bus.lean ====
section
/-! DEFINITION. The bus: the address map and the two kinds of access (spec/20_memory.md R80 to R95), and the host that issues them
in order (R98, spec/30_encoding.md R140). -/

namespace Sys2Proof.Machine

/-- The read-only registers of one word (R33, R36 to R47, R55). -/
inductive ReadOnlyReg where
  | id | errcode | errinfo | fOut
  | seqlen | grid | npulses | ringcap | wptr | normgain | decayLo | decayHi | lcgstate | actMaxblk
  | capNfilt | capBlockMax | capRingMax | capPulseMax
deriving DecidableEq, Repr

/-- What stands at a mapped offset (R82, R83). -/
inductive Target where
  | cmd
  | status
  | operand (r : OperandReg)
  | readOnly (r : ReadOnlyReg)
  | fbank (i j : Nat)
  | inbuf (i : Nat)
  | outbuf (i : Nat)
  | pulse (k : Nat)
  | env (k : Nat)
  | ring (i : Nat)
deriving DecidableEq, Repr

/-- The mapped offsets of the register page, exactly these (R83). -/
def registerPage : List (Nat × Target) :=
  [(0x000, .readOnly .id), (0x004, .cmd), (0x008, .status), (0x00C, .readOnly .errcode),
   (0x010, .readOnly .errinfo),
   (0x020, .operand .srLo), (0x024, .operand .srHi), (0x028, .operand .durLo), (0x02C, .operand .durHi),
   (0x030, .operand .densLo), (0x034, .operand .densHi), (0x038, .operand .seed), (0x03C, .operand .maxblk),
   (0x040, .operand .nsamp), (0x044, .operand .gain),
   (0x050, .operand .fGlow), (0x054, .operand .fGhigh), (0x058, .operand .fFc), (0x05C, .operand .fSr),
   (0x060, .operand .fIn), (0x064, .readOnly .fOut),
   (0x080, .readOnly .seqlen), (0x084, .readOnly .grid), (0x088, .readOnly .npulses), (0x08C, .readOnly .ringcap),
   (0x090, .readOnly .wptr), (0x094, .readOnly .normgain), (0x098, .readOnly .decayLo), (0x09C, .readOnly .decayHi),
   (0x0A0, .readOnly .lcgstate), (0x0A4, .readOnly .actMaxblk),
   (0x0E0, .readOnly .capNfilt), (0x0E4, .readOnly .capBlockMax), (0x0E8, .readOnly .capRingMax),
   (0x0EC, .readOnly .capPulseMax)]

/-- The index of an offset in a window of `size` words from `start` up. -/
def windowIndex (start size off : Nat) : Option Nat :=
  if start ≤ off ∧ off < start + 4 * size then some ((off - start) / 4) else none

/-- The filter and field of an offset of the FBANK window: eight words a filter, of which six are mapped (R82, R83). -/
def fbankTarget (nfilt off : Nat) : Option Target :=
  match windowIndex 0x08000 (8 * nfilt) off with
  | some w => if w % 8 ≤ 5 then some (.fbank (w / 8) (w % 8)) else none
  | none => none

/-- The map of the windows (R82). -/
def windowTarget (p : Params) (off : Nat) : Option Target :=
  (fbankTarget p.nfilt off).or <|
  ((windowIndex 0x10000 p.blockMax off).map Target.inbuf).or <|
  ((windowIndex 0x20000 p.blockMax off).map Target.outbuf).or <|
  ((windowIndex 0x30000 p.pulseMax off).map Target.pulse).or <|
  ((windowIndex 0x40000 p.pulseMax off).map Target.env).or <|
  ((windowIndex 0x80000 p.ringMax off).map Target.ring)

/-- What an access reaches (R82, R83, R85): none where it is misaligned or unmapped (R89, R95). -/
def targetAt (p : Params) (off : Offset) : Option Target :=
  if off.toNat % 4 ≠ 0 then none
  else (registerPage.lookup off.toNat).or (windowTarget p off.toNat)

/-- The identification word (R2, R33). -/
def idWord : Word := 0x56554401

/-- The value of a read-only register (R33, R36 to R47, R55). -/
def State.readOnlyReg (s : State) : ReadOnlyReg → Word
  | .id => idWord
  | .errcode => s.err.code.zeroExtend 32
  | .errinfo => s.err.info
  | .fOut => s.fOut
  | .seqlen => s.gen.seqlen
  | .grid => s.gen.grid
  | .npulses => s.gen.npulses
  | .ringcap => s.gen.ringcap
  | .wptr => s.gen.wptr
  | .normgain => s.gen.normgain
  | .decayLo => s.gen.decay.extractLsb' 0 32
  | .decayHi => s.gen.decay.extractLsb' 32 32
  | .lcgstate => s.gen.lcgstate
  | .actMaxblk => s.gen.actMaxblk
  | .capNfilt => BitVec.ofNat 32 s.params.nfilt
  | .capBlockMax => BitVec.ofNat 32 s.params.blockMax
  | .capRingMax => BitVec.ofNat 32 s.params.ringMax
  | .capPulseMax => BitVec.ofNat 32 s.params.pulseMax

/-- Field j of filter i as the FBANK window shows it (R82, R130). -/
def State.fbankWord (s : State) (i j : Nat) : Word :=
  match j with
  | 0 => (s.filter i).b0
  | 1 => (s.filter i).b1
  | 2 => (s.filter i).a1
  | 3 => (s.filter i).z1
  | 4 => (s.filter i).zout1
  | _ => s.fflagsWord i

/-- What a mapped read returns (R85); a table or ring entry beyond the count in use reads 0 (R94). -/
def State.readTarget (s : State) : Target → Word
  | .cmd => 0
  | .status => s.statusWord
  | .operand r => s.regs.get r
  | .readOnly r => s.readOnlyReg r
  | .fbank i j => s.fbankWord i j
  | .inbuf i => s.inbuf i
  | .outbuf i => s.outbuf i
  | .pulse k => if k < s.gen.npulses.toNat then s.pulseWord k else 0
  | .env k => if k < s.gen.npulses.toNat then s.env k else 0
  | .ring i => if i < s.gen.ringcap.toNat then s.ring i else 0

/-- E_BUS with the offset of the access (R85, R291). -/
def State.busError (s : State) (off : Offset) : State := s.raise .bus (off.zeroExtend 32)

/-- MemRead, of any size (R85): the value returned and the state after. -/
def busRead (size : AccessSize) (off : Offset) (s : State) : Word × State :=
  match size, targetAt s.params off with
  | .word, some t => (s.readTarget t, s)
  | _, _ => (0, s.busError off)

/-- `execute_command` (R131): an illegal word raises E_ILLEGAL (R126, R282). -/
def executeCommand (w : Word) (s : State) : Host.Outcome State Fault Refusal :=
  match decode w with
  | .ok i => exec i s
  | .error _ => .next (s.raise .illegal w)

/-- A word write to a mapped offset (R85, R93). -/
def writeTarget (t : Target) (off : Offset) (v : Word) (s : State) : Host.Outcome State Fault Refusal :=
  match t with
  | .operand r => .next { s with regs := s.regs.set r v }
  | .inbuf i => .next { s with mem := s.mem.writeWord (inbufAddr i) v }
  | .status => .next (s.clearErrors v)
  | .cmd => executeCommand v s
  | .readOnly _ => .next (s.busError off)
  | .fbank _ _ => .next (s.busError off)
  | .outbuf _ => .next (s.busError off)
  | .pulse _ => .next (s.busError off)
  | .env _ => .next (s.busError off)
  | .ring _ => .next (s.busError off)

/-- MemWrite, of any size (R85). -/
def busWrite (size : AccessSize) (off : Offset) (v : Word) (s : State) : Host.Outcome State Fault Refusal :=
  match size, targetAt s.params off with
  | .word, some t => writeTarget t off v s
  | _, _ => .next (s.busError off)

/-! ### The host -/

/-- A value returned to the host's program (R335). -/
def State.logRead (s : State) (v : Word) : State := { s with host := { s.host with reads := s.host.reads ++ [v] } }

/-- One access carried out (R85). -/
def performAccess (a : Access) (s : State) : Host.Outcome State Fault Refusal :=
  match a with
  | .read size off => .next ((busRead size off s).2.logRead (busRead size off s).1)
  | .write size off v => busWrite size off v s

/-- The host's next access, and the state with the position moved past it (R62); none at the end of the program (R335). -/
def fetchAccess (s : State) : Option (Access × State) :=
  match s.host.pending with
  | [] => none
  | a :: rest => some (a, { s with host := { s.host with pending := rest, position := s.host.position + 1 } })

/-- The offset of CMD (R34). -/
def cmdOffset : Offset := 0x00004

/-- The access that issues a command word: a word write to CMD (R9, R120). -/
def commandAccess (w : Word) : Access := .write .word cmdOffset w

/-- The host given an access to issue next, before all it was still to issue. -/
def issueNext (a : Access) (s : State) : State := { s with host := { s.host with pending := a :: s.host.pending } }

/-! ### BASE (R80) -/

/-- The host bus address of a block offset: BASE + off (R80). -/
def busAddress (p : Params) (off : Offset) : Nat := p.base + off.toNat

/-- The block offset of a bus address; none outside the block's 1 MiB window (R80). -/
def offsetOfAddress (p : Params) (addr : Nat) : Option Offset :=
  if p.base ≤ addr ∧ addr < 2 ^ 20 + p.base then some (BitVec.ofNat 20 (addr - p.base)) else none

end Sys2Proof.Machine
end

