-- ==== Sys2Proof/Machine/Step.lean ====
section
/-! DEFINITION. One step: the host's next access, carried out to completion (spec/20_memory.md R98, R99; spec/10_state.md R62). -/

namespace Sys2Proof.Machine

/-- One access. At the end of the host's program nothing is pending and the state is final (R335): the block waits,
unchanged (log entry 7). -/
def step (s : State) : Host.Outcome State Fault Refusal :=
  match fetchAccess s with
  | none => .next s
  | some (a, s') => performAccess a s'

/-- The same machine with the command of an opcode-table row as the host's next access, a write of its word to CMD
(log entry 6). -/
def State.withFetchWord (s : State) (nbits w : Nat) : State :=
  issueNext (commandAccess (BitVec.ofNat 32 (w % 2 ^ nbits))) s

end Sys2Proof.Machine
end

