-- ==== Sys2Proof/Machine/Assembler.lean ====
section
/-! DEFINITION. The assembler of spec/30_encoding.md R140 to R145: every statement expands to the accesses it stands for. A program is the
join of its statements' expansions (R140). -/

namespace Sys2Proof.Machine

/-! ### Literals (R141, R143) -/

/-- A float literal: ± digits * 10^exp10. -/
structure DecimalLit where
  neg : Bool
  digits : Nat
  exp10 : Int
deriving DecidableEq, Repr

/-- num / den, for rounding to prec bits. -/
def ratioVal (prec : Nat) (neg : Bool) (num den : Nat) : FloatVal :=
  if num = 0 then .fin neg 0 0
  else
    let q := quotientSticky prec num den
    .fin neg q.1 (-(q.2 : Int))

/-- A literal rounded to nearest even in a format (R143). -/
def literalBits (f : FloatFormat) (l : DecimalLit) : Nat :=
  f.pack (ratioVal f.prec l.neg (l.digits * 10 ^ l.exp10.toNat) (10 ^ (-l.exp10).toNat))

/-- f32bits(lit). -/
def f32lit (l : DecimalLit) : Word := BitVec.ofNat 32 (literalBits binary32 l)

/-- f64bits(lit). -/
def f64lit (l : DecimalLit) : DWord := BitVec.ofNat 64 (literalBits binary64 l)

/-! ### Register names as offsets (R141) -/

/-- The offset of an operand register (R32). -/
def operandOffset : OperandReg → Offset
  | .srLo => 0x020
  | .srHi => 0x024
  | .durLo => 0x028
  | .durHi => 0x02C
  | .densLo => 0x030
  | .densHi => 0x034
  | .seed => 0x038
  | .maxblk => 0x03C
  | .nsamp => 0x040
  | .gain => 0x044
  | .fGlow => 0x050
  | .fGhigh => 0x054
  | .fFc => 0x058
  | .fSr => 0x05C
  | .fIn => 0x060

/-- The offset of a read-only register (R83). -/
def readOnlyOffset : ReadOnlyReg → Offset
  | .id => 0x000
  | .errcode => 0x00C
  | .errinfo => 0x010
  | .fOut => 0x064
  | .seqlen => 0x080
  | .grid => 0x084
  | .npulses => 0x088
  | .ringcap => 0x08C
  | .wptr => 0x090
  | .normgain => 0x094
  | .decayLo => 0x098
  | .decayHi => 0x09C
  | .lcgstate => 0x0A0
  | .actMaxblk => 0x0A4
  | .capNfilt => 0x0E0
  | .capBlockMax => 0x0E4
  | .capRingMax => 0x0E8
  | .capPulseMax => 0x0EC

/-- The register names of R32 and R83. -/
inductive RegName where
  | cmd
  | status
  | operand (r : OperandReg)
  | readOnly (r : ReadOnlyReg)
deriving DecidableEq, Repr

/-- The offset a register name stands for (R83, R141). -/
def registerOffset : RegName → Offset
  | .cmd => cmdOffset
  | .status => 0x008
  | .operand r => operandOffset r
  | .readOnly r => readOnlyOffset r

/-- The register pairs (R87). -/
inductive PairName where
  | sr | dur | dens | decay
deriving DecidableEq, Repr

def pairLo : PairName → RegName
  | .sr => .operand .srLo
  | .dur => .operand .durLo
  | .dens => .operand .densLo
  | .decay => .readOnly .decayLo

def pairHi : PairName → RegName
  | .sr => .operand .srHi
  | .dur => .operand .durHi
  | .dens => .operand .densHi
  | .decay => .readOnly .decayHi

/-! ### Primitive statements (R141) -/

/-- `wr OFF, imm32`. -/
def asmWr (off : Offset) (imm : Word) : List Access := [.write .word off imm]
/-- `wr OFF, imm32` with a register name for OFF. -/
def asmWrReg (r : RegName) (imm : Word) : List Access := asmWr (registerOffset r) imm
/-- `rd OFF`. -/
def asmRd (off : Offset) : List Access := [.read .word off]
/-- `rd OFF` with a register name for OFF. -/
def asmRdReg (r : RegName) : List Access := asmRd (registerOffset r)

/-! ### Command statements (R142) -/

/-- The one write to CMD of a command statement. -/
def asmCommand (i : Instr) : List Access := [commandAccess (encode i)]

/-! ### Data pseudo-instructions (R143) -/

/-- `wrf REG, lit`. REG is any register name: a write that the register does not take is the bus's to refuse (R93). -/
def asmWrf (r : RegName) (l : DecimalLit) : List Access := asmWrReg r (f32lit l)
/-- `wrd PAIR, lit`: LO, then HI (R87). -/
def asmWrd (p : PairName) (l : DecimalLit) : List Access :=
  asmWrReg (pairLo p) ((f64lit l).extractLsb' 0 32) ++
  asmWrReg (pairHi p) ((f64lit l).extractLsb' 32 32)
/-- `wrbuf i, lit`. DESIGN CHOICE (log entry 18): R143 gives no range for i, and offsets end at 0xFFFFF (R80). From i = 0x3C000 on
0x10000 + 4 i has no offset, and the model keeps its low 20 bits. Unsafe there. -/
def asmWrbuf (i : Nat) (l : DecimalLit) : List Access := asmWr (BitVec.ofNat 20 (inbufAddr i)) (f32lit l)
/-- `rdbuf i`. DESIGN CHOICE (log entry 18): as `asmWrbuf`, from i = 0x38000 on for 0x20000 + 4 i. Unsafe there. -/
def asmRdbuf (i : Nat) : List Access := asmRd (BitVec.ofNat 20 (outbufAddr i))
/-- `clrerr`. -/
def asmClrerr : List Access := asmWrReg .status 0x00003F00

/-! ### Operation pseudo-instructions (R144) -/

/-- `er.prepare sr, maxblk, seed`. -/
def asmErPrepare (sr : DecimalLit) (maxblk seed : Word) : List Access :=
  asmWrd .sr sr ++ asmWrReg (.operand .maxblk) maxblk ++ asmWrReg (.operand .seed) seed ++ asmCommand .prepare
/-- `pg.generate sr, dur, dens, seed, maxblk`. -/
def asmPgGenerate (sr dur dens : DecimalLit) (seed maxblk : Word) : List Access :=
  asmWrd .sr sr ++ asmWrd .dur dur ++ asmWrd .dens dens ++ asmWrReg (.operand .seed) seed ++
  asmWrReg (.operand .maxblk) maxblk ++ asmCommand .generate
/-- `er.process n, gain`. -/
def asmErProcess (n : Word) (gain : DecimalLit) : List Access :=
  asmWrReg (.operand .nsamp) n ++ asmWrf (.operand .gain) gain ++ asmCommand .convolve
/-- `flt.setcoef f, gl, gh, fc, sr`. -/
def asmFltSetcoef (f : BitVec 8) (gl gh fc sr : DecimalLit) : List Access :=
  asmWrf (.operand .fGlow) gl ++ asmWrf (.operand .fGhigh) gh ++ asmWrf (.operand .fFc) fc ++
  asmWrf (.operand .fSr) sr ++ asmCommand (.fltSetcoef f)
/-- `flt.step f, x`. -/
def asmFltStep (f : BitVec 8) (x : DecimalLit) : List Access :=
  asmWrf (.operand .fIn) x ++ asmCommand (.fltProcess f) ++ asmRdReg (.readOnly .fOut)

/-! ### Host constructs (R145) -/

/-- `repeat K body`. -/
def asmRepeat (k : Nat) (body : List Access) : List Access := (List.replicate k body).flatten
/-- `for v = a .. b body`: empty if a > b. DESIGN CHOICE (log entry 21): R145 gives no range for a and b; the model takes every integer,
and the body says what a negative v stands for in an operand. -/
def asmFor (a b : Int) (body : Int → List Access) : List Access :=
  ((List.range (b + 1 - a).toNat).map fun k : Nat => body (a + k)).flatten

/-- A machine whose host is about to issue a program, and nothing else (R140). -/
def State.withProgram (s : State) (program : List Access) : State :=
  { s with host := { s.host with pending := program } }

end Sys2Proof.Machine
end

