-- ==== Sys2Proof/WellFormed.lean ====
section
/-! DEFINITION. Well-formedness: an instance's parameters lie in their legal ranges (spec/00_scope.md R11), and a
command selects a filter the instance has (spec/30_encoding.md R125). -/

namespace Sys2Proof

/-- The legal ranges of R11; BASE is 1 MiB aligned. -/
abbrev Params.Legal (p : Params) : Prop :=
  (1 ≤ p.nfilt ∧ p.nfilt ≤ 256) ∧ (1 ≤ p.blockMax ∧ p.blockMax ≤ 16384) ∧
  (257 ≤ p.ringMax ∧ p.ringMax ≤ 65536) ∧ (1 ≤ p.pulseMax ∧ p.pulseMax ≤ 16384) ∧
  p.base % 2 ^ 20 = 0

/-- A command is well formed for an instance of `nfilt` filters when the filter it names exists: a filter-class
word with FIDX >= NFILT raises E_FILTER (R125, R284). Every other command is well formed on every instance. -/
def Instr.wellFormed (nfilt : Nat) : Instr → Bool
  | .nop => true
  | .generate => true
  | .convolve => true
  | .fltSetcoef fidx => decide (fidx.toNat < nfilt)
  | .fltProcess fidx => decide (fidx.toNat < nfilt)
  | .fltReset fidx => decide (fidx.toNat < nfilt)
  | .prepare => true
  | .erReset => true

end Sys2Proof
end

