-- ==== Sys2Proof/Safety.lean ====
section
/-! DEFINITION. The terms claims are stated in: a run without a recorded error (spec/60_exceptions.md R294), the invariants of
spec/10_state.md R65, the exactness premise and the stream of spec/41_convolver.md R209, and the real value of a floating-point
pattern (spec/00_scope.md R18). -/

namespace Sys2Proof.Machine

/-! ### Errors -/

/-- CODE and SUB of ERRCODE (R36). -/
def ErrorRecord.codeField (e : ErrorRecord) : BitVec 8 := e.code.extractLsb' 0 8
def ErrorRecord.subField (e : ErrorRecord) : BitVec 8 := e.code.extractLsb' 8 8

/-- What every recorded error leaves (R36, R281): a code of 0 to 6, a sub-cause 1 to 7 for E_CONFIG and 0 for every other, and no
sticky bit without a code. -/
structure ErrorRecordLegal (e : ErrorRecord) : Prop where
  code_le : e.codeField.toNat ≤ 6
  sub_config : e.subField ≠ 0 ↔ e.codeField = 2
  sub_le : e.subField.toNat ≤ 7
  bits_code : e.bits ≠ 0 → e.codeField ≠ 0

/-- No error since reset: CODE = 0 (R294). -/
def State.errorFree (s : State) : Bool := s.err.codeField == 0

/-- A run of k accesses that records no error: the premise of a claim about a run (R294, 93_implementation_defined.md I1). -/
def SafeRun (k : Nat) (s t : State) : Prop :=
  Sys2Proof.core.run k s = .next t ∧ t.errorFree = true

/-- Every check of R164 holds for the operands GENERATE or PREPARE takes (R163, R260): the generation is accepted. -/
def GenerationAccepted (s : State) (i : Instr) : Prop :=
  (i = .generate ∧ validate s.params s.sampleRate s.duration s.density s.regs.maxblk = none) ∨
  (i = .prepare ∧ validate s.params s.sampleRate policyDuration policyDensity s.regs.maxblk = none)

/-! ### Invariants (R65) -/

/-- What R65 says of a prepared block. -/
structure TablesValid (s : State) : Prop where
  grid_pos : 1 ≤ s.gen.grid.toNat
  ringcap_eq : s.gen.ringcap.toNat = s.gen.seqlen.toNat + guardSamples
  ringcap_le : s.gen.ringcap.toNat ≤ s.params.ringMax
  wptr_lt : s.gen.wptr.toNat < s.gen.ringcap.toNat
  npulses_eq : s.gen.npulses.toNat = s.gen.seqlen.toNat / s.gen.grid.toNat
  npulses_le : s.gen.npulses.toNat ≤ s.params.pulseMax
  maxblk_pos : 1 ≤ s.gen.actMaxblk.toNat
  maxblk_le : s.gen.actMaxblk.toNat ≤ s.params.blockMax
  pos_lt : ∀ k, k < s.gen.npulses.toNat → (s.pulse k).pos.toNat < s.gen.seqlen.toNat
  pos_rising : ∀ k, k + 1 < s.gen.npulses.toNat → (s.pulse k).pos.toNat < (s.pulse (k + 1)).pos.toNat

/-- What R65 says of a block not yet prepared. -/
structure NoTables (s : State) : Prop where
  seqlen : s.gen.seqlen = 0
  grid : s.gen.grid = 0
  npulses : s.gen.npulses = 0
  ringcap : s.gen.ringcap = 0
  wptr : s.gen.wptr = 0
  actMaxblk : s.gen.actMaxblk = 0

/-- The invariant of the machine: a legal instance, one filter record per instance filter, memory in its canonical form,
and R65. -/
structure State.Inv (s : State) : Prop where
  legal : s.params.Legal
  filters : s.fb.length = s.params.nfilt
  memory : s.mem.wf = true
  unprepared : s.prepared = false → NoTables s
  prepared : s.prepared = true → TablesValid s

/-! ### The stream a convolver sees (R209) -/

/-- x[t], with x[t] = 0 for t < 0 (R209). -/
def streamAt (x : List Word) (t : Int) : Word := if t < 0 then zero32 else x.getD t.toNat zero32

/-- The ring holds the last RINGCAP samples of the stream x, the newest just before the write pointer. -/
def HoldsHistory (s : State) (x : List Word) : Prop :=
  ∀ d, d < s.gen.ringcap.toNat →
    s.ring (ringSlot s.gen.ringcap.toNat s.gen.wptr.toNat 0 (d + 1)) = streamAt x ((x.length : Int) - 1 - d)

/-- The exactness premise of R209, `N <= RINGCAP - maxpos`: no slot a pulse reads is overwritten by the block. -/
def ExactBlock (s : State) (N : Nat) : Prop :=
  N ≤ s.gen.ringcap.toNat ∧
  ∀ k, k < s.gen.npulses.toNat → N + (s.pulse k).pos.toNat ≤ s.gen.ringcap.toNat

/-- The input block INBUF[0 .. N-1]. -/
def State.inputs (s : State) (N : Nat) : List Word := (List.range N).map s.inbuf

/-- One sample of the sparse FIR response of the stream x (R209): the left fold over the pulses that are not culled. -/
def State.firOutput (s : State) (x : List Word) (t : Int) : Word :=
  (List.range s.gen.npulses.toNat).foldl
    (fun acc k =>
      if culled (s.pulseCoeff k) then acc
      else add32 acc (mul32 (s.pulseCoeff k) (streamAt x (t - (s.pulse k).pos.toNat))))
    zero32

/-! ### The values behind floating-point patterns (R18, R123) -/

/-- The exact value of a finite datum; 0 for the others. -/
def FloatVal.toRat : FloatVal → ℚ
  | .nan => 0
  | .inf _ => 0
  | .fin neg m e => (if neg then -1 else 1) * (m * 2 ^ e)

/-- The value of a finite pattern. -/
def FloatFormat.value (f : FloatFormat) (bits : Nat) : ℚ := (f.unpack bits).toRat

/-- The least magnitude that overflows under round-to-nearest-even: halfway from the largest finite value to the next
power of two. -/
def FloatFormat.overflowAt (f : FloatFormat) : ℚ := (2 ^ (f.prec + 1) - 1) * 2 ^ (2 ^ (f.ebits - 1) - 1 - (f.prec : Int))

/-- A magnitude pattern of the format that is nearest to the real number x >= 0, ties to even, overflow to infinity:
what "correctly rounded" means (R18, R24). -/
structure NearestMag (f : FloatFormat) (x : ℝ) (mag : Nat) : Prop where
  overflow : (f.overflowAt : ℝ) ≤ x ↔ mag = f.infBits
  le_inf : mag ≤ f.infBits
  nearest : mag < f.infBits → ∀ z, z < f.infBits → |(f.value mag : ℝ) - x| ≤ |(f.value z : ℝ) - x|
  tie_even : mag < f.infBits → ∀ z, z < f.infBits → z ≠ mag →
    |(f.value mag : ℝ) - x| = |(f.value z : ℝ) - x| → mag % 2 = 0

end Sys2Proof.Machine
end

