-- ==== Sys2Proof/Certificates/Slice0/Obligations.lean ====
section
/-! DEFINITION. The statements for the provers, each with the rule of spec/ it formalises. -/

open Sys2Proof Sys2Proof.Machine

/-! ## Encoding -/

/-- R124, R126, R131: every one of the 2^32 words is the encoding of exactly one command or of none, and the decoder
reads a command from exactly that word. -/
def Obligations.DecodeEncodeAgree : Prop :=
  ∀ (w : Word) (i : Instr), decode w = .ok i ↔ w = encode i

/-- R126: a command word is illegal exactly when OP >= 0x08, RSV != 0, or FIDX != 0 outside the filter class. -/
def Obligations.IllegalWordsExactly : Prop :=
  ∀ w : Word,
    (∃ e, decode w = .error e) ↔
      (8 ≤ w.toNat % 2 ^ 8 ∨ w.toNat / 2 ^ 16 ≠ 0 ∨
        (w.toNat / 2 ^ 8 % 2 ^ 8 ≠ 0 ∧
          w.toNat % 2 ^ 8 ≠ 3 ∧ w.toNat % 2 ^ 8 ≠ 4 ∧ w.toNat % 2 ^ 8 ≠ 5))

/-- R124: the full words of the opcode map, for some filter indices. -/
def Obligations.OpcodeMapWordsDecode : Prop :=
  decode 0x00000000 = .ok .nop ∧ decode 0x00000001 = .ok .generate ∧ decode 0x00000002 = .ok .convolve ∧
  decode 0x00000103 = .ok (.fltSetcoef 1) ∧ decode 0x00000704 = .ok (.fltProcess 7) ∧
  decode 0x00001005 = .ok (.fltReset 16) ∧ decode 0x00000006 = .ok .prepare ∧ decode 0x00000007 = .ok .erReset

/-! ## The step -/

/-- R9, R131, R62: when the host's next access writes a word to CMD that decodes to i, the step is exec of i, with the host moved past
that access. -/
def Obligations.StepRunsDecodedCommand : Prop :=
  ∀ (s : State) (w : Word) (rest : List Access) (i : Instr),
    s.host.pending = Access.write .word 0x004 w :: rest → decode w = .ok i →
      step s = exec i { s with host := { s.host with pending := rest, position := s.host.position + 1 } }

/-- R126, R282: a CMD write of a word with OP >= 0x08, RSV != 0, or FIDX != 0 outside the filter class sets STATUS bit 8, ERRCODE = 1 and
ERRINFO = the word, and has no other effect. -/
def Obligations.IllegalCommandRecorded : Prop :=
  ∀ (s : State) (w : Word) (rest : List Access),
    s.host.pending = Access.write .word 0x004 w :: rest →
    (8 ≤ w.toNat % 2 ^ 8 ∨ w.toNat / 2 ^ 16 ≠ 0 ∨
      (w.toNat / 2 ^ 8 % 2 ^ 8 ≠ 0 ∧ w.toNat % 2 ^ 8 ≠ 3 ∧ w.toNat % 2 ^ 8 ≠ 4 ∧ w.toNat % 2 ^ 8 ≠ 5)) →
      step s = .next
        { s with
          err := { bits := s.err.bits ||| 1, code := 1, info := w }
          host := { s.host with pending := rest, position := s.host.position + 1 } }

/-- R333, R62: every step completes. With an access pending the host moves past exactly that one; with none the block stays as it
is (log entry 7). -/
def Obligations.EveryStepCompletes : Prop :=
  ∀ s : State, ∃ t, step s = .next t ∧
    (∀ a rest, s.host.pending = a :: rest → t.host.pending = rest ∧ t.host.position = s.host.position + 1) ∧
    (s.host.pending = [] → t = s)

/-! ## The bus -/

/-- R91, R85, R335: a word read of a mapped offset returns its value to the host's program and changes nothing else. -/
def Obligations.MappedReadHasNoSideEffect : Prop :=
  ∀ (s : State) (off : Offset) (rest : List Access) (t : Target),
    s.host.pending = Access.read .word off :: rest → targetAt s.params off = some t →
      step s = .next
        { s with
          host := { pending := rest, position := s.host.position + 1, reads := s.host.reads ++ [s.readTarget t] } }

/-- R32 to R47, R55, R83: what a word read of each register of the register page returns. No read changes the state. STATUS (R35) reads PREPARED in
bit 0, the six error bits in 13:8 and 0 in every other bit. -/
def Obligations.RegisterPageReads : Prop :=
  ∀ s : State,
    busRead .word 0x000 s = (0x56554401, s) ∧ busRead .word 0x004 s = (0, s) ∧
    busRead .word 0x00C s = (s.err.code.zeroExtend 32, s) ∧ busRead .word 0x010 s = (s.err.info, s) ∧
    busRead .word 0x020 s = (s.regs.srLo, s) ∧ busRead .word 0x024 s = (s.regs.srHi, s) ∧
    busRead .word 0x028 s = (s.regs.durLo, s) ∧ busRead .word 0x02C s = (s.regs.durHi, s) ∧
    busRead .word 0x030 s = (s.regs.densLo, s) ∧ busRead .word 0x034 s = (s.regs.densHi, s) ∧
    busRead .word 0x038 s = (s.regs.seed, s) ∧ busRead .word 0x03C s = (s.regs.maxblk, s) ∧
    busRead .word 0x040 s = (s.regs.nsamp, s) ∧ busRead .word 0x044 s = (s.regs.gain, s) ∧
    busRead .word 0x050 s = (s.regs.fGlow, s) ∧ busRead .word 0x054 s = (s.regs.fGhigh, s) ∧
    busRead .word 0x058 s = (s.regs.fFc, s) ∧ busRead .word 0x05C s = (s.regs.fSr, s) ∧
    busRead .word 0x060 s = (s.regs.fIn, s) ∧ busRead .word 0x064 s = (s.fOut, s) ∧
    busRead .word 0x080 s = (s.gen.seqlen, s) ∧ busRead .word 0x084 s = (s.gen.grid, s) ∧
    busRead .word 0x088 s = (s.gen.npulses, s) ∧ busRead .word 0x08C s = (s.gen.ringcap, s) ∧
    busRead .word 0x090 s = (s.gen.wptr, s) ∧ busRead .word 0x094 s = (s.gen.normgain, s) ∧
    busRead .word 0x098 s = (s.gen.decay.truncate 32, s) ∧
    busRead .word 0x09C s = ((s.gen.decay >>> 32).truncate 32, s) ∧
    busRead .word 0x0A0 s = (s.gen.lcgstate, s) ∧ busRead .word 0x0A4 s = (s.gen.actMaxblk, s) ∧
    busRead .word 0x0E0 s = (BitVec.ofNat 32 s.params.nfilt, s) ∧
    busRead .word 0x0E4 s = (BitVec.ofNat 32 s.params.blockMax, s) ∧
    busRead .word 0x0E8 s = (BitVec.ofNat 32 s.params.ringMax, s) ∧
    busRead .word 0x0EC s = (BitVec.ofNat 32 s.params.pulseMax, s) ∧
    (busRead .word 0x008 s).2 = s ∧
    (busRead .word 0x008 s).1.toNat = s.prepared.toNat + 2 ^ 8 * s.err.bits.toNat

/-- R82, R94, R130: what a word read of each window entry returns, on a legal instance. A table or ring entry beyond the count in use
reads 0. -/
def Obligations.WindowReads : Prop :=
  ∀ s : State, s.params.Legal →
    (∀ i, i < s.params.nfilt →
      busRead .word (BitVec.ofNat 20 (0x08000 + 32 * i)) s = ((s.filter i).b0, s) ∧
      busRead .word (BitVec.ofNat 20 (0x08000 + 32 * i + 4)) s = ((s.filter i).b1, s) ∧
      busRead .word (BitVec.ofNat 20 (0x08000 + 32 * i + 8)) s = ((s.filter i).a1, s) ∧
      busRead .word (BitVec.ofNat 20 (0x08000 + 32 * i + 12)) s = ((s.filter i).z1, s) ∧
      busRead .word (BitVec.ofNat 20 (0x08000 + 32 * i + 16)) s = ((s.filter i).zout1, s) ∧
      busRead .word (BitVec.ofNat 20 (0x08000 + 32 * i + 20)) s =
        ((if (s.filter i).configured then 1 else 0), s)) ∧
    (∀ i, i < s.params.blockMax → busRead .word (BitVec.ofNat 20 (0x10000 + 4 * i)) s = (s.inbuf i, s)) ∧
    (∀ i, i < s.params.blockMax → busRead .word (BitVec.ofNat 20 (0x20000 + 4 * i)) s = (s.outbuf i, s)) ∧
    (∀ k, k < s.params.pulseMax →
      busRead .word (BitVec.ofNat 20 (0x30000 + 4 * k)) s =
        ((if k < s.gen.npulses.toNat then s.pulseWord k else 0), s)) ∧
    (∀ k, k < s.params.pulseMax →
      busRead .word (BitVec.ofNat 20 (0x40000 + 4 * k)) s =
        ((if k < s.gen.npulses.toNat then s.env k else 0), s)) ∧
    (∀ i, i < s.params.ringMax →
      busRead .word (BitVec.ofNat 20 (0x80000 + 4 * i)) s =
        ((if i < s.gen.ringcap.toNat then s.ring i else 0), s))

/-- R82, R83, R89, R95: which offsets an access reaches nothing at. -/
def Obligations.UnmappedOffsetsExactly : Prop :=
  ∀ (p : Params) (off : Offset),
    targetAt p off = none ↔
      off.toNat % 4 ≠ 0 ∨
      (off.toNat ∉
          [0x000, 0x004, 0x008, 0x00C, 0x010, 0x020, 0x024, 0x028, 0x02C, 0x030, 0x034, 0x038, 0x03C, 0x040, 0x044,
           0x050, 0x054, 0x058, 0x05C, 0x060, 0x064, 0x080, 0x084, 0x088, 0x08C, 0x090, 0x094, 0x098, 0x09C, 0x0A0,
           0x0A4, 0x0E0, 0x0E4, 0x0E8, 0x0EC] ∧
        ¬(0x08000 ≤ off.toNat ∧ off.toNat < 0x08000 + 32 * p.nfilt ∧ off.toNat / 4 % 8 ≤ 5) ∧
        ¬(0x10000 ≤ off.toNat ∧ off.toNat < 0x10000 + 4 * p.blockMax) ∧
        ¬(0x20000 ≤ off.toNat ∧ off.toNat < 0x20000 + 4 * p.blockMax) ∧
        ¬(0x30000 ≤ off.toNat ∧ off.toNat < 0x30000 + 4 * p.pulseMax) ∧
        ¬(0x40000 ≤ off.toNat ∧ off.toNat < 0x40000 + 4 * p.pulseMax) ∧
        ¬(0x80000 ≤ off.toNat ∧ off.toNat < 0x80000 + 4 * p.ringMax))

/-- R85, R291: an access that is not a word, is misaligned or is unmapped records E_BUS with its offset; a read returns 0, and nothing
else changes. -/
def Obligations.BadAccessRecordsBusError : Prop :=
  ∀ (s : State) (size : AccessSize) (off : Offset) (v : Word),
    size ≠ .word ∨ targetAt s.params off = none →
      busRead size off s =
        (0, { s with err := { bits := s.err.bits ||| 32, code := 6, info := off.zeroExtend 32 } }) ∧
      busWrite size off v s =
        .next { s with err := { bits := s.err.bits ||| 32, code := 6, info := off.zeroExtend 32 } }

/-- R93: a word write to a read-only location is a bus error and changes nothing else. -/
def Obligations.ReadOnlyWriteIsBusError : Prop :=
  ∀ (s : State) (off : Offset) (v : Word) (t : Target),
    targetAt s.params off = some t → t ≠ .cmd → t ≠ .status → (∀ r, t ≠ .operand r) → (∀ i, t ≠ .inbuf i) →
      busWrite .word off v s =
        .next { s with err := { bits := s.err.bits ||| 32, code := 6, info := off.zeroExtend 32 } }

/-- R31: a write to an operand register stores all 32 bits unchanged, a read returns the last value written, and the write has no
side effect. -/
def Obligations.OperandWriteReadsBack : Prop :=
  ∀ (s : State) (r : OperandReg) (v : Word), ∃ t,
    busWrite .word (operandOffset r) v s = .next t ∧
    busRead .word (operandOffset r) t = (v, t) ∧
    (∀ q, q ≠ r → busRead .word (operandOffset q) t = (s.regs.get q, t)) ∧
    { t with regs := s.regs } = s

/-- R60, R85, R86: a word write to INBUF[i] stores the word; every byte outside it and all other state stays. -/
def Obligations.InbufWriteReadsBack : Prop :=
  ∀ (s : State) (i : Nat) (v : Word), s.params.Legal → i < s.params.blockMax → ∃ t,
    busWrite .word (BitVec.ofNat 20 (0x10000 + 4 * i)) v s = .next t ∧
    t.inbuf i = v ∧
    (∀ k, k < 4 → t.mem.readByte (0x10000 + 4 * i + k) = (v >>> (8 * k)).truncate 8) ∧
    (∀ a, a < 0x10000 + 4 * i ∨ 0x10000 + 4 * i + 4 ≤ a → t.mem.readByte a = s.mem.readByte a) ∧
    { t with mem := s.mem } = s

/-- R35, R294: a write to STATUS clears each error bit for which the written value has a 1 and leaves everything else, ERRCODE and ERRINFO
among it. -/
def Obligations.StatusWriteClearsErrorBits : Prop :=
  ∀ (s : State) (v : Word), ∃ t,
    busWrite .word 0x008 v s = .next t ∧
    (∀ c, c < 6 → t.err.bits.getLsbD c = (s.err.bits.getLsbD c && !v.getLsbD (8 + c))) ∧
    { t with err := { t.err with bits := s.err.bits } } = s

/-- R80: offset off stands at bus address BASE + off, and no other bus address belongs to the block. -/
def Obligations.BusAddressMapsToOffset : Prop :=
  ∀ (p : Params) (off : Offset) (addr : Nat),
    offsetOfAddress p addr = some off ↔ addr = busAddress p off

/-! ## The error record -/

/-- R285, R281: recording an error sets its own sticky bit and keeps the others, and overwrites ERRCODE and ERRINFO. -/
def Obligations.ErrorRecordLayout : Prop :=
  ∀ (c : ErrorCause) (info : Word) (e : ErrorRecord),
    (∀ j, j < 6 → (recordError c info e).bits.getLsbD j = (e.bits.getLsbD j || decide (7 + errorCode c = 8 + j))) ∧
    (recordError c info e).code.toNat = errorCode c + 2 ^ 8 * (errorSub c).toNat ∧
    (recordError c info e).info = info

/-- R16, R37, R286: a command that raises an error changes nothing but the error record, in which ERRINFO is its command word; one that
raises none leaves the record. -/
def Obligations.CommandErrorChangesOnlyRecord : Prop :=
  ∀ (i : Instr) (s t : State), exec i s = .next t →
    t.err = s.err ∨ ∃ c, t = { s with err := recordError c (encode i) s.err }

/-- R287: every command runs as if STATUS held no error bits: whatever the error record held, the rest of the next state is the same. -/
def Obligations.ErrorsNeverBlock : Prop :=
  ∀ (i : Instr) (s t : State) (e : ErrorRecord), exec i s = .next t →
    ∃ t', exec i { s with err := e } = .next t' ∧ { t' with err := t.err } = t

/-- R36, R281, R294: CODE is 0 to 6, SUB is 1 to 7 for E_CONFIG (CODE 2) and 0 for every other CODE, and a set error bit means CODE != 0.
It holds at reset, every step keeps it, and every step keeps CODE != 0. -/
def Obligations.ErrorRecordLegalKept : Prop :=
  (∀ p, ErrorRecordLegal (State.resetOf p).err) ∧
  ∀ s t : State, ErrorRecordLegal s.err → step s = .next t →
    ErrorRecordLegal t.err ∧ (s.err.codeField ≠ 0 → t.err.codeField ≠ 0)

/-! ## NOP, ER_RESET and the filter bank -/

/-- R270, R262: NOP and ER_RESET complete in every state and change nothing. -/
def Obligations.NopAndErResetDoNothing : Prop :=
  ∀ s : State, exec .nop s = .next s ∧ exec .erReset s = .next s

/-- R284, R288: a filter command whose FIDX is at least NFILT records E_FILTER and nothing else, whether or not that instance number
was ever configured. -/
def Obligations.FilterIndexRefused : Prop :=
  ∀ (s : State) (f : BitVec 8), s.params.nfilt ≤ f.toNat →
    exec (.fltSetcoef f) s =
      .next { s with err := { bits := s.err.bits ||| 16, code := 5, info := 0x03 + 0x100 * f.zeroExtend 32 } } ∧
    exec (.fltProcess f) s =
      .next { s with err := { bits := s.err.bits ||| 16, code := 5, info := 0x04 + 0x100 * f.zeroExtend 32 } } ∧
    exec (.fltReset f) s =
      .next { s with err := { bits := s.err.bits ||| 16, code := 5, info := 0x05 + 0x100 * f.zeroExtend 32 } }

/-- R230, R231: FLT_SETCOEF on an instance the block has: the flat path and the shelving design, CONFIGURED set, Z1 and ZOUT1 kept, and
nothing else changed. Where the bank has its NFILT records, FB[i] then is the new record. -/
def Obligations.FltSetcoefResult : Prop :=
  ∀ (s : State) (f : BitVec 8), f.toNat < s.params.nfilt →
    let gl := cvt64 s.regs.fGlow
    let gh := cvt64 s.regs.fGhigh
    let t := tan64 s.params.tan64 (div64 (mul64 0x400921FB54442D18 (cvt64 s.regs.fFc)) (cvt64 s.regs.fSr))
    let a1 := div64 (sub64 t 0x3FF0000000000000) (add64 t 0x3FF0000000000000)
    let p := add64 0x3FF0000000000000 a1
    let q := sub64 0x3FF0000000000000 a1
    let b0 := div64 (add64 (mul64 gl p) (mul64 gh q)) 0x4000000000000000
    let b1 := div64 (sub64 (mul64 gl p) (mul64 gh q)) 0x4000000000000000
    let g := s.filter f.toNat
    let new : Machine.Filter :=
      if lt64 (abs64 (sub64 gl gh)) 0x3EB0C6F7A0B5ED8D then
        { b0 := s.regs.fGlow, b1 := 0, a1 := 0, z1 := g.z1, zout1 := g.zout1, configured := true }
      else { b0 := cvt32 b0, b1 := cvt32 b1, a1 := cvt32 a1, z1 := g.z1, zout1 := g.zout1, configured := true }
    ∃ t, exec (.fltSetcoef f) s = .next t ∧ t = s.setFilter f.toNat new ∧
      (s.fb.length = s.params.nfilt → t.filter f.toNat = new)

/-- R232, R289: FLT_PROCESS on an instance the block has: E_NOTREADY and nothing else before FLT_SETCOEF; after it, the difference equation,
left to right in binary32, Z1, ZOUT1 and F_OUT, and nothing else. Where the bank has its NFILT records, FB[i] then is the new record. -/
def Obligations.FltProcessResult : Prop :=
  ∀ (s : State) (f : BitVec 8), f.toNat < s.params.nfilt →
    let g := s.filter f.toNat
    let y := sub32 (add32 (mul32 g.b0 s.regs.fIn) (mul32 g.b1 g.z1)) (mul32 g.a1 g.zout1)
    let new : Machine.Filter := { b0 := g.b0, b1 := g.b1, a1 := g.a1, z1 := s.regs.fIn, zout1 := y, configured := true }
    (g.configured = true →
      ∃ t, exec (.fltProcess f) s = .next t ∧ t = { s.setFilter f.toNat new with fOut := y } ∧
        (s.fb.length = s.params.nfilt → t.filter f.toNat = new)) ∧
    (g.configured = false →
      exec (.fltProcess f) s =
        .next { s with err := { bits := s.err.bits ||| 4, code := 3, info := 0x04 + 0x100 * f.zeroExtend 32 } })

/-- R234: FLT_RESET on an instance the block has zeroes its two delay registers, configured or not, and nothing else. Where the bank has
its NFILT records, FB[i] then is the new record. -/
def Obligations.FltResetResult : Prop :=
  ∀ (s : State) (f : BitVec 8), f.toNat < s.params.nfilt →
    let g := s.filter f.toNat
    let new : Machine.Filter := { b0 := g.b0, b1 := g.b1, a1 := g.a1, z1 := 0, zout1 := 0, configured := g.configured }
    ∃ t, exec (.fltReset f) s = .next t ∧ t = s.setFilter f.toNat new ∧
      (s.fb.length = s.params.nfilt → t.filter f.toNat = new)

/-- R231, R241: a filter command on instance i leaves every other instance, the tables, the ring, the buffers and the operand
registers. -/
def Obligations.FilterCommandsAreIndependent : Prop :=
  ∀ (s t : State) (f : BitVec 8) (i : Instr),
    i = .fltSetcoef f ∨ i = .fltProcess f ∨ i = .fltReset f → exec i s = .next t →
      (∀ j, j ≠ f.toNat → t.filter j = s.filter j) ∧
      t.fb.length = s.fb.length ∧ t.mem = s.mem ∧ t.gen = s.gen ∧ t.prepared = s.prepared ∧ t.regs = s.regs ∧
      (i = .fltSetcoef f → (t.filter f.toNat).z1 = (s.filter f.toNat).z1 ∧
        (t.filter f.toNat).zout1 = (s.filter f.toNat).zout1) ∧
      (i = .fltReset f → (t.filter f.toNat).configured = (s.filter f.toNat).configured ∧
        (t.filter f.toNat).b0 = (s.filter f.toNat).b0 ∧ (t.filter f.toNat).b1 = (s.filter f.toNat).b1 ∧
        (t.filter f.toNat).a1 = (s.filter f.toNat).a1)

/-- From R238, as far as R232 bears it out (log entry 19): on the flat path, while Z1 and ZOUT1 are finite, the output is mul32(B0, x); a product of
-0.0 becomes +0.0, unless Z1 is negative and ZOUT1 is not. -/
def Obligations.FlatPathIsPlainGain : Prop :=
  ∀ (g : Machine.Filter) (x : Word), g.b1 = 0 → g.a1 = 0 → isFinite32 g.z1 = true → isFinite32 g.zout1 = true →
    filterOutput g x =
      (if mul32 g.b0 x = 0x80000000 then
        (if g.z1.getLsbD 31 = true ∧ g.zout1.getLsbD 31 = false then 0x80000000 else 0x00000000)
      else mul32 g.b0 x)

/-- From R239, as far as R232 bears it out (log entry 19): a non-finite input gives a non-finite output, a non-finite ZOUT1 gives a non-finite
output whatever the input, and on the flat path that output is NaN. -/
def Obligations.NonFiniteOutputPersists : Prop :=
  ∀ (g : Machine.Filter) (x : Word),
    (isFinite32 x = false → isFinite32 (filterOutput g x) = false) ∧
    (isFinite32 g.zout1 = false → isFinite32 (filterOutput g x) = false) ∧
    (isFinite32 g.zout1 = false → g.a1 = 0 → filterOutput g x = 0x7FC00000)

/-- From R240: at fc = 0 and a finite positive sample rate, the shelving design of two finite gains, gainHigh not zero, has B0 = gainHigh,
B1 = -gainHigh and A1 = -1.0. -/
def Obligations.ZeroCrossoverIsFlatAtGainHigh : Prop :=
  ∀ gl gh sr : Word, isFinite32 gl = true → isFinite32 gh = true → lt32 0 (abs32 gh) = true →
    isFinite32 sr = true → lt32 0 sr = true → flatGains gl gh = false →
      designCoefficients .correctlyRounded gl gh 0 sr = { b0 := gh, b1 := neg32 gh, a1 := 0xBF800000 }

/-! ## The generator -/

/-- R129, R163, R165 to R173, R260, R261: GENERATE with its three operands, and PREPARE with 30.0 ms and 2000.0, when every check of R164
holds: the next state, the words of the PULSE window among it, and that nothing else changed. -/
def Obligations.GenerationResult : Prop :=
  ∀ (s : State) (i : Instr) (dur dens : DWord), s.params.Legal →
    (i = .generate ∧ dur = s.regs.durHi ++ s.regs.durLo ∧ dens = s.regs.densHi ++ s.regs.densLo) ∨
      (i = .prepare ∧ dur = 0x403E000000000000 ∧ dens = 0x409F400000000000) →
    validate s.params (s.regs.srHi ++ s.regs.srLo) dur dens s.regs.maxblk = none →
    let sr := s.regs.srHi ++ s.regs.srLo
    let L := (rha (div64 (mul64 sr dur) 0x408F400000000000)).toNat
    let G := (max 1 (rha (div64 sr dens))).toNat
    let placed := placePulses L G (L / G) 0 s.regs.seed
    let decay := div64 0xC01BA18A998FFFA1 (i2d (max 1 L : Nat))
    let env := placed.1.map fun p => cvt32 (exp64 s.params.exp64 (mul64 decay (i2d p.pos.toNat)))
    let sum := env.foldl (fun (acc : DWord) e => add64 acc (mul64 (cvt64 e) (cvt64 e))) 0x0000000000000000
    let norm : Word :=
      if lt64 sum 0x3D719799812DEA11 then 0x3F800000 else cvt32 (div64 0x3FF0000000000000 (sqrt64 sum))
    ∃ t, exec i s = .next t ∧
      t.gen.seqlen.toNat = L ∧ t.gen.grid.toNat = G ∧ t.gen.npulses.toNat = placed.1.length ∧
      t.gen.ringcap.toNat = L + 256 ∧ t.gen.wptr = 0 ∧ t.gen.normgain = norm ∧ t.gen.decay = decay ∧
      t.gen.lcgstate = placed.2 ∧ t.gen.actMaxblk = s.regs.maxblk ∧ t.prepared = true ∧
      (List.range placed.1.length).map (fun m => (t.pulseWord m).toNat) =
        placed.1.map (fun p => (if p.neg then 2 ^ 31 else 0) + p.pos.toNat) ∧
      (List.range placed.1.length).map t.pulse = placed.1 ∧ (List.range placed.1.length).map t.env = env ∧
      (∀ j, j < L + 256 → t.ring j = 0) ∧
      (∀ a, (a < 0x30000 ∨ 0x30000 + 4 * placed.1.length ≤ a) → (a < 0x40000 ∨ 0x40000 + 4 * placed.1.length ≤ a) →
        (a < 0x80000 ∨ 0x80000 + 4 * (L + 256) ≤ a) → t.mem.readByte a = s.mem.readByte a) ∧
      t.params = s.params ∧ t.regs = s.regs ∧ t.err = s.err ∧ t.fOut = s.fOut ∧ t.fb = s.fb ∧ t.host = s.host

/-- R164, R174, R283: at the first of the seven checks that fails, GENERATE and PREPARE record E_CONFIG with the check's number as SUB,
and change nothing else. -/
def Obligations.GenerationRefused : Prop :=
  ∀ (s : State) (i : Instr) (dur dens : DWord),
    (i = .generate ∧ dur = s.regs.durHi ++ s.regs.durLo ∧ dens = s.regs.densHi ++ s.regs.densLo) ∨
      (i = .prepare ∧ dur = 0x403E000000000000 ∧ dens = 0x409F400000000000) →
    let sr := s.regs.srHi ++ s.regs.srLo
    let Lr := div64 (mul64 sr dur) 0x408F400000000000
    let Gr := div64 sr dens
    let c1 := isFinite64 sr = true ∧ gt64 sr 0 = true
    let c2 := isFinite64 dur = true ∧ gt64 dur 0 = true
    let c3 := isFinite64 dens = true ∧ gt64 dens 0 = true
    let c4 := 1 ≤ s.regs.maxblk.toNat ∧ s.regs.maxblk.toNat ≤ s.params.blockMax
    let c5 := isFinite64 Lr = true ∧ rha Lr ≤ (s.params.ringMax : Int) - 256
    let c6 := isFinite64 Gr = true ∧ rha Gr ≤ 2 ^ 31 - 1
    let c7 := (rha Lr).toNat / (max 1 (rha Gr)).toNat ≤ s.params.pulseMax
    ∀ n : BitVec 8,
      (n = 1 ∧ ¬c1) ∨ (n = 2 ∧ c1 ∧ ¬c2) ∨ (n = 3 ∧ c1 ∧ c2 ∧ ¬c3) ∨ (n = 4 ∧ c1 ∧ c2 ∧ c3 ∧ ¬c4) ∨
        (n = 5 ∧ c1 ∧ c2 ∧ c3 ∧ c4 ∧ ¬c5) ∨ (n = 6 ∧ c1 ∧ c2 ∧ c3 ∧ c4 ∧ c5 ∧ ¬c6) ∨
        (n = 7 ∧ c1 ∧ c2 ∧ c3 ∧ c4 ∧ c5 ∧ c6 ∧ ¬c7) →
      exec i s = .next
        { s with err := { bits := s.err.bits ||| 2, code := n ++ (2 : BitVec 8), info := encode i } }

/-- R175, R176, R177, R167: after a successful generation NPULSES = SEQLEN div GRID, pulse m lies in cell m and below SEQLEN, and the positions
are strictly increasing. -/
def Obligations.PulsesLieInTheirCells : Prop :=
  ∀ (s t : State) (i : Instr), s.params.Legal → GenerationAccepted s i → exec i s = .next t →
    t.gen.npulses.toNat = t.gen.seqlen.toNat / t.gen.grid.toNat ∧
    (∀ m, m < t.gen.npulses.toNat →
      m * t.gen.grid.toNat ≤ (t.pulse m).pos.toNat ∧ (t.pulse m).pos.toNat < (m + 1) * t.gen.grid.toNat ∧
      (t.pulse m).pos.toNat < t.gen.seqlen.toNat) ∧
    (∀ m, m + 1 < t.gen.npulses.toNat → (t.pulse m).pos.toNat < (t.pulse (m + 1)).pos.toNat)

/-- R160, R161, R162, R183: pulse m takes its jitter from draw 2m + 1 and its sign from bit 31 of draw 2m + 2, and LCGSTATE is the state after
2 * NPULSES draws. -/
def Obligations.PulsesComeFromTheirDraws : Prop :=
  ∀ (s t : State) (i : Instr), s.params.Legal → GenerationAccepted s i → exec i s = .next t →
    (∀ m, m < t.gen.npulses.toNat →
      (t.pulse m).pos.toNat = m * t.gen.grid.toNat + (lcgIter (2 * m + 1) s.regs.seed).toNat % t.gen.grid.toNat ∧
      (t.pulse m).neg = (lcgIter (2 * m + 2) s.regs.seed).getLsbD 31) ∧
    t.gen.lcgstate = lcgIter (2 * t.gen.npulses.toNat) s.regs.seed

/-- R178: when GRID is even, every jitter has the low bit SEED[0] xor 1. -/
def Obligations.JitterParity : Prop :=
  ∀ (s t : State) (i : Instr), s.params.Legal → GenerationAccepted s i → exec i s = .next t →
    t.gen.grid.toNat % 2 = 0 → ∀ m, m < t.gen.npulses.toNat →
      ((t.pulse m).pos.toNat - m * t.gen.grid.toNat) % 2 = 1 - s.regs.seed.toNat % 2

/-- R181: a generation is a function of SR, DUR, DENS, SEED, MAXBLK and the instance: two states that agree on them, whatever else they
hold, end with the same result registers and tables. -/
def Obligations.GenerationIsDeterministic : Prop :=
  ∀ (s s' t : State) (i : Instr), s.params.Legal → GenerationAccepted s i → s'.params = s.params →
    s'.regs.srLo = s.regs.srLo → s'.regs.srHi = s.regs.srHi → s'.regs.durLo = s.regs.durLo → s'.regs.durHi = s.regs.durHi →
    s'.regs.densLo = s.regs.densLo → s'.regs.densHi = s.regs.densHi → s'.regs.seed = s.regs.seed →
    s'.regs.maxblk = s.regs.maxblk → exec i s = .next t →
    ∃ t', exec i s' = .next t' ∧ t'.gen = t.gen ∧ t'.prepared = true ∧
      (∀ k, k < t.gen.npulses.toNat → t'.pulse k = t.pulse k ∧ t'.env k = t.env k) ∧
      (∀ j, j < t.gen.ringcap.toNat → t'.ring j = t.ring j)

/-- R163, R172, R183: the case of no pulses (SEQLEN < GRID): NPULSES = 0, NORMGAIN = 1.0 and LCGSTATE = SEED. -/
def Obligations.NoPulsesUnitGain : Prop :=
  ∀ (s t : State) (i : Instr), s.params.Legal → GenerationAccepted s i → exec i s = .next t →
    t.gen.seqlen.toNat < t.gen.grid.toNat →
      t.gen.npulses = 0 ∧ t.gen.normgain = 0x3F800000 ∧ t.gen.lcgstate = s.regs.seed

/-- From R179: the envelope of position 0 is 1.0, whatever the sequence length. That e^0 is 1.0 for an EXP64 bound to a math library too is
the model's choice (log entry 2), not R179's. -/
def Obligations.EnvelopeAtZeroIsOne : Prop :=
  ∀ (src : MathSource) (L : Nat), envelope src (decayRate L) 0 = 0x3F800000

/-! ## The convolver -/

/-- R201, R288: CONVOLVE before any generation records E_NOTREADY, and with NSAMP > ACT_MAXBLK on a prepared block E_BLOCK; nothing else
changes. -/
def Obligations.ConvolveRefused : Prop :=
  ∀ s : State,
    (s.prepared = false →
      exec .convolve s = .next { s with err := { bits := s.err.bits ||| 4, code := 3, info := 2 } }) ∧
    (s.prepared = true → s.gen.actMaxblk.toNat < s.regs.nsamp.toNat →
      exec .convolve s = .next { s with err := { bits := s.err.bits ||| 8, code := 4, info := 2 } })

/-- R200, R202 to R207, R216: an accepted CONVOLVE on a state of the invariant: what it leaves in RING, OUTBUF and WPTR, and that every
other byte and all other state stays. C is RINGCAP and may be less than N. -/
def Obligations.ConvolveResult : Prop :=
  ∀ s : State, s.Inv → s.prepared = true → s.regs.nsamp.toNat ≤ s.gen.actMaxblk.toNat →
    let N := s.regs.nsamp.toNat
    let C := s.gen.ringcap.toNat
    let wp0 := s.gen.wptr.toNat
    ∃ t, exec .convolve s = .next t ∧
      (∀ n, n < N → (∀ n', n < n' → n' < N → (wp0 + n') % C ≠ (wp0 + n) % C) →
        t.ring ((wp0 + n) % C) = s.inbuf n) ∧
      (∀ j, j < C → (∀ n, n < N → (wp0 + n) % C ≠ j) → t.ring j = s.ring j) ∧
      (∀ n, n < N → t.outbuf n =
        (List.range s.gen.npulses.toNat).foldl
          (fun acc k =>
            let sgn : Word := if (s.pulse k).neg then 0xBF800000 else 0x3F800000
            let c := mul32 (mul32 (mul32 sgn s.regs.gain) (s.env k)) s.gen.normgain
            if lt32 (abs32 c) 0x2EDBE6FF then acc
            else add32 acc (mul32 c (t.ring ((((wp0 + n : Nat) : Int) - (s.pulse k).pos.toNat) % C).toNat)))
          0x00000000) ∧
      t.gen = { s.gen with wptr := BitVec.ofNat 32 ((wp0 + N) % C) } ∧
      (∀ a, (a < 0x20000 ∨ 0x20000 + 4 * N ≤ a) → (a < 0x80000 ∨ 0x80000 + 4 * C ≤ a) →
        t.mem.readByte a = s.mem.readByte a) ∧
      t.params = s.params ∧ t.regs = s.regs ∧ t.prepared = s.prepared ∧ t.err = s.err ∧ t.fOut = s.fOut ∧
      t.fb = s.fb ∧ t.host = s.host

/-- R209: on a block with N <= RINGCAP - maxpos, where the ring holds the stream x of every sample since the last generation, CONVOLVE's output
is the sparse FIR response of the whole stream, and the ring then holds the longer stream. -/
def Obligations.ConvolveIsExactFir : Prop :=
  ∀ (s : State) (x : List Word), s.Inv → s.prepared = true → s.regs.nsamp.toNat ≤ s.gen.actMaxblk.toNat →
    HoldsHistory s x → ExactBlock s s.regs.nsamp.toNat →
    ∃ t, exec .convolve s = .next t ∧
      HoldsHistory t (x ++ s.inputs s.regs.nsamp.toNat) ∧
      ∀ n, n < s.regs.nsamp.toNat →
        t.outbuf n = s.firOutput (x ++ s.inputs s.regs.nsamp.toNat) ((x.length : Int) + n)

/-- R173, R329: after a successful generation the ring holds the empty stream: the next block's output is that of a fresh stream. -/
def Obligations.GenerationStartsFreshStream : Prop :=
  ∀ (s t : State) (i : Instr), s.params.Legal → GenerationAccepted s i → exec i s = .next t →
    HoldsHistory t []

/-- R210: one block of a + b samples, and the same samples in two consecutive blocks with the second part written to INBUF in between, give the
same outputs, ring and write pointer. -/
def Obligations.BlockBoundaryIndependence : Prop :=
  ∀ (s t t1 t2 : State) (m : Memory) (a b : Nat), s.Inv → s.prepared = true →
    s.regs.nsamp.toNat = a + b → a + b ≤ s.gen.actMaxblk.toNat → ExactBlock s (a + b) →
    exec .convolve s = .next t →
    exec .convolve { s with regs := { s.regs with nsamp := BitVec.ofNat 32 a } } = .next t1 →
    (∀ n, n < b → m.readWord (inbufAddr n) = s.inbuf (a + n)) →
    (∀ o, 0x30000 ≤ o → m.readByte o = t1.mem.readByte o) →
    exec .convolve { t1 with mem := m, regs := { t1.regs with nsamp := BitVec.ofNat 32 b } } = .next t2 →
      (∀ n, n < a → t1.outbuf n = t.outbuf n) ∧ (∀ n, n < b → t2.outbuf n = t.outbuf (a + n)) ∧
      (∀ j, j < s.gen.ringcap.toNat → t2.ring j = t.ring j) ∧ t2.gen.wptr = t.gen.wptr

/-- R208: a block of no samples is accepted and changes nothing. -/
def Obligations.EmptyBlockChangesNothing : Prop :=
  ∀ s : State, s.prepared = true → s.gen.wptr.toNat < s.gen.ringcap.toNat → s.regs.nsamp = 0 →
    exec .convolve s = .next s

/-- From R211, R214: when every coefficient is finite and every input sample and ring slot holds +0.0 or -0.0, every output is +0.0; with no pulses,
whatever the samples. -/
def Obligations.SilenceInSilenceOut : Prop :=
  ∀ s t : State, s.Inv → s.prepared = true → s.regs.nsamp.toNat ≤ s.gen.actMaxblk.toNat → exec .convolve s = .next t →
    (s.gen.npulses = 0 ∨
      ((∀ k, k < s.gen.npulses.toNat → isFinite32 (s.pulseCoeff k) = true) ∧
        (∀ n, n < s.regs.nsamp.toNat → abs32 (s.inbuf n) = 0) ∧
        (∀ j, j < s.gen.ringcap.toNat → abs32 (s.ring j) = 0))) →
      ∀ n, n < s.regs.nsamp.toNat → t.outbuf n = 0

/-- From R213: with GAIN = ±0 (and finite tables) every output is +0.0; with a NaN GAIN and at least one pulse every output is NaN. -/
def Obligations.ZeroAndNanGain : Prop :=
  ∀ s t : State, s.Inv → s.prepared = true → s.regs.nsamp.toNat ≤ s.gen.actMaxblk.toNat → exec .convolve s = .next t →
    (abs32 s.regs.gain = 0 → isFinite32 s.gen.normgain = true →
      (∀ k, k < s.gen.npulses.toNat → isFinite32 (s.env k) = true) →
        ∀ n, n < s.regs.nsamp.toNat → t.outbuf n = 0) ∧
    (val32 s.regs.gain = .nan → s.gen.npulses ≠ 0 →
      ∀ n, n < s.regs.nsamp.toNat → t.outbuf n = 0x7FC00000)

/-- R204: the binary32 cull test equals an exact comparison of |c| with the real number 1e-10; a NaN is not culled. -/
def Obligations.CullTestIsExact : Prop :=
  ∀ c : Word, culled c = true ↔ isFinite32 c = true ∧ |(val32 c).toRat| < 1 / 10 ^ 10

/-! ## Rules of the whole machine -/

/-- R30, R55, R35, R63: no step changes the instance parameters, so every capability register reads the same ever after; PREPARED, once set, stays
set at every step, and it is set only by a CMD write of GENERATE or PREPARE. -/
def Obligations.InstanceFixedAndPreparedSticky : Prop :=
  ∀ s t : State, step s = .next t →
    t.params = s.params ∧
    (s.prepared = true → t.prepared = true) ∧
    (s.prepared = false → t.prepared = true →
      ∃ rest, s.host.pending = Access.write .word 0x004 0x00000001 :: rest ∨
        s.host.pending = Access.write .word 0x004 0x00000006 :: rest)

/-- R31, R60: no command writes an operand register or INBUF. -/
def Obligations.CommandsKeepOperandsAndInput : Prop :=
  ∀ (i : Instr) (s t : State), s.Inv → exec i s = .next t →
    t.regs = s.regs ∧ ∀ n, n < s.params.blockMax → t.inbuf n = s.inbuf n

/-- R56, R57, R264: the pulse and envelope tables change only under a CMD write of GENERATE or PREPARE. -/
def Obligations.TablesChangeOnlyByGeneration : Prop :=
  ∀ s t : State, s.Inv → step s = .next t →
    (∃ rest, s.host.pending = Access.write .word 0x004 0x00000001 :: rest ∨
      s.host.pending = Access.write .word 0x004 0x00000006 :: rest) ∨
    (t.gen.npulses = s.gen.npulses ∧ t.gen.seqlen = s.gen.seqlen ∧ t.gen.grid = s.gen.grid ∧
      ∀ k, k < s.params.pulseMax → t.pulseWord k = s.pulseWord k ∧ t.env k = s.env k)

/-- R59, R241: the filter bank changes only under a CMD write of a filter command, and only in the instance it names. -/
def Obligations.FilterBankChangesOnlyByFilterCommands : Prop :=
  ∀ s t : State, step s = .next t → ∀ j, t.filter j ≠ s.filter j →
    ∃ rest w, s.host.pending = Access.write .word 0x004 w :: rest ∧ w.toNat / 2 ^ 8 = j ∧
      (w.toNat % 2 ^ 8 = 3 ∨ w.toNat % 2 ^ 8 = 4 ∨ w.toNat % 2 ^ 8 = 5)

/-- R320, R321: the reset state of every legal instance, as its registers and windows read. The sample buffers are open and not stated. -/
def Obligations.ResetState : Prop :=
  ∀ p : Params, p.Legal →
    let s := State.resetOf p
    s.statusWord = 0 ∧ s.err.code = 0 ∧ s.err.info = 0 ∧ (∀ r, s.regs.get r = 0) ∧ s.fOut = 0 ∧
    s.gen.seqlen = 0 ∧ s.gen.grid = 0 ∧ s.gen.npulses = 0 ∧ s.gen.ringcap = 0 ∧ s.gen.wptr = 0 ∧
    s.gen.normgain = 0 ∧ s.gen.decay = 0 ∧ s.gen.lcgstate = 0 ∧ s.gen.actMaxblk = 0 ∧
    (∀ k, s.readTarget (.pulse k) = 0) ∧ (∀ k, s.readTarget (.env k) = 0) ∧ (∀ j, s.readTarget (.ring j) = 0) ∧
    (∀ i, i < p.nfilt → ∀ j, j ≤ 5 → s.fbankWord i j = 0) ∧ s.params = p

/-- R65 at reset: the invariant holds in the reset state of every legal instance, the recommended one among them. -/
def Obligations.InvariantAtReset : Prop :=
  (∀ p : Params, p.Legal → (State.resetOf p).Inv) ∧ State.reset.Inv

/-- R65: every step keeps the invariant: a legal instance, one record per filter, canonical memory, and the relations of R65 between SEQLEN,
GRID, NPULSES, RINGCAP, WPTR, ACT_MAXBLK and the pulse positions. -/
def Obligations.InvariantKeptByStep : Prop :=
  ∀ s t : State, s.Inv → step s = .next t → t.Inv

/-! ## Arithmetic -/

/-- R18, R19: rounding an exact value to binary32 or binary64 gives the nearest value of the format, ties to even; overflow gives
infinity. -/
def Obligations.RoundingIsNearestEven : Prop :=
  ∀ (m : Nat) (e : Int),
    NearestMag binary32 ((m : ℝ) * 2 ^ e) (binary32.roundMag m e) ∧
    NearestMag binary64 ((m : ℝ) * 2 ^ e) (binary64.roundMag m e)

/-- R18, R19, R23: div64 of two finite values, the divisor not zero, and sqrt64 of a finite value that is not negative, are the exact quotient and
root rounded once; the quotient's sign is the product of the signs, and the root of a value above zero has sign bit 0. -/
def Obligations.QuotientAndRootAreCorrectlyRounded : Prop :=
  (∀ a b : DWord, isFinite64 a = true → isFinite64 b = true → (val64 b).toRat ≠ 0 →
    NearestMag binary64 |(((val64 a).toRat / (val64 b).toRat : ℚ) : ℝ)| ((div64 a b).toNat % 2 ^ 63) ∧
    (div64 a b).getLsbD 63 = (a.getLsbD 63 != b.getLsbD 63)) ∧
  (∀ a : DWord, isFinite64 a = true → 0 ≤ (val64 a).toRat →
    NearestMag binary64 (Real.sqrt ((val64 a).toRat : ℝ)) ((sqrt64 a).toNat % 2 ^ 63) ∧
    (0 < (val64 a).toRat → (sqrt64 a).getLsbD 63 = false))

/-- R18, R19: add32, sub32 and mul32 of finite values are the exact sum, difference and product rounded once, with the sign of the
exact value where it is not zero. -/
def Obligations.SumAndProductAreCorrectlyRounded : Prop :=
  ∀ a b : Word, isFinite32 a = true → isFinite32 b = true →
    let x := (val32 a).toRat
    let y := (val32 b).toRat
    (NearestMag binary32 |((x + y : ℚ) : ℝ)| ((add32 a b).toNat % 2 ^ 31) ∧
      (x + y ≠ 0 → ((add32 a b).getLsbD 31 = true ↔ x + y < 0))) ∧
    (NearestMag binary32 |((x - y : ℚ) : ℝ)| ((sub32 a b).toNat % 2 ^ 31) ∧
      (x - y ≠ 0 → ((sub32 a b).getLsbD 31 = true ↔ x - y < 0))) ∧
    (NearestMag binary32 |((x * y : ℚ) : ℝ)| ((mul32 a b).toNat % 2 ^ 31) ∧
      (x * y ≠ 0 → ((mul32 a b).getLsbD 31 = true ↔ x * y < 0)))

/-- R20: a NaN that a rounded operation returns is the canonical one. -/
def Obligations.NanResultsAreCanonical : Prop :=
  ∀ v : FloatVal,
    (val32 (round32 v) = .nan → round32 v = 0x7FC00000) ∧
    (val64 (round64 v) = .nan → round64 v = 0x7FF8000000000000)

/-- R21: rha of a finite value is a nearest integer, and at a half the one farther from zero. -/
def Obligations.RhaRoundsHalvesAway : Prop :=
  ∀ a : DWord, isFinite64 a = true →
    |((rha a : ℚ) - (val64 a).toRat)| ≤ 1 / 2 ∧
    (|((rha a : ℚ) - (val64 a).toRat)| = 1 / 2 → |(val64 a).toRat| < |(rha a : ℚ)|)

/-- R24: exp64 of every finite value is the binary64 value nearest to e^v; that of -infinity is +0.0, of +infinity +infinity, of
a NaN a NaN. -/
def Obligations.ExpIsCorrectlyRounded : Prop :=
  ∀ v : DWord,
    (isFinite64 v = true →
      NearestMag binary64 (Real.exp ((val64 v).toRat : ℝ)) (exp64 .correctlyRounded v).toNat) ∧
    (val64 v = .inf true → exp64 .correctlyRounded v = 0x0000000000000000) ∧
    (val64 v = .inf false → exp64 .correctlyRounded v = 0x7FF0000000000000) ∧
    (val64 v = .nan → val64 (exp64 .correctlyRounded v) = .nan)

/-- R24: tan64 of every finite value is the binary64 value nearest to tan v, with its sign where v is not zero; that of an infinity
or a NaN is a NaN. -/
def Obligations.TanIsCorrectlyRounded : Prop :=
  ∀ v : DWord,
    (isFinite64 v = true →
      NearestMag binary64 |Real.tan ((val64 v).toRat : ℝ)| ((tan64 .correctlyRounded v).toNat % 2 ^ 63) ∧
      ((val64 v).toRat ≠ 0 →
        ((tan64 .correctlyRounded v).getLsbD 63 = true ↔ Real.tan ((val64 v).toRat : ℝ) < 0))) ∧
    (isFinite64 v = false → val64 (tan64 .correctlyRounded v) = .nan)
end

