-- ==== Sys2Proof/Laws/Rounding.lean ====
section
/-! SUPPORT. Rounding: the values of the magnitude patterns of a format, and that a significand within half a unit of a value gives the
nearest pattern (spec/00_scope.md R18). -/

namespace Sys2Proof.Machine

/-- The formats the lemmas speak of: at least two significand bits and two exponent bits. -/
structure FloatFormat.Wide (f : FloatFormat) : Prop where
  prec : 2 ≤ f.prec
  ebits : 2 ≤ f.ebits

theorem binary32_wide : binary32.Wide := ⟨by decide, by decide⟩
theorem binary64_wide : binary64.Wide := ⟨by decide, by decide⟩

/-! ### The value of a magnitude pattern -/

/-- How far above minExp the last place of a pattern stands. -/
def FloatFormat.magExp (f : FloatFormat) (z : Nat) : Nat := z / f.expUnit - 1

/-- The significand of a pattern. -/
def FloatFormat.magSig (f : FloatFormat) (z : Nat) : Nat := z - f.magExp z * f.expUnit

/-- The value of a magnitude pattern; it goes on past the largest finite one, as if there were no infinity. -/
noncomputable def FloatFormat.magVal (f : FloatFormat) (z : Nat) : ℝ :=
  (f.magSig z : ℝ) * 2 ^ (f.minExp + f.magExp z)

theorem FloatFormat.expUnit_pos (f : FloatFormat) : 0 < f.expUnit := Nat.two_pow_pos _

theorem FloatFormat.magExp_mul_le (f : FloatFormat) (z : Nat) : f.magExp z * f.expUnit ≤ z :=
  le_trans (Nat.mul_le_mul_right _ (Nat.sub_le _ _)) (Nat.div_mul_le_self z f.expUnit)

theorem FloatFormat.mag_parts (f : FloatFormat) (z : Nat) : z = f.magExp z * f.expUnit + f.magSig z := by
  have := f.magExp_mul_le z
  unfold FloatFormat.magSig
  omega

theorem FloatFormat.magSig_lt (f : FloatFormat) (z : Nat) : f.magSig z < 2 * f.expUnit := by
  have h1 := Nat.lt_div_mul_add (a := z) f.expUnit_pos
  have h2 := f.mag_parts z
  have h3 : z / f.expUnit * f.expUnit ≤ f.magExp z * f.expUnit + f.expUnit := by
    have : z / f.expUnit ≤ f.magExp z + 1 := by unfold FloatFormat.magExp; omega
    calc z / f.expUnit * f.expUnit ≤ (f.magExp z + 1) * f.expUnit := Nat.mul_le_mul_right _ this
      _ = _ := by ring
  omega

theorem FloatFormat.magSig_ge (f : FloatFormat) (z : Nat) : f.magExp z = 0 ∨ f.expUnit ≤ f.magSig z := by
  by_cases h : f.magExp z = 0
  · exact .inl h
  · right
    have h1 : z / f.expUnit = f.magExp z + 1 := by unfold FloatFormat.magExp at *; omega
    have h2 := Nat.div_mul_le_self z f.expUnit
    rw [h1] at h2
    have h3 := f.mag_parts z
    have : (f.magExp z + 1) * f.expUnit = f.magExp z * f.expUnit + f.expUnit := by ring
    omega

/-- The value of a pattern put together from an exponent and a significand; a significand of 2^prec is the carry. -/
theorem FloatFormat.magVal_parts (f : FloatFormat) {k sig : Nat} (h : sig ≤ 2 * f.expUnit)
    (hk : k = 0 ∨ f.expUnit ≤ sig) :
    f.magVal (k * f.expUnit + sig) = (sig : ℝ) * 2 ^ (f.minExp + k) := by
  have hU := f.expUnit_pos
  have key : ∀ k' sig' : Nat, k * f.expUnit + sig = k' * f.expUnit + sig' →
      (k * f.expUnit + sig) / f.expUnit - 1 = k' →
      f.magVal (k * f.expUnit + sig) = (sig' : ℝ) * 2 ^ (f.minExp + k') := by
    intro k' sig' h1 h2
    have h3 : f.magExp (k * f.expUnit + sig) = k' := h2
    have h4 : f.magSig (k * f.expUnit + sig) = sig' := by unfold FloatFormat.magSig; rw [h3]; omega
    unfold FloatFormat.magVal
    rw [h3, h4]
  have hdiv : (k * f.expUnit + sig) / f.expUnit = k + sig / f.expUnit := by
    rw [mul_comm, Nat.mul_add_div hU]
  rcases Nat.lt_or_ge sig (2 * f.expUnit) with hlt | hge
  · apply key k sig rfl
    rw [hdiv]
    rcases hk with rfl | hk
    · have : sig / f.expUnit < 2 := (Nat.div_lt_iff_lt_mul hU).2 hlt
      omega
    · have : sig / f.expUnit = 1 := Nat.div_eq_of_lt_le (by omega) (by omega)
      omega
  · have hs : sig = 2 * f.expUnit := le_antisymm h hge
    have h2 : sig / f.expUnit = 2 := by rw [hs, Nat.mul_div_cancel _ hU]
    rw [key (k + 1) f.expUnit (by rw [hs]; ring) (by rw [hdiv, h2]; omega), hs]
    push_cast
    rw [← add_assoc, zpow_add_one₀ (by norm_num : (2 : ℝ) ≠ 0)]
    ring

theorem FloatFormat.magVal_strictMono (f : FloatFormat) : StrictMono f.magVal := by
  apply strictMono_nat_of_lt_succ
  intro z
  have h1 : f.magVal (z + 1) = ((f.magSig z + 1 : Nat) : ℝ) * 2 ^ (f.minExp + f.magExp z) := by
    rw [← f.magVal_parts (k := f.magExp z) (sig := f.magSig z + 1) (f.magSig_lt z)
      ((f.magSig_ge z).imp id fun h => by omega)]
    congr 1
    have := f.mag_parts z
    omega
  rw [h1]
  unfold FloatFormat.magVal
  have : (0 : ℝ) < 2 ^ (f.minExp + f.magExp z) := by positivity
  push_cast
  nlinarith

/-- The value the format gives a finite magnitude pattern. -/
theorem FloatFormat.value_eq_magVal (f : FloatFormat) {z : Nat} (hz : z < f.infBits) :
    (f.value z : ℝ) = f.magVal z := by
  have hU := f.expUnit_pos
  have hex : z / f.expUnit < f.expMask := (Nat.div_lt_iff_lt_mul hU).2 hz
  have hmod : z / f.expUnit % 2 ^ f.ebits = z / f.expUnit := by
    exact Nat.mod_eq_of_lt (lt_of_lt_of_le hex (Nat.sub_le _ _))
  have hsign : z / f.signUnit = 0 := by
    apply Nat.div_eq_of_lt
    calc z < f.expMask * f.expUnit := hz
      _ ≤ 2 ^ f.ebits * f.expUnit := Nat.mul_le_mul_right _ (Nat.sub_le _ _)
      _ = f.signUnit := by unfold FloatFormat.signUnit FloatFormat.expUnit; rw [pow_add]; ring
  have hparts := Nat.div_add_mod z f.expUnit
  unfold FloatFormat.value FloatFormat.unpack
  simp only [hmod, hsign, if_neg (Nat.ne_of_lt hex)]
  split
  · rename_i h0
    simp only [FloatVal.toRat]
    have h1 : f.magExp z = 0 := by unfold FloatFormat.magExp; omega
    have h2 : f.magSig z = z % f.expUnit := by unfold FloatFormat.magSig; rw [h1]; rw [h0] at hparts; omega
    unfold FloatFormat.magVal
    rw [h1, h2]
    simp
  · rename_i h0
    simp only [FloatVal.toRat]
    have h1 : f.magExp z = z / f.expUnit - 1 := rfl
    have h2 : f.magSig z = z % f.expUnit + f.expUnit := by
      unfold FloatFormat.magSig
      rw [h1]
      obtain ⟨e, he⟩ : ∃ e, z / f.expUnit = e + 1 := ⟨z / f.expUnit - 1, by omega⟩
      rw [he] at hparts ⊢
      have : f.expUnit * (e + 1) = e * f.expUnit + f.expUnit := by ring
      simp only [Nat.add_sub_cancel]
      omega
    unfold FloatFormat.magVal
    rw [h1, h2]
    push_cast
    simp

/-! ### The nearest significand -/

/-- An integer within half a unit of r, even where it is exactly half a unit away. -/
structure NearestInt (r : ℝ) (n : Nat) : Prop where
  close : |(n : ℝ) - r| ≤ 1 / 2
  tie : |(n : ℝ) - r| = 1 / 2 → n % 2 = 0

theorem NearestInt.le_of_ne {r : ℝ} {n : Nat} (h : NearestInt r n) (j : ℤ) (hj : j ≠ n) :
    1 / 2 ≤ |(j : ℝ) - r| := by
  have h1 : (1 : ℝ) ≤ |((j : ℝ) - n)| := by
    have : (1 : ℤ) ≤ |j - n| := Int.one_le_abs (sub_ne_zero.2 hj)
    exact_mod_cast this
  have h2 : |(j : ℝ) - n| ≤ |(j : ℝ) - r| + |(n : ℝ) - r| := by
    rw [abs_sub_comm (n : ℝ) r]
    exact abs_sub_le _ _ _
  have := h.close
  linarith

/-- No integer is nearer. -/
theorem NearestInt.nearest {r : ℝ} {n : Nat} (h : NearestInt r n) (j : ℤ) : |(n : ℝ) - r| ≤ |(j : ℝ) - r| := by
  by_cases hj : j = n
  · simp [hj]
  · exact le_trans h.close (h.le_of_ne j hj)

theorem NearestInt.even_of_eq {r : ℝ} {n : Nat} (h : NearestInt r n) (j : ℤ) (hj : j ≠ n)
    (heq : |(n : ℝ) - r| = |(j : ℝ) - r|) : n % 2 = 0 :=
  h.tie (le_antisymm h.close (heq ▸ h.le_of_ne j hj))

/-- What `shiftToNearest` computes: the nearest integer, ties to even. -/
theorem nearestInt_shiftToNearest (m : Nat) (sh : Int) :
    NearestInt ((m : ℝ) * 2 ^ (-sh)) (shiftToNearest m sh) := by
  unfold shiftToNearest
  split
  · rename_i h
    have : ((m * 2 ^ (-sh).toNat : Nat) : ℝ) = (m : ℝ) * 2 ^ (-sh) := by
      push_cast
      congr 1
      rw [← zpow_natCast, Int.toNat_of_nonneg (by omega)]
    rw [← this]
    exact ⟨by simp, by norm_num⟩
  · rename_i h
    obtain ⟨n, rfl⟩ : ∃ n : Nat, sh = n := ⟨sh.toNat, (Int.toNat_of_nonneg (by omega)).symm⟩
    simp only [Int.toNat_natCast]
    have hd : 0 < 2 ^ n := Nat.two_pow_pos n
    have hdr : (0 : ℝ) < 2 ^ n := by positivity
    have hdiv := Nat.div_add_mod m (2 ^ n)
    have hmod := Nat.mod_lt m hd
    set d := 2 ^ n with hdd
    set q := m / d
    set r := m % d
    have hval : (m : ℝ) * 2 ^ (-(n : ℤ)) = q + r / d := by
      rw [← hdiv, hdd]
      push_cast
      rw [zpow_neg, zpow_natCast]
      field_simp
    rw [hval]
    have hdr' : (0 : ℝ) < d := by exact_mod_cast hd
    have hr0 : (0 : ℝ) ≤ (r : ℝ) / d := by positivity
    split
    · rename_i h2
      have h2' : (d : ℝ) < 2 * r := by exact_mod_cast h2
      have h3 : (1 : ℝ) / 2 < r / d := by rw [lt_div_iff₀ hdr']; linarith
      have h4 : (r : ℝ) / d < 1 := by rw [div_lt_one hdr']; exact_mod_cast hmod
      have habs : |(((q + 1 : Nat) : ℝ) - (q + r / d))| = 1 - r / d := by
        push_cast
        rw [abs_of_nonneg (by linarith)]
        ring
      exact ⟨by rw [habs]; linarith, fun h => by rw [habs] at h; linarith⟩
    · split
      · rename_i h2 h3
        have h3' : (r : ℝ) / d = 1 / 2 := by
          rw [div_eq_div_iff hdr'.ne' (by norm_num)]
          have : (d : ℝ) = 2 * r := by exact_mod_cast h3
          linarith
        rw [h3']
        have hq : (q % 2 : Nat) = 0 ∨ (q % 2 : Nat) = 1 := by omega
        rcases hq with hq | hq <;> rw [hq] <;> constructor <;> push_cast
        · rw [abs_of_nonpos (by linarith)]; linarith
        · intro _; omega
        · rw [abs_of_nonneg (by linarith)]; linarith
        · intro _; omega
      · rename_i h2 h3
        have h2' : (2 * r : ℝ) < d := by
          have : 2 * r < d := by omega
          exact_mod_cast this
        have h3 : (r : ℝ) / d < 1 / 2 := by rw [div_lt_iff₀ hdr']; linarith
        have habs : |((q : ℝ) - (q + r / d))| = r / d := by
          rw [show (q : ℝ) - (q + r / d) = -(r / d) by ring, abs_neg, abs_of_nonneg hr0]
        exact ⟨by rw [habs]; linarith, fun h => by rw [habs] at h; linarith⟩

/-- The half points decide the nearest integer. -/
theorem nearestInt_iff {r : ℝ} {n : Nat} :
    NearestInt r n ↔
      (2 * (n : ℝ) - 1 ≤ 2 * r ∧ 2 * r ≤ 2 * n + 1 ∧ ((2 * (n : ℝ) - 1 = 2 * r ∨ 2 * r = 2 * n + 1) → n % 2 = 0)) := by
  constructor
  · rintro ⟨hc, ht⟩
    obtain ⟨h1, h2⟩ := abs_le.1 hc
    refine ⟨by linarith, by linarith, ?_⟩
    rintro (h | h) <;> apply ht
    · rw [show (n : ℝ) - r = 1 / 2 by linarith]; norm_num
    · rw [show (n : ℝ) - r = -(1 / 2) by linarith]; norm_num
  · rintro ⟨h1, h2, h3⟩
    refine ⟨abs_le.2 ⟨by linarith, by linarith⟩, fun h => h3 ?_⟩
    rcases abs_cases ((n : ℝ) - r) with ⟨ha, _⟩ | ⟨ha, _⟩
    · left; linarith
    · right; linarith

/-! ### The nearest pattern -/

theorem FloatFormat.Wide.expUnit_even {f : FloatFormat} (hf : f.Wide) : f.expUnit % 2 = 0 := by
  have := hf.prec
  obtain ⟨p, hp⟩ : ∃ p, f.prec - 1 = p + 1 := ⟨f.prec - 2, by omega⟩
  unfold FloatFormat.expUnit
  rw [hp, pow_succ]
  omega

theorem FloatFormat.Wide.expMask_ge {f : FloatFormat} (hf : f.Wide) : 3 ≤ f.expMask := by
  have : 2 ^ 2 ≤ 2 ^ f.ebits := Nat.pow_le_pow_right (by norm_num) hf.ebits
  unfold FloatFormat.expMask
  omega

theorem FloatFormat.magVal_infBits {f : FloatFormat} (hf : f.Wide) :
    f.magVal f.infBits = 2 * f.expUnit * 2 ^ (f.minExp + f.expMask - 2) := by
  have h3 := hf.expMask_ge
  have h : f.infBits = (f.expMask - 1) * f.expUnit + f.expUnit := by
    unfold FloatFormat.infBits
    obtain ⟨k, hk⟩ : ∃ k, f.expMask = k + 1 := ⟨f.expMask - 1, by omega⟩
    rw [hk]
    simp only [Nat.add_sub_cancel]
    ring
  rw [h, f.magVal_parts (by omega) (.inr le_rfl),
    show f.minExp + ((f.expMask - 1 : Nat) : ℤ) = (f.minExp + f.expMask - 2) + 1 by omega,
    zpow_add_one₀ (by norm_num)]
  ring

theorem FloatFormat.magVal_maxFinite {f : FloatFormat} (hf : f.Wide) :
    f.magVal (f.infBits - 1) = (2 * f.expUnit - 1) * 2 ^ (f.minExp + f.expMask - 2) := by
  have h3 := hf.expMask_ge
  have hU := f.expUnit_pos
  have h : f.infBits - 1 = (f.expMask - 2) * f.expUnit + (2 * f.expUnit - 1) := by
    unfold FloatFormat.infBits
    obtain ⟨k, hk⟩ : ∃ k, f.expMask = k + 2 := ⟨f.expMask - 2, by omega⟩
    rw [hk]
    simp only [Nat.add_sub_cancel]
    have : (k + 2) * f.expUnit = k * f.expUnit + 2 * f.expUnit := by ring
    omega
  rw [h, f.magVal_parts (by omega) (.inr (by omega)),
    show f.minExp + ((f.expMask - 2 : Nat) : ℤ) = f.minExp + f.expMask - 2 by omega, Nat.cast_sub (by omega)]
  push_cast
  ring

/-- The overflow threshold lies halfway. -/
theorem FloatFormat.overflowAt_eq {f : FloatFormat} (hf : f.Wide) :
    (f.overflowAt : ℝ) = (f.magVal (f.infBits - 1) + f.magVal f.infBits) / 2 := by
  have hp := hf.prec
  have he := hf.ebits
  rw [f.magVal_infBits hf, f.magVal_maxFinite hf]
  have hexp : f.minExp + f.expMask - 2 = (2 ^ (f.ebits - 1) - 1 - (f.prec : ℤ)) + 1 := by
    have h1 : (2 : ℤ) ^ f.ebits = 2 * 2 ^ (f.ebits - 1) := by
      obtain ⟨e, h⟩ : ∃ e, f.ebits = e + 1 := ⟨f.ebits - 1, by omega⟩
      rw [h]
      simp only [Nat.add_sub_cancel]
      ring
    have h2 : (f.expMask : ℤ) = 2 ^ f.ebits - 1 := by
      unfold FloatFormat.expMask
      rw [Nat.cast_sub (Nat.two_pow_pos _)]
      push_cast
      ring
    rw [h2, h1]
    unfold FloatFormat.minExp
    ring
  have hU : ((2 : ℝ) ^ (f.prec + 1)) = 4 * f.expUnit := by
    obtain ⟨p, h⟩ : ∃ p, f.prec = p + 1 := ⟨f.prec - 1, by omega⟩
    unfold FloatFormat.expUnit
    rw [h, Nat.add_sub_cancel]
    push_cast
    ring
  unfold FloatFormat.overflowAt
  push_cast
  rw [hexp, zpow_add_one₀ (by norm_num), hU]
  ring

/-- A pattern no other pattern is nearer than, even where one is as near, is the nearest one; past the largest finite
value it stands for infinity. -/
theorem nearestMag_of_magVal {f : FloatFormat} (hf : f.Wide) {x : ℝ} {z0 : Nat}
    (near : ∀ z, |f.magVal z0 - x| ≤ |f.magVal z - x|)
    (tie : ∀ z, z ≠ z0 → |f.magVal z0 - x| = |f.magVal z - x| → z0 % 2 = 0) :
    NearestMag f x (min z0 f.infBits) := by
  have mono := f.magVal_strictMono
  have h3 := hf.expMask_ge
  have hU := f.expUnit_pos
  have hinf : 1 ≤ f.infBits := Nat.mul_pos (by omega) hU
  have hodd : (f.infBits - 1) % 2 = 1 := by
    have := hf.expUnit_even
    have h2 : f.infBits % 2 = 0 := by
      unfold FloatFormat.infBits
      rw [Nat.mul_mod, this]
      simp
    omega
  have hv : f.magVal (f.infBits - 1) < f.magVal f.infBits := mono (by omega)
  have hover : (f.overflowAt : ℝ) ≤ x ↔ f.infBits ≤ z0 := by
    rw [f.overflowAt_eq hf]
    constructor
    · intro hx
      by_contra hlt
      have hle : f.magVal z0 ≤ f.magVal (f.infBits - 1) := mono.monotone (by omega)
      have hn := near f.infBits
      rw [abs_of_nonpos (by linarith : f.magVal z0 - x ≤ 0)] at hn
      rcases abs_cases (f.magVal f.infBits - x) with ⟨ha, hs⟩ | ⟨ha, hs⟩ <;> rw [ha] at hn
      · have heq : f.magVal z0 = f.magVal (f.infBits - 1) := by linarith
        have hz : z0 = f.infBits - 1 := mono.injective heq
        have := tie f.infBits (by omega) (by rw [abs_of_nonpos (by linarith), ha]; linarith)
        omega
      · linarith
    · intro hge
      have hle : f.magVal f.infBits ≤ f.magVal z0 := mono.monotone hge
      have hn := near (f.infBits - 1)
      by_contra hx
      rw [not_le] at hx
      rw [abs_of_nonneg (by linarith : 0 ≤ f.magVal z0 - x)] at hn
      rcases abs_cases (f.magVal (f.infBits - 1) - x) with ⟨ha, hs⟩ | ⟨ha, hs⟩ <;> rw [ha] at hn <;> linarith
  refine ⟨?_, min_le_right _ _, ?_, ?_⟩
  · rw [hover, min_eq_right_iff]
  · intro hm z hz
    have hz0 : z0 < f.infBits := by omega
    rw [min_eq_left hz0.le, f.value_eq_magVal hz0, f.value_eq_magVal hz]
    exact near z
  · intro hm z hz hne heq
    have hz0 : z0 < f.infBits := by omega
    rw [min_eq_left hz0.le] at hne heq ⊢
    rw [f.value_eq_magVal hz0, f.value_eq_magVal hz] at heq
    exact tie z hne heq

/-- The nearest significand at the right exponent gives the nearest pattern. -/
theorem nearestMag_of_nearestInt {f : FloatFormat} (hf : f.Wide) {x : ℝ} {k sig : Nat}
    (hx : 0 ≤ x) (hlt : x < 2 * f.expUnit * 2 ^ (f.minExp + k))
    (hge : k = 0 ∨ f.expUnit * 2 ^ (f.minExp + k) ≤ x)
    (hs : NearestInt (x / 2 ^ (f.minExp + k)) sig) :
    NearestMag f x (min (k * f.expUnit + sig) f.infBits) := by
  have hB : (0 : ℝ) < 2 ^ (f.minExp + k) := by positivity
  set B : ℝ := 2 ^ (f.minExp + k) with hBdef
  have hxr : x = x / B * B := by field_simp
  set r := x / B
  have hr0 : 0 ≤ r := div_nonneg hx hB.le
  have hr2 : r < 2 * f.expUnit := by rw [hxr] at hlt; exact lt_of_mul_lt_mul_right hlt hB.le
  obtain ⟨hs1, hs2, -⟩ := nearestInt_iff.1 hs
  have hsle : sig ≤ 2 * f.expUnit := by
    have : (sig : ℝ) < ((2 * f.expUnit + 1 : Nat) : ℝ) := by push_cast; linarith
    have : sig < 2 * f.expUnit + 1 := by exact_mod_cast this
    omega
  have hkU : k = 0 ∨ (f.expUnit : ℝ) ≤ r := by
    refine hge.imp id fun h => ?_
    rw [hxr] at h
    exact le_of_mul_le_mul_right h hB
  have hsge : k = 0 ∨ f.expUnit ≤ sig := by
    refine hkU.imp id fun h => ?_
    have : (f.expUnit : ℝ) < ((sig + 1 : Nat) : ℝ) := by push_cast; linarith
    have : f.expUnit < sig + 1 := by exact_mod_cast this
    omega
  have hz0 : f.magVal (k * f.expUnit + sig) = sig * B := by rw [f.magVal_parts hsle hsge]
  have hdist : ∀ j : ℝ, |j * B - x| = |j - r| * B := by
    intro j
    rw [hxr, ← sub_mul, abs_mul, abs_of_pos hB]
  -- a pattern of an exponent at least k is a multiple of the last place; a lower one is too small
  have hcase : ∀ z, (∃ j : ℤ, f.magVal z = j * B) ∨
      (f.expUnit * B ≤ x ∧ f.magVal z < f.expUnit * B) := by
    intro z
    rcases Nat.lt_or_ge (f.magExp z) k with h | h
    · right
      have h1 : (f.expUnit : ℝ) * B ≤ x := by
        rcases hkU with h0 | h0
        · omega
        · rw [hxr]; exact mul_le_mul_of_nonneg_right h0 hB.le
      refine ⟨h1, ?_⟩
      have h2 : f.magVal z < 2 * f.expUnit * 2 ^ (f.minExp + f.magExp z) := by
        unfold FloatFormat.magVal
        apply mul_lt_mul_of_pos_right _ (by positivity)
        exact_mod_cast f.magSig_lt z
      have h3 : (2 : ℝ) ^ (f.minExp + f.magExp z) ≤ 2 ^ (f.minExp + k - 1) :=
        zpow_le_zpow_right₀ (by norm_num) (by omega)
      have h4 : (2 : ℝ) * 2 ^ (f.minExp + k - 1) = B := by
        rw [hBdef, mul_comm, ← zpow_add_one₀ (by norm_num)]
        congr 1
        ring
      have hU0 : (0 : ℝ) ≤ f.expUnit := by positivity
      nlinarith [mul_le_mul_of_nonneg_left h3 hU0]
    · left
      refine ⟨((f.magSig z * 2 ^ (f.magExp z - k) : Nat) : ℤ), ?_⟩
      unfold FloatFormat.magVal
      push_cast
      rw [hBdef, mul_assoc, ← zpow_natCast, ← zpow_add₀ (by norm_num)]
      congr 2
      omega
  have hlow : ∀ z, f.expUnit * B ≤ x ∧ f.magVal z < f.expUnit * B →
      |f.magVal (k * f.expUnit + sig) - x| < |f.magVal z - x| := by
    rintro z ⟨h1, h2⟩
    have h3 := hs.nearest (f.expUnit : ℤ)
    have h4 : |f.magVal (k * f.expUnit + sig) - x| ≤ |(f.expUnit : ℝ) * B - x| := by
      rw [hz0, hdist, hdist]
      apply mul_le_mul_of_nonneg_right _ hB.le
      exact_mod_cast h3
    rw [abs_of_nonpos (by linarith : (f.expUnit : ℝ) * B - x ≤ 0)] at h4
    rw [abs_of_nonpos (by linarith : f.magVal z - x ≤ 0)]
    linarith
  apply nearestMag_of_magVal hf
  · intro z
    rcases hcase z with ⟨j, hj⟩ | h
    · rw [hz0, hj, hdist, hdist]
      exact mul_le_mul_of_nonneg_right (hs.nearest j) hB.le
    · exact (hlow z h).le
  · intro z hne heq
    rcases hcase z with ⟨j, hj⟩ | h
    · have hjs : j ≠ sig := by
        rintro rfl
        apply hne
        apply f.magVal_strictMono.injective
        rw [hj, hz0]
        push_cast
        rfl
      rw [hz0, hj, hdist, hdist] at heq
      have he := hs.even_of_eq j hjs (mul_right_cancel₀ hB.ne' heq)
      have hU := hf.expUnit_even
      have : k * f.expUnit % 2 = 0 := by rw [Nat.mul_mod, hU]; simp
      omega
    · exact absurd heq (hlow z h).ne

/-! ### Rounding one value -/

/-- An integer that stands for a real number: they compare alike with every even integer. An exact value stands for itself; a `sticky`
integer for twice the value it was cut from. -/
def StandsFor (y : ℝ) (s : Nat) : Prop := ∀ E : Nat, E % 2 = 0 → ((s < E ↔ y < E) ∧ (s = E ↔ y = E))

theorem standsFor_self (s : Nat) : StandsFor (s : ℝ) s := fun E _ => ⟨by norm_cast, by norm_cast⟩

theorem StandsFor.le_iff {y : ℝ} {s : Nat} (h : StandsFor y s) {E : Nat} (hE : E % 2 = 0) : E ≤ s ↔ (E : ℝ) ≤ y := by
  rw [← not_lt, ← not_lt, (h E hE).1]

/-- The sticky integer stands for twice the value it was cut from. -/
theorem standsFor_sticky {y : ℝ} {q rest : Nat} (h1 : (q : ℝ) ≤ y) (h2 : y < q + 1) (h3 : rest = 0 ↔ y = q) :
    StandsFor (2 * y) (sticky q rest) := by
  intro E hE
  obtain ⟨e, rfl⟩ : ∃ e, E = 2 * e := ⟨E / 2, by omega⟩
  unfold sticky
  have hlt : (y < e ↔ q < e) := by
    constructor
    · intro h
      have : (q : ℝ) < e := by linarith
      exact_mod_cast this
    · intro h
      have : ((q + 1 : Nat) : ℝ) ≤ e := by exact_mod_cast h
      push_cast at this
      linarith
  push_cast
  constructor
  · rw [show (2 * y < 2 * (e : ℝ) ↔ y < e) by constructor <;> intro h <;> linarith, hlt]
    split <;> omega
  · rw [show (2 * y = 2 * (e : ℝ) ↔ y = e) by constructor <;> intro h <;> linarith]
    constructor
    · intro h
      split at h
      · rename_i h0
        have : q = e := by omega
        rw [h3.1 h0, this]
      · omega
    · intro h
      have hle : (q : ℝ) ≤ e := by linarith
      have hlt' : (e : ℝ) < ((q + 1 : Nat) : ℝ) := by push_cast; linarith
      have h4 : q ≤ e := by exact_mod_cast hle
      have h5 : e < q + 1 := by exact_mod_cast hlt'
      have h6 : q = e := by omega
      rw [if_pos (h3.2 (by rw [h, h6]))]
      omega

/-- The nearest integer to a shifted stand-in is the nearest to the shifted value. -/
theorem StandsFor.nearestInt {y : ℝ} {s sh n : Nat} (h : StandsFor y s) (hsh : y = s ∨ 2 ≤ sh)
    (hn : NearestInt ((s : ℝ) * 2 ^ (-(sh : ℤ))) n) : NearestInt (y * 2 ^ (-(sh : ℤ))) n := by
  rcases hsh with rfl | hsh
  · exact hn
  obtain ⟨t, rfl⟩ : ∃ t, sh = t + 2 := ⟨sh - 2, by omega⟩
  have hp : (0 : ℝ) < 2 ^ (t + 2) := by positivity
  have key : ∀ (w c : ℝ), (c ≤ 2 * (w * 2 ^ (-((t + 2 : Nat) : ℤ))) ↔ c * 2 ^ (t + 1) ≤ w) ∧
      (2 * (w * 2 ^ (-((t + 2 : Nat) : ℤ))) ≤ c ↔ w ≤ c * 2 ^ (t + 1)) ∧
      (c = 2 * (w * 2 ^ (-((t + 2 : Nat) : ℤ))) ↔ w = c * 2 ^ (t + 1)) := by
    intro w c
    have hw : 2 * (w * 2 ^ (-((t + 2 : Nat) : ℤ))) = w / 2 ^ (t + 1) := by
      rw [zpow_neg, zpow_natCast, pow_succ]
      field_simp
    have hq : (0 : ℝ) < 2 ^ (t + 1) := by positivity
    rw [hw, le_div_iff₀ hq, div_le_iff₀ hq, eq_div_iff hq.ne']
    exact ⟨Iff.rfl, Iff.rfl, eq_comm⟩
  have hE : ∀ j : Nat, (j * 2 ^ (t + 1)) % 2 = 0 := fun j => by rw [pow_succ, ← mul_assoc]; omega
  rw [nearestInt_iff] at hn ⊢
  obtain ⟨h1, h2, h3⟩ := hn
  have cmpHi := h ((2 * n + 1) * 2 ^ (t + 1)) (hE _)
  have castHi : (2 * (n : ℝ) + 1) * 2 ^ (t + 1) = (((2 * n + 1) * 2 ^ (t + 1) : Nat) : ℝ) := by push_cast; ring
  have hiLe : (s : ℝ) ≤ (2 * (n : ℝ) + 1) * 2 ^ (t + 1) ↔ y ≤ (2 * (n : ℝ) + 1) * 2 ^ (t + 1) := by
    rw [castHi, le_iff_lt_or_eq, le_iff_lt_or_eq, ← cmpHi.1, ← cmpHi.2]
    norm_cast
  have hiEq : (s : ℝ) = (2 * (n : ℝ) + 1) * 2 ^ (t + 1) ↔ y = (2 * (n : ℝ) + 1) * 2 ^ (t + 1) := by
    rw [castHi, ← cmpHi.2]
    norm_cast
  have hlo : (2 * (n : ℝ) - 1) * 2 ^ (t + 1) ≤ s ↔ (2 * (n : ℝ) - 1) * 2 ^ (t + 1) ≤ y := by
    cases n with
    | zero =>
      have h0 : (2 * ((0 : Nat) : ℝ) - 1) * 2 ^ (t + 1) ≤ 0 := by
        have : (0 : ℝ) < 2 ^ (t + 1) := by positivity
        push_cast
        linarith
      have hy : (0 : ℝ) ≤ y := by
        have := (h.le_iff (E := 0) (by norm_num)).1 (Nat.zero_le s)
        simpa using this
      exact ⟨fun _ => le_trans h0 hy, fun _ => le_trans h0 (Nat.cast_nonneg s)⟩
    | succ n =>
      have cast : (2 * ((n + 1 : Nat) : ℝ) - 1) * 2 ^ (t + 1) = (((2 * n + 1) * 2 ^ (t + 1) : Nat) : ℝ) := by
        push_cast; ring
      rw [cast, ← h.le_iff (hE _)]
      norm_cast
  have hloEq : (s : ℝ) = (2 * (n : ℝ) - 1) * 2 ^ (t + 1) ↔ y = (2 * (n : ℝ) - 1) * 2 ^ (t + 1) := by
    cases n with
    | zero =>
      have h0 : (2 * ((0 : Nat) : ℝ) - 1) * 2 ^ (t + 1) < 0 := by
        have : (0 : ℝ) < 2 ^ (t + 1) := by positivity
        push_cast
        linarith
      have hy : (0 : ℝ) ≤ y := by
        have := (h.le_iff (E := 0) (by norm_num)).1 (Nat.zero_le s)
        simpa using this
      have hs0 : (0 : ℝ) ≤ s := Nat.cast_nonneg s
      constructor <;> intro h <;> linarith
    | succ n =>
      have cast : (2 * ((n + 1 : Nat) : ℝ) - 1) * 2 ^ (t + 1) = (((2 * n + 1) * 2 ^ (t + 1) : Nat) : ℝ) := by
        push_cast; ring
      rw [cast, ← (h ((2 * n + 1) * 2 ^ (t + 1)) (hE _)).2]
      norm_cast
  rw [(key _ _).1, (key _ _).2.1] at *
  rw [(key _ _).2.2, eq_comm (a := 2 * (y * _)), (key _ _).2.2]
  rw [(key _ _).2.2, eq_comm (a := 2 * ((s : ℝ) * _)), (key _ _).2.2] at h3
  exact ⟨hlo.1 h1, hiLe.1 h2, fun h => h3 (h.imp hloEq.2 hiEq.2)⟩

/-- A stand-in lies in the same binade as its value. -/
theorem StandsFor.log2 {y : ℝ} {s : Nat} (h : StandsFor y s) (hs : y = s ∨ 2 ≤ s) (h0 : s ≠ 0) :
    (2 : ℝ) ^ s.log2 ≤ y ∧ y < 2 ^ (s.log2 + 1) := by
  have h1 : 2 ^ s.log2 ≤ s := Nat.log2_self_le h0
  have h2 : s < 2 ^ (s.log2 + 1) := Nat.lt_log2_self
  rcases hs with rfl | hs
  · exact ⟨by exact_mod_cast h1, by exact_mod_cast h2⟩
  · have hl : 1 ≤ s.log2 := (Nat.le_log2 h0).2 (by simpa using hs)
    constructor
    · have := (h.le_iff (E := 2 ^ s.log2) (by obtain ⟨l, hl'⟩ : ∃ l, s.log2 = l + 1 := ⟨s.log2 - 1, by omega⟩
                                              rw [hl', pow_succ]; omega)).1 h1
      exact_mod_cast this
    · have := (h (2 ^ (s.log2 + 1)) (by rw [pow_succ]; omega)).1.1 h2
      exact_mod_cast this

/-- Rounding a stand-in rounds its value: exactly, or where the stand-in has two bits more than the format keeps. -/
theorem roundMag_of_standsFor {f : FloatFormat} (hf : f.Wide) {y : ℝ} {s : Nat} (e : ℤ) (h : StandsFor y s) (h0 : s ≠ 0)
    (hs : y = s ∨ 2 ^ (f.prec + 1) ≤ s) : NearestMag f (y * 2 ^ e) (f.roundMag s e) := by
  have hp := hf.prec
  have hl : y = s ∨ f.prec + 1 ≤ s.log2 := hs.imp id fun hs => (Nat.le_log2 h0).2 hs
  have h2s : y = s ∨ 2 ≤ s := hs.imp id fun hs => by
    have : 2 ^ 1 ≤ 2 ^ (f.prec + 1) := Nat.pow_le_pow_right (by norm_num) (by omega)
    omega
  obtain ⟨hlo, hhi⟩ := h.log2 h2s h0
  have hy0 : 0 ≤ y := le_trans (by positivity) hlo
  unfold FloatFormat.roundMag
  rw [if_neg h0]
  simp only []
  have hq : f.minExp ≤ f.quantum s e := le_max_right _ _
  have hq2 : (s.log2 : ℤ) + e - (f.prec - 1 : Nat) ≤ f.quantum s e := le_max_left _ _
  have hq3 : f.quantum s e = f.minExp ∨ f.quantum s e = (s.log2 : ℤ) + e - (f.prec - 1 : Nat) := by
    unfold FloatFormat.quantum
    rcases max_cases ((s.log2 : ℤ) + e - (f.prec - 1 : Nat)) f.minExp with ⟨h, _⟩ | ⟨h, _⟩
    · exact .inr h
    · exact .inl h
  set q := f.quantum s e with hqdef
  have hk : f.minExp + ((q - f.minExp).toNat : ℤ) = q := by rw [Int.toNat_of_nonneg (by omega)]; ring
  have hUr : (f.expUnit : ℝ) = 2 ^ ((f.prec - 1 : Nat) : ℤ) := by
    unfold FloatFormat.expUnit
    push_cast
    rw [zpow_natCast]
  apply nearestMag_of_nearestInt hf
  · positivity
  · rw [hk, hUr]
    calc y * 2 ^ e < 2 ^ (s.log2 + 1) * 2 ^ e := by
          apply mul_lt_mul_of_pos_right hhi; positivity
      _ = 2 ^ ((s.log2 : ℤ) + 1 + e) := by
          rw [← zpow_natCast, ← zpow_add₀ (by norm_num)]; push_cast; rfl
      _ ≤ 2 ^ (1 + ((f.prec - 1 : Nat) : ℤ) + q) := zpow_le_zpow_right₀ (by norm_num) (by omega)
      _ = 2 * 2 ^ ((f.prec - 1 : Nat) : ℤ) * 2 ^ q := by
          rw [zpow_add₀ (by norm_num), zpow_add₀ (by norm_num), zpow_one]
  · rcases hq3 with h3 | h3
    · left; omega
    · right
      rw [hk, hUr, ← zpow_add₀ (by norm_num)]
      calc (2 : ℝ) ^ (((f.prec - 1 : Nat) : ℤ) + q) = 2 ^ ((s.log2 : ℤ) + e) := by congr 1; omega
        _ = 2 ^ s.log2 * 2 ^ e := by rw [zpow_add₀ (by norm_num), zpow_natCast]
        _ ≤ y * 2 ^ e := by apply mul_le_mul_of_nonneg_right hlo; positivity
  · rw [hk]
    have hdiv : y * 2 ^ e / 2 ^ q = y * 2 ^ (-(q - e)) := by
      rw [div_eq_mul_inv, mul_assoc, ← zpow_neg, ← zpow_add₀ (by norm_num)]
      congr 2
      ring
    rw [hdiv]
    have hn := nearestInt_shiftToNearest s (q - e)
    rcases hl with rfl | hl
    · exact hn
    · obtain ⟨n, hn'⟩ : ∃ n : Nat, q - e = n := ⟨(q - e).toNat, (Int.toNat_of_nonneg (by omega)).symm⟩
      rw [hn'] at hn ⊢
      exact h.nearestInt (.inr (by omega)) hn

theorem nearestMag_zero {f : FloatFormat} (hf : f.Wide) : NearestMag f 0 0 := by
  have h := nearestMag_of_nearestInt hf (x := 0) (k := 0) (sig := 0) le_rfl
    (by have := f.expUnit_pos; positivity) (.inl rfl) ⟨by simp, by simp⟩
  simpa using h

/-- Between two reals that round alike, everything rounds alike. -/
theorem NearestMag.between {f : FloatFormat} {x y1 y2 : ℝ} {b : Nat} (h1 : NearestMag f y1 b) (h2 : NearestMag f y2 b)
    (hx1 : y1 ≤ x) (hx2 : x ≤ y2) : NearestMag f x b := by
  refine ⟨⟨fun h => h2.overflow.1 (le_trans h hx2), fun h => le_trans (h1.overflow.2 h) hx1⟩, h1.le_inf, ?_, ?_⟩
  · intro hb z hz
    have e1 := h1.nearest hb z hz
    have e2 := h2.nearest hb z hz
    rcases le_total (f.value b : ℝ) (f.value z) with hv | hv
    · rw [← sq_le_sq] at *
      nlinarith
    · rw [← sq_le_sq] at *
      nlinarith
  · intro hb z hz hne heq
    have e1 := h1.nearest hb z hz
    have e2 := h2.nearest hb z hz
    have hne' : (f.value z : ℝ) ≠ f.value b := by
      rw [f.value_eq_magVal hz, f.value_eq_magVal hb]
      exact fun h => hne (f.magVal_strictMono.injective h)
    have hsq := (sq_eq_sq_iff_abs_eq_abs _ _).2 heq
    rw [← sq_le_sq] at e1 e2
    have hmid : (f.value b : ℝ) + f.value z = 2 * x := by
      have : ((f.value b : ℝ) - f.value z) * (f.value b + f.value z - 2 * x) = 0 := by linarith
      rcases mul_eq_zero.1 this with h | h
      · exact absurd (by linarith) hne'
      · linarith
    rcases lt_or_gt_of_ne hne' with hv | hv
    · have hy : y1 = x := by nlinarith
      exact h1.tie_even hb z hz hne (by rw [hy]; exact heq)
    · have hy : y2 = x := by nlinarith
      exact h2.tie_even hb z hz hne (by rw [hy]; exact heq)

end Sys2Proof.Machine
end

