-- ==== Sys2Proof/Laws/Arithmetic.lean ====
section
/-! SUPPORT. The primitives of spec/00_scope.md R19: what a packed pattern holds, that sums and products of values are exact, and what a
quotient and a root stand for before their one rounding. -/

namespace Sys2Proof.Machine

/-! ### Patterns -/

/-- A format whose fields are the whole pattern has its sign bit on top. -/
theorem binary32_signUnit : binary32.signUnit = 2 ^ 31 := by decide
theorem binary64_signUnit : binary64.signUnit = 2 ^ 63 := by decide
theorem binary32_infBits : binary32.infBits = 0x7F800000 := by decide
theorem binary64_infBits : binary64.infBits = 0x7FF0000000000000 := by decide
theorem binary32_expUnit : binary32.expUnit = 2 ^ 23 := by decide
theorem binary64_expUnit : binary64.expUnit = 2 ^ 52 := by decide
theorem binary32_nanBits : binary32.nanBits = 0x7FC00000 := by decide
theorem binary64_nanBits : binary64.nanBits = 0x7FF8000000000000 := by decide

theorem FloatFormat.roundMag_le (f : FloatFormat) (m : Nat) (e : ℤ) : f.roundMag m e ≤ f.infBits := by
  unfold FloatFormat.roundMag
  split
  · exact Nat.zero_le _
  · exact min_le_right _ _

/-- The bits of a rounded binary32 value: the magnitude below, the sign on top. -/
theorem round32_fin_toNat (neg : Bool) (m : Nat) (e : ℤ) :
    (round32 (.fin neg m e)).toNat = (if neg then 2 ^ 31 else 0) + binary32.roundMag m e := by
  have h := binary32.roundMag_le m e
  rw [binary32_infBits] at h
  unfold round32
  simp only [FloatFormat.pack]
  rw [BitVec.toNat_ofNat, binary32_signUnit]
  apply Nat.mod_eq_of_lt
  split <;> omega

theorem round32_fin_mag (neg : Bool) (m : Nat) (e : ℤ) :
    (round32 (.fin neg m e)).toNat % 2 ^ 31 = binary32.roundMag m e := by
  have h := binary32.roundMag_le m e
  rw [binary32_infBits] at h
  rw [round32_fin_toNat]
  split <;> omega

theorem round32_fin_sign (neg : Bool) (m : Nat) (e : ℤ) : (round32 (.fin neg m e)).getLsbD 31 = neg := by
  have h := binary32.roundMag_le m e
  rw [binary32_infBits] at h
  rw [BitVec.getLsbD, Nat.testBit_eq_decide_div_mod_eq, round32_fin_toNat]
  cases neg <;> simp <;> omega

/-- The bits of a rounded binary64 value. -/
theorem round64_fin_toNat (neg : Bool) (m : Nat) (e : ℤ) :
    (round64 (.fin neg m e)).toNat = (if neg then 2 ^ 63 else 0) + binary64.roundMag m e := by
  have h := binary64.roundMag_le m e
  rw [binary64_infBits] at h
  unfold round64
  simp only [FloatFormat.pack]
  rw [BitVec.toNat_ofNat, binary64_signUnit]
  apply Nat.mod_eq_of_lt
  split <;> omega

theorem round64_fin_mag (neg : Bool) (m : Nat) (e : ℤ) :
    (round64 (.fin neg m e)).toNat % 2 ^ 63 = binary64.roundMag m e := by
  have h := binary64.roundMag_le m e
  rw [binary64_infBits] at h
  rw [round64_fin_toNat]
  split <;> omega

theorem round64_fin_sign (neg : Bool) (m : Nat) (e : ℤ) : (round64 (.fin neg m e)).getLsbD 63 = neg := by
  have h := binary64.roundMag_le m e
  rw [binary64_infBits] at h
  rw [BitVec.getLsbD, Nat.testBit_eq_decide_div_mod_eq, round64_fin_toNat]
  cases neg <;> simp <;> omega

theorem FloatVal.isFinite_iff {v : FloatVal} : v.isFinite = true ↔ ∃ neg m e, v = .fin neg m e := by
  cases v <;> simp [FloatVal.isFinite]

/-- The sign of a finite pattern is its top bit. -/
theorem val32_sign {a : Word} {neg : Bool} {m : Nat} {e : ℤ} (h : val32 a = .fin neg m e) : neg = a.getLsbD 31 := by
  have : neg = decide (a.toNat / binary32.signUnit % 2 = 1) := by
    unfold val32 FloatFormat.unpack at h
    simp only [] at h
    split at h
    · split at h <;> cases h
    · split at h <;> (injection h with h1; exact h1.symm)
  rw [this, binary32_signUnit, BitVec.getLsbD, Nat.testBit_eq_decide_div_mod_eq]

theorem val64_sign {a : DWord} {neg : Bool} {m : Nat} {e : ℤ} (h : val64 a = .fin neg m e) : neg = a.getLsbD 63 := by
  have : neg = decide (a.toNat / binary64.signUnit % 2 = 1) := by
    unfold val64 FloatFormat.unpack at h
    simp only [] at h
    split at h
    · split at h <;> cases h
    · split at h <;> (injection h with h1; exact h1.symm)
  rw [this, binary64_signUnit, BitVec.getLsbD, Nat.testBit_eq_decide_div_mod_eq]

/-! ### Exact sums and products -/

theorem FloatVal.toRat_fin (neg : Bool) (m : Nat) (e : ℤ) :
    (FloatVal.fin neg m e).toRat = (if neg then -1 else 1) * (m * 2 ^ e) := rfl

theorem FloatVal.abs_toRat_fin (neg : Bool) (m : Nat) (e : ℤ) : |(FloatVal.fin neg m e).toRat| = m * 2 ^ e := by
  have h : (0 : ℚ) ≤ m * 2 ^ e := by positivity
  rw [FloatVal.toRat_fin]
  cases neg
  · simp [abs_of_nonneg h]
  · simp only [if_true]
    rw [neg_one_mul, abs_neg, abs_of_nonneg h]

theorem alignedInt_eq (neg : Bool) (m : Nat) {e e0 : ℤ} (h : e0 ≤ e) :
    ((alignedInt neg m e e0 : ℤ) : ℚ) * 2 ^ e0 = (FloatVal.fin neg m e).toRat := by
  have : ((2 : ℚ) ^ ((e - e0).toNat)) * 2 ^ e0 = 2 ^ e := by
    rw [← zpow_natCast, ← zpow_add₀ (by norm_num)]
    congr 1
    omega
  rw [FloatVal.toRat_fin, ← this]
  unfold alignedInt
  cases neg
  · simp only [Bool.false_eq_true, if_false]
    push_cast
    ring
  · simp only [if_true]
    push_cast
    ring

/-- The sum of two finite values is the exact sum, and its sign is the sign of the exact sum. -/
theorem FloatVal.add_fin (a : Bool) (m : Nat) (e : ℤ) (b : Bool) (n : Nat) (d : ℤ) :
    ∃ neg k c, (FloatVal.fin a m e).add (.fin b n d) = .fin neg k c ∧
      (FloatVal.fin neg k c).toRat = (FloatVal.fin a m e).toRat + (FloatVal.fin b n d).toRat ∧
      ((FloatVal.fin neg k c).toRat ≠ 0 → (neg = true ↔ (FloatVal.fin neg k c).toRat < 0)) := by
  have h1 := alignedInt_eq a m (min_le_left e d)
  have h2 := alignedInt_eq b n (min_le_right e d)
  simp only [FloatVal.add]
  set e0 := min e d
  set s := alignedInt a m e e0 + alignedInt b n d e0 with hs
  have hsum : (s : ℚ) * 2 ^ e0 = (FloatVal.fin a m e).toRat + (FloatVal.fin b n d).toRat := by
    rw [← h1, ← h2, hs]
    push_cast
    ring
  have hp : (0 : ℚ) < 2 ^ e0 := by positivity
  by_cases h0 : s = 0
  · rw [if_pos h0]
    refine ⟨_, _, _, rfl, ?_, ?_⟩
    · rw [← hsum, h0, FloatVal.toRat_fin]
      simp
    · intro h
      rw [FloatVal.toRat_fin] at h
      simp at h
  · rw [if_neg h0]
    have hval : (FloatVal.fin (decide (s < 0)) s.natAbs e0).toRat = s * 2 ^ e0 := by
      rw [FloatVal.toRat_fin, ← mul_assoc]
      congr 1
      by_cases hneg : s < 0
      · have hz : (s.natAbs : ℤ) = -s := by omega
        have hz' : ((s.natAbs : ℤ) : ℚ) = -s := by rw [hz]; push_cast; rfl
        simp only [hneg, decide_true, if_true]
        rw [← Int.cast_natCast, hz']
        ring
      · have hz : (s.natAbs : ℤ) = s := by omega
        have hz' : ((s.natAbs : ℤ) : ℚ) = s := by rw [hz]
        simp only [hneg, decide_false, Bool.false_eq_true, if_false]
        rw [← Int.cast_natCast, hz']
        ring
    refine ⟨_, _, _, rfl, by rw [hval, hsum], fun _ => ?_⟩
    rw [hval, decide_eq_true_iff]
    constructor
    · intro h
      exact mul_neg_of_neg_of_pos (by exact_mod_cast h) hp
    · intro h
      by_contra hn
      have : (0 : ℚ) ≤ s := by exact_mod_cast not_lt.1 hn
      have := mul_nonneg this hp.le
      linarith

theorem FloatVal.negate_toRat (v : FloatVal) : v.negate.toRat = -v.toRat := by
  cases v with
  | nan => simp [FloatVal.negate, FloatVal.toRat]
  | inf a => simp [FloatVal.negate, FloatVal.toRat]
  | fin a m e =>
    simp only [FloatVal.negate, FloatVal.toRat_fin]
    cases a <;> simp

/-- The product of two finite values is the exact product. -/
theorem FloatVal.mul_fin (a : Bool) (m : Nat) (e : ℤ) (b : Bool) (n : Nat) (d : ℤ) :
    (FloatVal.fin a m e).mul (.fin b n d) = .fin (a != b) (m * n) (e + d) := rfl

theorem FloatVal.mul_fin_toRat (a : Bool) (m : Nat) (e : ℤ) (b : Bool) (n : Nat) (d : ℤ) :
    (FloatVal.fin (a != b) (m * n) (e + d)).toRat = (FloatVal.fin a m e).toRat * (FloatVal.fin b n d).toRat := by
  simp only [FloatVal.toRat_fin]
  rw [zpow_add₀ (by norm_num)]
  push_cast
  cases a <;> cases b <;> simp <;> ring

/-- The sign of a value that is not zero. -/
theorem FloatVal.neg_iff {neg : Bool} {m : Nat} {e : ℤ} (h : (FloatVal.fin neg m e).toRat ≠ 0) :
    neg = true ↔ (FloatVal.fin neg m e).toRat < 0 := by
  rw [FloatVal.toRat_fin] at h ⊢
  have h0 : (0 : ℚ) ≤ m * 2 ^ e := by positivity
  cases neg
  · simp only [Bool.false_eq_true, if_false, one_mul, false_iff, not_lt]
    exact h0
  · simp only [if_true, neg_one_mul, true_iff, Left.neg_neg_iff] at h ⊢
    exact lt_of_le_of_ne h0 (fun h' => h (by rw [← h']; simp))

/-! ### Quotients and roots -/

/-- The sticky quotient has enough bits to be rounded once, and stands for the exact one. -/
theorem quotientSticky_standsFor (prec : Nat) {m n : Nat} (hm : m ≠ 0) (hn : n ≠ 0) :
    StandsFor ((m : ℝ) / n * 2 ^ (quotientSticky prec m n).2) (quotientSticky prec m n).1 ∧
    2 ^ (prec + 1) ≤ (quotientSticky prec m n).1 := by
  unfold quotientSticky
  simp only []
  set k := prec + 2 + (n.log2 + 1) with hk
  have hn0 : 0 < n := Nat.pos_of_ne_zero hn
  have hnr : (0 : ℝ) < n := by exact_mod_cast hn0
  have hdm := Nat.div_add_mod (m * 2 ^ k) n
  have hml := Nat.mod_lt (m * 2 ^ k) hn0
  set q := m * 2 ^ k / n
  set r := m * 2 ^ k % n
  have hy : (m : ℝ) / n * 2 ^ k = q + r / n := by
    have : (m : ℝ) * 2 ^ k = n * q + r := by exact_mod_cast hdm.symm
    field_simp
    linarith
  have hr1 : (r : ℝ) / n < 1 := by
    rw [div_lt_one hnr]
    exact_mod_cast hml
  have hr0 : (0 : ℝ) ≤ (r : ℝ) / n := by positivity
  constructor
  · have h2 : (m : ℝ) / n * 2 ^ (k + 1) = 2 * (m / n * 2 ^ k) := by rw [pow_succ]; ring
    rw [h2]
    apply standsFor_sticky
    · rw [hy]; linarith
    · rw [hy]; linarith
    · rw [hy]
      constructor
      · intro h; simp [h]
      · intro h
        have : (r : ℝ) / n = 0 := by linarith
        rcases div_eq_zero_iff.1 this with h | h
        · exact_mod_cast h
        · exact absurd h hnr.ne'
  · have h1 : 2 ^ (prec + 2) ≤ q := by
      rw [Nat.le_div_iff_mul_le hn0]
      calc 2 ^ (prec + 2) * n ≤ 2 ^ (prec + 2) * 2 ^ (n.log2 + 1) :=
            Nat.mul_le_mul_left _ Nat.lt_log2_self.le
        _ = 1 * 2 ^ k := by rw [hk, ← pow_add, one_mul]
        _ ≤ m * 2 ^ k := Nat.mul_le_mul_right _ (Nat.pos_of_ne_zero hm)
    have h2 : 2 ^ (prec + 1) ≤ 2 ^ (prec + 2) := Nat.pow_le_pow_right (by norm_num) (by omega)
    unfold sticky
    omega

theorem sqrtDigits_spec (n : Nat) : ∀ (b r : Nat), r * r ≤ n → n < (r + 2 ^ b) * (r + 2 ^ b) →
    sqrtDigits n b r * sqrtDigits n b r ≤ n ∧ n < (sqrtDigits n b r + 1) * (sqrtDigits n b r + 1) := by
  intro b
  induction b with
  | zero => intro r h1 h2; exact ⟨h1, by simpa [sqrtDigits] using h2⟩
  | succ b ih =>
    intro r h1 h2
    unfold sqrtDigits
    split
    · rename_i h
      refine ih _ h ?_
      have : r + 2 ^ b + 2 ^ b = r + 2 ^ (b + 1) := by rw [pow_succ]; omega
      rwa [this]
    · rename_i h
      exact ih r h1 (by omega)

/-- `isqrt` is the integer square root. -/
theorem isqrt_spec (n : Nat) : isqrt n * isqrt n ≤ n ∧ n < (isqrt n + 1) * (isqrt n + 1) := by
  unfold isqrt
  apply sqrtDigits_spec
  · simp
  · have h : n < 2 ^ (n.log2 + 1) := Nat.lt_log2_self
    calc n < 2 ^ (n.log2 + 1) := h
      _ ≤ 2 ^ ((n.log2 / 2 + 1) + (n.log2 / 2 + 1)) := Nat.pow_le_pow_right (by norm_num) (by omega)
      _ = (0 + 2 ^ (n.log2 / 2 + 1)) * (0 + 2 ^ (n.log2 / 2 + 1)) := by rw [pow_add]; simp

/-- The sticky integer root stands for twice the exact one. -/
theorem isqrt_standsFor (n : Nat) : StandsFor (2 * Real.sqrt n) (sticky (isqrt n) (n - isqrt n * isqrt n)) := by
  obtain ⟨h1, h2⟩ := isqrt_spec n
  have hr : (0 : ℝ) ≤ isqrt n := Nat.cast_nonneg _
  have h1' : (isqrt n : ℝ) * isqrt n ≤ n := by exact_mod_cast h1
  have h2' : (n : ℝ) < (isqrt n + 1) * (isqrt n + 1) := by exact_mod_cast h2
  apply standsFor_sticky
  · exact Real.le_sqrt_of_sq_le (by rw [sq]; exact h1')
  · rw [Real.sqrt_lt' (by linarith), sq]
    exact h2'
  · constructor
    · intro h
      have h3 : isqrt n * isqrt n = n := by omega
      rw [Real.sqrt_eq_iff_mul_self_eq (Nat.cast_nonneg _) hr]
      exact_mod_cast h3.symm
    · intro h
      rw [Real.sqrt_eq_iff_mul_self_eq (Nat.cast_nonneg _) hr] at h
      have : n = isqrt n * isqrt n := by exact_mod_cast h
      omega

end Sys2Proof.Machine
end

