-- ==== Sys2Proof/Laws/Assembler.lean ====
section
/-! SUPPORT. The register names of the assembler (spec/30_encoding.md R141) are those of the register page (spec/20_memory.md R83), and
its loop runs over its bounds in turn (R145). -/

namespace Sys2Proof.Machine

/-- What a register name reaches. -/
def RegName.target : RegName → Target
  | .cmd => .cmd
  | .status => .status
  | .operand r => .operand r
  | .readOnly r => .readOnly r

/-- A register name stands for the offset at which the bus finds that register. -/
theorem registerOffset_target (p : Params) (r : RegName) : targetAt p (registerOffset r) = some r.target := by
  rcases r with _ | _ | r | r
  · rfl
  · rfl
  · cases r <;> rfl
  · cases r <;> rfl

/-- Every offset of the register page has a name. -/
theorem registerPage_named {off : Nat} {t : Target} (h : (off, t) ∈ registerPage) :
    ∃ r : RegName, (registerOffset r).toNat = off ∧ r.target = t := by
  have hall : ∀ e ∈ registerPage, (match e.2 with
      | .cmd => some RegName.cmd
      | .status => some .status
      | .operand r => some (.operand r)
      | .readOnly r => some (.readOnly r)
      | _ => none).any (fun r => (registerOffset r).toNat == e.1 && r.target == e.2) = true := by decide +kernel
  obtain ⟨r, -, hr⟩ := (Option.any_eq_true _ _).1 (hall _ h)
  rw [Bool.and_eq_true, beq_iff_eq, beq_iff_eq] at hr
  exact ⟨r, hr⟩

/-- The two halves of a pair stand side by side, LO first (R87). -/
theorem pairHi_offset (p : PairName) : registerOffset (pairHi p) = registerOffset (pairLo p) + 4 := by
  cases p <;> rfl

/-- A loop whose bounds are out of order is empty (R145). -/
theorem asmFor_of_gt {a b : Int} (h : b < a) (body : Int → List Access) : asmFor a b body = [] := by
  have hlen : (b + 1 - a).toNat = 0 := by omega
  rw [asmFor, hlen]
  rfl

/-- Any other loop is its body at the first bound, then the loop from the next value on (R145). -/
theorem asmFor_of_le {a b : Int} (h : a ≤ b) (body : Int → List Access) :
    asmFor a b body = body a ++ asmFor (a + 1) b body := by
  obtain ⟨n, hn⟩ : ∃ n : Nat, b + 1 - a = n + 1 := ⟨(b - a).toNat, by omega⟩
  have h1 : (b + 1 - a).toNat = n + 1 := by omega
  have h2 : (b + 1 - (a + 1)).toNat = n := by omega
  simp only [asmFor, h1, h2, List.range_succ_eq_map, List.map_cons, List.map_map, List.flatten_cons]
  congr 3
  · simp
  · funext k
    simp only [Function.comp_apply, Nat.succ_eq_add_one, Int.natCast_add, Int.cast_ofNat_Int]
    congr 1
    omega

end Sys2Proof.Machine
end

