-- ==== Sys2Proof/Laws/State.lean ====
section
/-! SUPPORT. What each update of the state does to each field: one lemma per field per update. -/

namespace Sys2Proof.Machine

/-! ### State.raise -/

@[simp] theorem State.raise_params (s : State) (c : ErrorCause) (w : Word) : (s.raise c w).params = s.params := rfl
@[simp] theorem State.raise_regs (s : State) (c : ErrorCause) (w : Word) : (s.raise c w).regs = s.regs := rfl
@[simp] theorem State.raise_prepared (s : State) (c : ErrorCause) (w : Word) : (s.raise c w).prepared = s.prepared := rfl
@[simp] theorem State.raise_err (s : State) (c : ErrorCause) (w : Word) : (s.raise c w).err = recordError c w s.err := rfl
@[simp] theorem State.raise_gen (s : State) (c : ErrorCause) (w : Word) : (s.raise c w).gen = s.gen := rfl
@[simp] theorem State.raise_fOut (s : State) (c : ErrorCause) (w : Word) : (s.raise c w).fOut = s.fOut := rfl
@[simp] theorem State.raise_fb (s : State) (c : ErrorCause) (w : Word) : (s.raise c w).fb = s.fb := rfl
@[simp] theorem State.raise_mem (s : State) (c : ErrorCause) (w : Word) : (s.raise c w).mem = s.mem := rfl
@[simp] theorem State.raise_host (s : State) (c : ErrorCause) (w : Word) : (s.raise c w).host = s.host := rfl

/-! ### State.clearErrors -/

@[simp] theorem State.clearErrors_params (s : State) (v : Word) : (s.clearErrors v).params = s.params := rfl
@[simp] theorem State.clearErrors_regs (s : State) (v : Word) : (s.clearErrors v).regs = s.regs := rfl
@[simp] theorem State.clearErrors_prepared (s : State) (v : Word) : (s.clearErrors v).prepared = s.prepared := rfl
@[simp] theorem State.clearErrors_err (s : State) (v : Word) : (s.clearErrors v).err = { s.err with bits := s.err.bits &&& ~~~(v.extractLsb' 8 6) } := rfl
@[simp] theorem State.clearErrors_gen (s : State) (v : Word) : (s.clearErrors v).gen = s.gen := rfl
@[simp] theorem State.clearErrors_fOut (s : State) (v : Word) : (s.clearErrors v).fOut = s.fOut := rfl
@[simp] theorem State.clearErrors_fb (s : State) (v : Word) : (s.clearErrors v).fb = s.fb := rfl
@[simp] theorem State.clearErrors_mem (s : State) (v : Word) : (s.clearErrors v).mem = s.mem := rfl
@[simp] theorem State.clearErrors_host (s : State) (v : Word) : (s.clearErrors v).host = s.host := rfl

/-! ### State.setFilter -/

@[simp] theorem State.setFilter_params (s : State) (i : Nat) (f : Filter) : (s.setFilter i f).params = s.params := rfl
@[simp] theorem State.setFilter_regs (s : State) (i : Nat) (f : Filter) : (s.setFilter i f).regs = s.regs := rfl
@[simp] theorem State.setFilter_prepared (s : State) (i : Nat) (f : Filter) : (s.setFilter i f).prepared = s.prepared := rfl
@[simp] theorem State.setFilter_err (s : State) (i : Nat) (f : Filter) : (s.setFilter i f).err = s.err := rfl
@[simp] theorem State.setFilter_gen (s : State) (i : Nat) (f : Filter) : (s.setFilter i f).gen = s.gen := rfl
@[simp] theorem State.setFilter_fOut (s : State) (i : Nat) (f : Filter) : (s.setFilter i f).fOut = s.fOut := rfl
@[simp] theorem State.setFilter_fb (s : State) (i : Nat) (f : Filter) : (s.setFilter i f).fb = s.fb.set i f := rfl
@[simp] theorem State.setFilter_mem (s : State) (i : Nat) (f : Filter) : (s.setFilter i f).mem = s.mem := rfl
@[simp] theorem State.setFilter_host (s : State) (i : Nat) (f : Filter) : (s.setFilter i f).host = s.host := rfl

/-! ### State.setPrepared -/

@[simp] theorem State.setPrepared_params (s : State) : s.setPrepared.params = s.params := rfl
@[simp] theorem State.setPrepared_regs (s : State) : s.setPrepared.regs = s.regs := rfl
@[simp] theorem State.setPrepared_prepared (s : State) : s.setPrepared.prepared = true := rfl
@[simp] theorem State.setPrepared_err (s : State) : s.setPrepared.err = s.err := rfl
@[simp] theorem State.setPrepared_gen (s : State) : s.setPrepared.gen = s.gen := rfl
@[simp] theorem State.setPrepared_fOut (s : State) : s.setPrepared.fOut = s.fOut := rfl
@[simp] theorem State.setPrepared_fb (s : State) : s.setPrepared.fb = s.fb := rfl
@[simp] theorem State.setPrepared_mem (s : State) : s.setPrepared.mem = s.mem := rfl
@[simp] theorem State.setPrepared_host (s : State) : s.setPrepared.host = s.host := rfl

/-! ### State.logRead -/

@[simp] theorem State.logRead_params (s : State) (v : Word) : (s.logRead v).params = s.params := rfl
@[simp] theorem State.logRead_regs (s : State) (v : Word) : (s.logRead v).regs = s.regs := rfl
@[simp] theorem State.logRead_prepared (s : State) (v : Word) : (s.logRead v).prepared = s.prepared := rfl
@[simp] theorem State.logRead_err (s : State) (v : Word) : (s.logRead v).err = s.err := rfl
@[simp] theorem State.logRead_gen (s : State) (v : Word) : (s.logRead v).gen = s.gen := rfl
@[simp] theorem State.logRead_fOut (s : State) (v : Word) : (s.logRead v).fOut = s.fOut := rfl
@[simp] theorem State.logRead_fb (s : State) (v : Word) : (s.logRead v).fb = s.fb := rfl
@[simp] theorem State.logRead_mem (s : State) (v : Word) : (s.logRead v).mem = s.mem := rfl
@[simp] theorem State.logRead_host (s : State) (v : Word) : (s.logRead v).host = { s.host with reads := s.host.reads ++ [v] } := rfl

/-! ### State.withProgram -/

@[simp] theorem State.withProgram_params (s : State) (p : List Access) : (s.withProgram p).params = s.params := rfl
@[simp] theorem State.withProgram_regs (s : State) (p : List Access) : (s.withProgram p).regs = s.regs := rfl
@[simp] theorem State.withProgram_prepared (s : State) (p : List Access) : (s.withProgram p).prepared = s.prepared := rfl
@[simp] theorem State.withProgram_err (s : State) (p : List Access) : (s.withProgram p).err = s.err := rfl
@[simp] theorem State.withProgram_gen (s : State) (p : List Access) : (s.withProgram p).gen = s.gen := rfl
@[simp] theorem State.withProgram_fOut (s : State) (p : List Access) : (s.withProgram p).fOut = s.fOut := rfl
@[simp] theorem State.withProgram_fb (s : State) (p : List Access) : (s.withProgram p).fb = s.fb := rfl
@[simp] theorem State.withProgram_mem (s : State) (p : List Access) : (s.withProgram p).mem = s.mem := rfl
@[simp] theorem State.withProgram_host (s : State) (p : List Access) : (s.withProgram p).host = { s.host with pending := p } := rfl

/-! ### issueNext -/

@[simp] theorem issueNext_params (a : Access) (s : State) : (issueNext a s).params = s.params := rfl
@[simp] theorem issueNext_regs (a : Access) (s : State) : (issueNext a s).regs = s.regs := rfl
@[simp] theorem issueNext_prepared (a : Access) (s : State) : (issueNext a s).prepared = s.prepared := rfl
@[simp] theorem issueNext_err (a : Access) (s : State) : (issueNext a s).err = s.err := rfl
@[simp] theorem issueNext_gen (a : Access) (s : State) : (issueNext a s).gen = s.gen := rfl
@[simp] theorem issueNext_fOut (a : Access) (s : State) : (issueNext a s).fOut = s.fOut := rfl
@[simp] theorem issueNext_fb (a : Access) (s : State) : (issueNext a s).fb = s.fb := rfl
@[simp] theorem issueNext_mem (a : Access) (s : State) : (issueNext a s).mem = s.mem := rfl
@[simp] theorem issueNext_host (a : Access) (s : State) : (issueNext a s).host = { s.host with pending := a :: s.host.pending } := rfl

/-! ### commit -/

@[simp] theorem commit_params (L G : Nat) (tbl : List Pulse) (env : List Word) (decay : DWord) (final : Word) (s : State) : (commit L G tbl env decay final s).params = s.params := rfl
@[simp] theorem commit_regs (L G : Nat) (tbl : List Pulse) (env : List Word) (decay : DWord) (final : Word) (s : State) : (commit L G tbl env decay final s).regs = s.regs := rfl
@[simp] theorem commit_prepared (L G : Nat) (tbl : List Pulse) (env : List Word) (decay : DWord) (final : Word) (s : State) : (commit L G tbl env decay final s).prepared = true := rfl
@[simp] theorem commit_err (L G : Nat) (tbl : List Pulse) (env : List Word) (decay : DWord) (final : Word) (s : State) : (commit L G tbl env decay final s).err = s.err := rfl
@[simp] theorem commit_gen (L G : Nat) (tbl : List Pulse) (env : List Word) (decay : DWord) (final : Word) (s : State) : (commit L G tbl env decay final s).gen = 
      { seqlen := BitVec.ofNat 32 L
        grid := BitVec.ofNat 32 G
        npulses := BitVec.ofNat 32 tbl.length
        ringcap := BitVec.ofNat 32 (L + guardSamples)
        wptr := 0
        normgain := normGain env
        decay := decay
        lcgstate := final
        actMaxblk := s.regs.maxblk } := rfl
@[simp] theorem commit_fOut (L G : Nat) (tbl : List Pulse) (env : List Word) (decay : DWord) (final : Word) (s : State) : (commit L G tbl env decay final s).fOut = s.fOut := rfl
@[simp] theorem commit_fb (L G : Nat) (tbl : List Pulse) (env : List Word) (decay : DWord) (final : Word) (s : State) : (commit L G tbl env decay final s).fb = s.fb := rfl
@[simp] theorem commit_mem (L G : Nat) (tbl : List Pulse) (env : List Word) (decay : DWord) (final : Word) (s : State) : (commit L G tbl env decay final s).mem = commitTables L tbl env s.mem := rfl
@[simp] theorem commit_host (L G : Nat) (tbl : List Pulse) (env : List Word) (decay : DWord) (final : Word) (s : State) : (commit L G tbl env decay final s).host = s.host := rfl

/-! ### State.convolveBlock -/

@[simp] theorem State.convolveBlock_params (s : State) (N : Nat) : (s.convolveBlock N).params = s.params := rfl
@[simp] theorem State.convolveBlock_regs (s : State) (N : Nat) : (s.convolveBlock N).regs = s.regs := rfl
@[simp] theorem State.convolveBlock_prepared (s : State) (N : Nat) : (s.convolveBlock N).prepared = s.prepared := rfl
@[simp] theorem State.convolveBlock_err (s : State) (N : Nat) : (s.convolveBlock N).err = s.err := rfl
@[simp] theorem State.convolveBlock_gen (s : State) (N : Nat) : (s.convolveBlock N).gen = { s.gen with wptr := BitVec.ofNat 32 ((s.gen.wptr.toNat + N) % s.gen.ringcap.toNat) } := rfl
@[simp] theorem State.convolveBlock_fOut (s : State) (N : Nat) : (s.convolveBlock N).fOut = s.fOut := rfl
@[simp] theorem State.convolveBlock_fb (s : State) (N : Nat) : (s.convolveBlock N).fb = s.fb := rfl
@[simp] theorem State.convolveBlock_host (s : State) (N : Nat) : (s.convolveBlock N).host = s.host := rfl

/-! ### What the accessors read -/

/-- The arrays read the memory only, the filters the bank only. -/
theorem State.inbuf_congr {s t : State} (h : t.mem = s.mem) (i : Nat) : t.inbuf i = s.inbuf i := by
  rw [State.inbuf, State.inbuf, h]
theorem State.outbuf_congr {s t : State} (h : t.mem = s.mem) (i : Nat) : t.outbuf i = s.outbuf i := by
  rw [State.outbuf, State.outbuf, h]
theorem State.ring_congr {s t : State} (h : t.mem = s.mem) (i : Nat) : t.ring i = s.ring i := by
  rw [State.ring, State.ring, h]
theorem State.env_congr {s t : State} (h : t.mem = s.mem) (k : Nat) : t.env k = s.env k := by
  rw [State.env, State.env, h]
theorem State.pulse_congr {s t : State} (h : t.mem = s.mem) (k : Nat) : t.pulse k = s.pulse k := by
  rw [State.pulse, State.pulse, State.pulseWord, State.pulseWord, h]
theorem State.filter_congr {s t : State} (h : t.fb = s.fb) (i : Nat) : t.filter i = s.filter i := by
  rw [State.filter, State.filter, h]

/-- A filter written is the filter read; the others stay. -/
theorem State.filter_setFilter (s : State) (i j : Nat) (f : Filter) (h : i < s.fb.length) :
    (s.setFilter i f).filter j = if j = i then f else s.filter j := by
  unfold State.filter State.setFilter
  simp only [List.getD_eq_getElem?_getD, List.getElem?_set]
  by_cases hij : i = j
  · subst hij
    simp [h]
  · simp [hij, Ne.symm hij]

theorem State.filter_setFilter_of_ne (s : State) (i j : Nat) (f : Filter) (h : j ≠ i) :
    (s.setFilter i f).filter j = s.filter j := by
  unfold State.filter State.setFilter
  simp only [List.getD_eq_getElem?_getD, List.getElem?_set, if_neg (Ne.symm h)]

/-- An operand register written is the value read; the others stay (R31). -/
theorem OperandRegs.get_set (x : OperandRegs) (r q : OperandReg) (v : Word) :
    (x.set r v).get q = if q = r then v else x.get q := by
  cases r <;> cases q <;> rfl

end Sys2Proof.Machine
end

