-- ==== Sys2Proof/Laws/Errors.lean ====
section
/-! SUPPORT. What recording an error leaves in the record (spec/60_exceptions.md R281, R285). -/

namespace Sys2Proof.Machine

/-- An error as R281 has it: a sub-cause of E_CONFIG lies between 1 and 7. -/
def ErrorCause.Listed (c : ErrorCause) : Prop := ∀ sub, c = .config sub → 1 ≤ sub.toNat ∧ sub.toNat ≤ 7

theorem ErrorCause.listed_of_ne {c : ErrorCause} (h : ∀ sub, c ≠ .config sub) : c.Listed := fun sub hs => absurd hs (h sub)

theorem errorCode_bounds (c : ErrorCause) : 1 ≤ errorCode c ∧ errorCode c ≤ 6 := by cases c <;> simp [errorCode]

theorem recordError_code (c : ErrorCause) (info : Word) (e : ErrorRecord) :
    (recordError c info e).code.toNat = errorCode c + 2 ^ 8 * (errorSub c).toNat := by
  have h := errorCode_bounds c
  show (errorSub c ++ BitVec.ofNat 8 (errorCode c)).toNat = _
  rw [BitVec.toNat_append, BitVec.toNat_ofNat, Nat.mod_eq_of_lt (by omega), Nat.shiftLeft_eq,
    Nat.mul_comm, ← Nat.two_pow_add_eq_or_of_lt (by omega)]
  omega

theorem recordError_codeField (c : ErrorCause) (info : Word) (e : ErrorRecord) :
    (recordError c info e).codeField.toNat = errorCode c := by
  have h := errorCode_bounds c
  unfold ErrorRecord.codeField
  rw [BitVec.extractLsb'_toNat, recordError_code, Nat.shiftRight_zero]
  omega

theorem recordError_subField (c : ErrorCause) (info : Word) (e : ErrorRecord) :
    (recordError c info e).subField = errorSub c := by
  have h := errorCode_bounds c
  have hs := (errorSub c).isLt
  apply BitVec.eq_of_toNat_eq
  unfold ErrorRecord.subField
  rw [BitVec.extractLsb'_toNat, recordError_code, Nat.shiftRight_eq_div_pow]
  omega

theorem recordError_codeField_ne (c : ErrorCause) (info : Word) (e : ErrorRecord) :
    (recordError c info e).codeField ≠ 0 := by
  intro h
  have h1 := recordError_codeField c info e
  have h2 := errorCode_bounds c
  rw [h] at h1
  have : (0 : BitVec 8).toNat = 0 := rfl
  omega

/-- Any listed error leaves a legal record, whatever stood there before. -/
theorem recordError_legal {c : ErrorCause} (hc : c.Listed) (info : Word) (e : ErrorRecord) :
    ErrorRecordLegal (recordError c info e) := by
  have h1 := recordError_codeField c info e
  have h2 := errorCode_bounds c
  refine ⟨by omega, ?_, ?_, fun _ => recordError_codeField_ne c info e⟩
  · rw [recordError_subField]
    constructor
    · intro h
      apply BitVec.eq_of_toNat_eq
      rw [h1]
      cases c <;> first | rfl | exact absurd rfl h
    · intro h hs
      rw [h] at h1
      cases c with
      | config sub =>
        have h3 := (hc sub rfl).1
        have h4 : sub = 0 := hs
        rw [h4] at h3
        exact absurd h3 (by decide)
      | _ => exact absurd h1 (by decide)
  · rw [recordError_subField]
    cases c with
    | config sub => exact (hc sub rfl).2
    | _ => decide

end Sys2Proof.Machine
end

