-- ==== Sys2Proof/Laws/Memory.lean ====
section
/-! SUPPORT. What the memory operations do: one byte, one word, a string of words, and that each keeps the canonical form. -/

namespace Sys2Proof.Machine

/-! ### Bytes -/

theorem Memory.find_insert (a b : Nat) (v : Byte) (m : Memory) :
    Memory.find a (Memory.insert b v m) = if a = b then some v else Memory.find a m := by
  induction m with
  | nil => simp only [Memory.insert, Memory.find, eq_comm]
  | cons c m ih =>
    simp only [Memory.insert]
    split
    · simp only [Memory.find, eq_comm]
    · split
      · rename_i h
        simp only [Memory.find, h]
        by_cases hab : b = a
        · simp [hab]
        · simp [hab, Ne.symm hab]
      · rename_i h
        simp only [Memory.find, ih]
        by_cases hab : a = b
        · subst hab
          simp [h]
        · simp [hab]

theorem Memory.find_erase (a b : Nat) (m : Memory) :
    Memory.find a (Memory.erase b m) = if a = b then none else Memory.find a m := by
  induction m with
  | nil => simp [Memory.erase, Memory.find]
  | cons c m ih =>
    unfold Memory.erase at ih ⊢
    by_cases hc : c.1 = b
    · rw [List.filter_cons_of_neg (by simp [hc]), ih]
      by_cases hab : a = b
      · simp [hab]
      · have : c.1 ≠ a := by omega
        simp [hab, Memory.find, this]
    · rw [List.filter_cons_of_pos (by simp [hc])]
      simp only [Memory.find, ih]
      by_cases hab : a = b
      · subst hab
        simp [hc]
      · simp [hab]

/-- Writing one byte sets that byte and leaves every other byte. -/
theorem Memory.readByte_writeByte (m : Memory) (b : Nat) (v : Byte) (a : Nat) :
    (m.writeByte b v).readByte a = if a = b then v else m.readByte a := by
  unfold Memory.readByte Memory.writeByte
  by_cases h : Memory.fixedDefault b = some v
  · rw [if_pos h, Memory.find_erase]
    by_cases hab : a = b
    · subst hab
      simp [Memory.unlisted, h]
    · simp [hab]
  · rw [if_neg h, Memory.find_insert]
    by_cases hab : a = b <;> simp [hab]

/-! ### Words -/

/-- The four bytes of a word put together again are the word. -/
theorem wordOfBytes_byteLane (w : Word) :
    wordOfBytes (byteLane w 0) (byteLane w 1) (byteLane w 2) (byteLane w 3) = w := by
  apply BitVec.eq_of_getLsbD_eq
  intro i hi
  simp only [wordOfBytes, byteLane, BitVec.getLsbD_append, BitVec.getLsbD_extractLsb']
  by_cases h0 : i < 8
  · simp [h0]
  · by_cases h1 : i < 16
    · simp [h0, show i - 8 < 8 by omega, show 8 + (i - 8) = i by omega]
    · by_cases h2 : i < 24
      · simp [h0, show ¬(i - 8 < 8) by omega, show i - 8 - 8 < 8 by omega, show 16 + (i - 8 - 8) = i by omega]
      · simp [h0, show ¬(i - 8 < 8) by omega, show ¬(i - 8 - 8 < 8) by omega, show i - 8 - 8 - 8 < 8 by omega,
          show 24 + (i - 8 - 8 - 8) = i by omega]

/-- Writing a word changes its four bytes only. -/
theorem Memory.readByte_writeWord_of_ne (m : Memory) (b : Nat) (w : Word) (a : Nat) (h : a < b ∨ b + 4 ≤ a) :
    (m.writeWord b w).readByte a = m.readByte a := by
  unfold Memory.writeWord
  simp only [Memory.readByte_writeByte]
  rw [if_neg (by omega), if_neg (by omega), if_neg (by omega), if_neg (by omega)]

/-- A word written is the word read there. -/
@[simp] theorem Memory.readWord_writeWord (m : Memory) (a : Nat) (w : Word) : (m.writeWord a w).readWord a = w := by
  unfold Memory.readWord Memory.writeWord
  simp only [Memory.readByte_writeByte]
  simp [wordOfBytes_byteLane]

/-- Writing a word leaves every word that does not overlap it. -/
theorem Memory.readWord_writeWord_of_ne (m : Memory) (b : Nat) (w : Word) (a : Nat) (h : a + 4 ≤ b ∨ b + 4 ≤ a) :
    (m.writeWord b w).readWord a = m.readWord a := by
  unfold Memory.readWord
  rw [readByte_writeWord_of_ne _ _ _ _ (by omega), readByte_writeWord_of_ne _ _ _ _ (by omega),
    readByte_writeWord_of_ne _ _ _ _ (by omega), readByte_writeWord_of_ne _ _ _ _ (by omega)]

/-- A word is settled by its four bytes. -/
theorem Memory.readWord_congr {m m' : Memory} {a : Nat}
    (h : ∀ b, a ≤ b → b < a + 4 → m'.readByte b = m.readByte b) : m'.readWord a = m.readWord a := by
  unfold Memory.readWord
  rw [h a (by omega) (by omega), h (a + 1) (by omega) (by omega), h (a + 2) (by omega) (by omega),
    h (a + 3) (by omega) (by omega)]

/-! ### Strings of words -/

/-- Writing a string of words changes its own bytes only. -/
theorem Memory.readByte_writeWords_of_ne (ws : List Word) :
    ∀ (m : Memory) (b a : Nat), a < b ∨ b + 4 * ws.length ≤ a → (m.writeWords b ws).readByte a = m.readByte a := by
  induction ws with
  | nil => intro m b a _; rfl
  | cons w ws ih =>
    intro m b a h
    simp only [List.length_cons] at h
    rw [Memory.writeWords, ih _ _ _ (by omega), readByte_writeWord_of_ne _ _ _ _ (by omega)]

/-- Writing a string of words leaves every word that does not overlap it. -/
theorem Memory.readWord_writeWords_of_ne (ws : List Word) (m : Memory) (b a : Nat)
    (h : a + 4 ≤ b ∨ b + 4 * ws.length ≤ a) : (m.writeWords b ws).readWord a = m.readWord a :=
  Memory.readWord_congr fun c h1 h2 => readByte_writeWords_of_ne ws m b c (by omega)

/-- Entry i of a string of words written from offset b up. -/
theorem Memory.readWord_writeWords (ws : List Word) :
    ∀ (m : Memory) (b i : Nat) (h : i < ws.length), (m.writeWords b ws).readWord (b + 4 * i) = ws[i] := by
  induction ws with
  | nil => intro m b i h; simp at h
  | cons w ws ih =>
    intro m b i h
    cases i with
    | zero =>
      rw [Memory.writeWords, readWord_writeWords_of_ne _ _ _ _ (by omega)]
      simp
    | succ i =>
      rw [Memory.writeWords]
      have := ih (m.writeWord b w) (b + 4) i (by simpa using h)
      rw [show b + 4 * (i + 1) = b + 4 + 4 * i by omega, this]
      simp

/-! ### Clearing -/

theorem Memory.find_filter_addr (p : Nat → Bool) (a : Nat) (m : Memory) :
    Memory.find a (m.filter fun c => p c.1) = if p a then Memory.find a m else none := by
  induction m with
  | nil => simp [Memory.find]
  | cons c m ih =>
    by_cases hc : p c.1
    · rw [List.filter_cons_of_pos (by simpa using hc)]
      simp only [Memory.find, ih]
      by_cases h : c.1 = a
      · subst h
        simp [hc]
      · simp [h]
    · rw [List.filter_cons_of_neg (by simpa using hc), ih]
      by_cases h : c.1 = a
      · subst h
        simp [hc]
      · simp [Memory.find, h]

/-- Clearing words makes their bytes read as unlisted and leaves every other byte. -/
theorem Memory.readByte_clearWords (m : Memory) (b n a : Nat) :
    (m.clearWords b n).readByte a = if b ≤ a ∧ a < b + 4 * n then Memory.unlisted a else m.readByte a := by
  unfold Memory.clearWords Memory.readByte
  rw [Memory.find_filter_addr (fun x => !(decide (b ≤ x) && decide (x < b + 4 * n)))]
  by_cases h : b ≤ a ∧ a < b + 4 * n
  · rw [if_pos h, decide_eq_true h.1, decide_eq_true h.2]
    rfl
  · have h' : (!(decide (b ≤ a) && decide (a < b + 4 * n))) = true := by
      rw [← Bool.decide_and, decide_eq_false h]
      rfl
    rw [if_neg h, h']
    rfl

/-- Outside the sample buffers an unlisted byte is 0. -/
theorem Memory.unlisted_eq_zero {a : Nat} (h : a < 0x10000 ∨ 0x30000 ≤ a) : Memory.unlisted a = 0 := by
  have : ¬(0x10000 ≤ a ∧ a < 0x30000) := by omega
  unfold Memory.unlisted Memory.fixedDefault
  rw [if_neg this]

theorem wordOfBytes_zero : wordOfBytes 0 0 0 0 = 0 := by decide

/-- A cleared word outside the sample buffers reads 0. -/
theorem Memory.readWord_clearWords (m : Memory) (b n i : Nat) (hb : 0x30000 ≤ b) (h : i < n) :
    (m.clearWords b n).readWord (b + 4 * i) = 0 := by
  unfold Memory.readWord
  simp only [readByte_clearWords]
  rw [if_pos (by omega), if_pos (by omega), if_pos (by omega), if_pos (by omega)]
  simp only [unlisted_eq_zero (Or.inr (show 0x30000 ≤ b + 4 * i by omega)),
    unlisted_eq_zero (Or.inr (show 0x30000 ≤ b + 4 * i + 1 by omega)),
    unlisted_eq_zero (Or.inr (show 0x30000 ≤ b + 4 * i + 2 by omega)),
    unlisted_eq_zero (Or.inr (show 0x30000 ≤ b + 4 * i + 3 by omega)), wordOfBytes_zero]

/-- Clearing leaves every word that it does not overlap. -/
theorem Memory.readWord_clearWords_of_ne (m : Memory) (b n a : Nat) (h : a + 4 ≤ b ∨ b + 4 * n ≤ a) :
    (m.clearWords b n).readWord a = m.readWord a :=
  Memory.readWord_congr fun c h1 h2 => by rw [readByte_clearWords, if_neg (by omega)]

/-! ### The canonical form -/

theorem Memory.wf_nil : Memory.wf [] = true := rfl

theorem Memory.wf_cons {c : Host.Cell} {m : Memory} :
    Memory.wf (c :: m) = true ↔
      Memory.fixedDefault c.1 ≠ some c.2 ∧ (∀ d ∈ m, c.1 < d.1) ∧ Memory.wf m = true := by
  simp [Memory.wf, and_assoc]

theorem Memory.wf_filter (p : Host.Cell → Bool) {m : Memory} (h : m.wf = true) :
    Memory.wf (m.filter p) = true := by
  induction m with
  | nil => rfl
  | cons c m ih =>
    rw [wf_cons] at h
    rw [List.filter_cons]
    split
    · rw [wf_cons]
      exact ⟨h.1, fun d hd => h.2.1 d (List.mem_filter.1 hd).1, ih h.2.2⟩
    · exact ih h.2.2

theorem Memory.mem_insert {a : Nat} {v : Byte} {m : Memory} {d : Host.Cell} (h : d ∈ Memory.insert a v m) :
    d = (a, v) ∨ d ∈ m := by
  induction m with
  | nil => simpa [Memory.insert] using h
  | cons c m ih =>
    unfold Memory.insert at h
    split at h
    · simpa using h
    · split at h
      · rcases List.mem_cons.1 h with h | h
        · exact .inl h
        · exact .inr (List.mem_cons_of_mem _ h)
      · rcases List.mem_cons.1 h with h | h
        · exact .inr (by simp [h])
        · rcases ih h with h | h
          · exact .inl h
          · exact .inr (List.mem_cons_of_mem _ h)

theorem Memory.wf_insert {a : Nat} {v : Byte} {m : Memory} (hm : m.wf = true)
    (hv : Memory.fixedDefault a ≠ some v) : Memory.wf (Memory.insert a v m) = true := by
  induction m with
  | nil => rw [Memory.insert, wf_cons]; exact ⟨hv, by simp, rfl⟩
  | cons c m ih =>
    have hc := wf_cons.1 hm
    unfold Memory.insert
    split
    · rename_i hlt
      rw [wf_cons]
      refine ⟨hv, fun d hd => ?_, hm⟩
      rcases List.mem_cons.1 hd with rfl | hd
      · exact hlt
      · exact lt_trans hlt (hc.2.1 d hd)
    · split
      · rename_i heq
        rw [wf_cons]
        exact ⟨hv, fun d hd => heq ▸ hc.2.1 d hd, hc.2.2⟩
      · rename_i hnlt hne
        rw [wf_cons]
        refine ⟨hc.1, fun d hd => ?_, ih hc.2.2⟩
        rcases mem_insert hd with rfl | hd
        · exact lt_of_le_of_ne (not_lt.1 hnlt) hne
        · exact hc.2.1 d hd

theorem Memory.wf_writeByte {m : Memory} (h : m.wf = true) (a : Nat) (v : Byte) : (m.writeByte a v).wf = true := by
  unfold Memory.writeByte
  split
  · exact wf_filter _ h
  · rename_i hv
    exact wf_insert h hv

theorem Memory.wf_writeWord {m : Memory} (h : m.wf = true) (a : Nat) (w : Word) : (m.writeWord a w).wf = true :=
  wf_writeByte (wf_writeByte (wf_writeByte (wf_writeByte h _ _) _ _) _ _) _ _

theorem Memory.wf_writeWords (ws : List Word) :
    ∀ {m : Memory} (_ : m.wf = true) (a : Nat), (m.writeWords a ws).wf = true := by
  induction ws with
  | nil => intro m h a; exact h
  | cons w ws ih => intro m h a; exact ih (wf_writeWord h a w) _

theorem Memory.wf_clearWords {m : Memory} (h : m.wf = true) (a n : Nat) : (m.clearWords a n).wf = true :=
  wf_filter _ h

end Sys2Proof.Machine
end

