-- ==== Sys2Proof/Laws/Convolver.lean ====
section
/-! SUPPORT. What CONVOLVE's parts do: step 1 (spec/41_convolver.md R202), the fold of R205, and the whole block of R200. -/

namespace Sys2Proof.Machine

/-! ### The windows do not overlap -/

theorem inbufAddr_eq (i : Nat) : inbufAddr i = 0x10000 + 4 * i := rfl
theorem outbufAddr_eq (i : Nat) : outbufAddr i = 0x20000 + 4 * i := rfl
theorem pulseAddr_eq (i : Nat) : pulseAddr i = 0x30000 + 4 * i := rfl
theorem envAddr_eq (i : Nat) : envAddr i = 0x40000 + 4 * i := rfl
theorem ringAddr_eq (i : Nat) : ringAddr i = 0x80000 + 4 * i := rfl

/-! ### Step 1 (R202) -/

/-- Step 1 writes the ring in use only. -/
theorem readByte_writeInputs_of_ne {C : Nat} (hC : 0 < C) (wp0 a : Nat) (h : a < 0x80000 ∨ 0x80000 + 4 * C ≤ a) :
    ∀ (n i : Nat) (m : Memory), (writeInputs C wp0 n i m).readByte a = m.readByte a := by
  intro n
  induction n with
  | zero => intro i m; rfl
  | succ n ih =>
    intro i m
    have hlt := Nat.mod_lt (wp0 + i) hC
    rw [writeInputs, ih, Memory.readByte_writeWord_of_ne]
    rw [ringAddr_eq]
    omega

theorem readWord_writeInputs_of_ne {C : Nat} (hC : 0 < C) (wp0 a : Nat) (h : a + 4 ≤ 0x80000 ∨ 0x80000 + 4 * C ≤ a)
    (n i : Nat) (m : Memory) : (writeInputs C wp0 n i m).readWord a = m.readWord a :=
  Memory.readWord_congr fun b h1 h2 => readByte_writeInputs_of_ne hC wp0 b (by omega) n i m

/-- A slot no sample of the block falls into keeps its value. -/
theorem ring_writeInputs_of_ne {C : Nat} (wp0 j : Nat) :
    ∀ (n i : Nat) (m : Memory), (∀ k, i ≤ k → k < i + n → (wp0 + k) % C ≠ j) →
      (writeInputs C wp0 n i m).readWord (ringAddr j) = m.readWord (ringAddr j) := by
  intro n
  induction n with
  | zero => intro i m _; rfl
  | succ n ih =>
    intro i m h
    rw [writeInputs, ih _ _ (fun k h1 h2 => h k (by omega) (by omega)), Memory.readWord_writeWord_of_ne]
    have := h i le_rfl (by omega)
    rw [ringAddr_eq, ringAddr_eq]
    omega

/-- The last sample that falls into a slot is what the slot holds (R202, R216). -/
theorem ring_writeInputs {C : Nat} (wp0 : Nat) :
    ∀ (n i : Nat) (m : Memory) (k : Nat), i + n ≤ 0x1C000 → i ≤ k → k < i + n →
      (∀ k', k < k' → k' < i + n → (wp0 + k') % C ≠ (wp0 + k) % C) →
      (writeInputs C wp0 n i m).readWord (ringAddr ((wp0 + k) % C)) = m.readWord (inbufAddr k) := by
  intro n
  induction n with
  | zero => intro i m k _ h1 h2; omega
  | succ n ih =>
    intro i m k hb h1 h2 hlast
    rw [writeInputs]
    rcases Nat.eq_or_lt_of_le h1 with rfl | hlt
    · rw [ring_writeInputs_of_ne wp0 _ n _ _ (fun k' h3 h4 => hlast k' (by omega) (by omega)), Memory.readWord_writeWord]
    · rw [ih (i + 1) _ k (by omega) (by omega) (by omega) (fun k' h3 h4 => hlast k' h3 (by omega)),
        Memory.readWord_writeWord_of_ne]
      rw [inbufAddr_eq, ringAddr_eq]
      omega

theorem wf_writeInputs (C wp0 : Nat) :
    ∀ (n i : Nat) {m : Memory} (_ : m.wf = true), (writeInputs C wp0 n i m).wf = true := by
  intro n
  induction n with
  | zero => intro i m h; exact h
  | succ n ih => intro i m h; exact ih _ (Memory.wf_writeWord h _ _)

/-- The samples two blocks write, written in one go. -/
theorem writeInputs_add (C wp0 : Nat) :
    ∀ (a b i : Nat) (m : Memory),
      writeInputs C wp0 (a + b) i m = writeInputs C wp0 b (i + a) (writeInputs C wp0 a i m) := by
  intro a
  induction a with
  | zero => intro b i m; simp [writeInputs]
  | succ a ih =>
    intro b i m
    rw [show a + 1 + b = (a + b) + 1 by omega, writeInputs, writeInputs, ih, show i + 1 + a = i + (a + 1) by omega]

/-! ### Reduced ring positions -/

/-- Samples fewer than the capacity apart fall into different slots. -/
theorem mod_ne_of_lt {C wp0 n n' : Nat} (h : n < n') (hlt : n' < n + C) : (wp0 + n') % C ≠ (wp0 + n) % C := by
  intro heq
  have h1 : C ∣ (wp0 + n') - (wp0 + n) := (Nat.modEq_iff_dvd' (by omega)).1 heq.symm
  have h2 := Nat.le_of_dvd (by omega) h1
  omega

/-- A ring slot lies in the ring. -/
theorem ringSlot_lt {C : Nat} (hC : 0 < C) (wp0 n pos : Nat) : ringSlot C wp0 n pos < C := by
  unfold ringSlot
  have h1 := Int.emod_nonneg ((wp0 : ℤ) + n - pos) (by omega : (C : ℤ) ≠ 0)
  have h2 := Int.emod_lt_of_pos ((wp0 : ℤ) + n - pos) (by omega : (0 : ℤ) < C)
  omega

/-- The slot of the newest samples: sample n of the block itself. -/
theorem ringSlot_of_le {C wp0 n pos : Nat} (h : pos ≤ n) : ringSlot C wp0 n pos = (wp0 + (n - pos)) % C := by
  unfold ringSlot
  have : ((wp0 : ℤ) + n - pos) = ((wp0 + (n - pos) : Nat) : ℤ) := by omega
  rw [this]
  norm_cast

/-- Slots depend on the difference of position and sample only. -/
theorem ringSlot_congr (C wp0 : Nat) {n pos n' pos' : Nat} (h : (n : ℤ) - pos = n' - pos') :
    ringSlot C wp0 n pos = ringSlot C wp0 n' pos' := by
  unfold ringSlot
  rw [show (wp0 : ℤ) + n - pos = wp0 + n' - pos' by omega]

/-- Slots taken relative to a write pointer that has moved on. -/
theorem ringSlot_shift {C : Nat} (wp0 N n pos : Nat) : ringSlot C ((wp0 + N) % C) n pos = ringSlot C wp0 (N + n) pos := by
  unfold ringSlot
  congr 1
  push_cast
  rw [show (wp0 : ℤ) + ((N : ℤ) + n) - pos = (wp0 + N : ℤ) + (n - pos) by ring,
    show ((wp0 : ℤ) + N) % C + n - pos = ((wp0 : ℤ) + N) % C + (n - pos) by ring, Int.emod_add_emod]

/-! ### The block (R200) -/

theorem State.convolveBlock_mem (s : State) (N : Nat) :
    (s.convolveBlock N).mem =
      (writeInputs s.gen.ringcap.toNat s.gen.wptr.toNat N 0 s.mem).writeWords (outbufAddr 0)
        ((List.range N).map (State.convolveOutput
          { s with mem := writeInputs s.gen.ringcap.toNat s.gen.wptr.toNat N 0 s.mem }
          s.gen.ringcap.toNat s.gen.wptr.toNat)) := rfl

/-- CONVOLVE writes the ring in use and its own outputs only. -/
theorem State.readByte_convolveBlock (s : State) {N : Nat} (hC : 0 < s.gen.ringcap.toNat) (a : Nat)
    (h1 : a < 0x20000 ∨ 0x20000 + 4 * N ≤ a) (h2 : a < 0x80000 ∨ 0x80000 + 4 * s.gen.ringcap.toNat ≤ a) :
    (s.convolveBlock N).mem.readByte a = s.mem.readByte a := by
  rw [State.convolveBlock_mem, Memory.readByte_writeWords_of_ne, readByte_writeInputs_of_ne hC _ _ h2]
  rw [outbufAddr_eq, List.length_map, List.length_range]
  omega

/-- The ring after CONVOLVE is the ring after step 1. -/
theorem State.ring_convolveBlock (s : State) {N : Nat} (hN : N ≤ 0x18000) (j : Nat) :
    (s.convolveBlock N).ring j =
      (writeInputs s.gen.ringcap.toNat s.gen.wptr.toNat N 0 s.mem).readWord (ringAddr j) := by
  unfold State.ring
  rw [State.convolveBlock_mem, Memory.readWord_writeWords_of_ne]
  rw [outbufAddr_eq, ringAddr_eq, List.length_map, List.length_range]
  omega

theorem State.pulseWord_convolveBlock (s : State) {N : Nat} (hC : 0 < s.gen.ringcap.toNat) (hN : N ≤ 0x4000) {k : Nat}
    (hk : k < 0x4000) : (s.convolveBlock N).pulseWord k = s.pulseWord k := by
  refine Memory.readWord_congr fun b h1 h2 => ?_
  rw [pulseAddr_eq] at h1 h2
  exact State.readByte_convolveBlock s hC b (by omega) (by omega)

theorem State.env_convolveBlock (s : State) {N : Nat} (hC : 0 < s.gen.ringcap.toNat) (hN : N ≤ 0x4000) {k : Nat}
    (hk : k < 0x4000) : (s.convolveBlock N).env k = s.env k := by
  refine Memory.readWord_congr fun b h1 h2 => ?_
  rw [envAddr_eq] at h1 h2
  exact State.readByte_convolveBlock s hC b (by omega) (by omega)

theorem State.inbuf_convolveBlock (s : State) {N : Nat} (hC : 0 < s.gen.ringcap.toNat) {n : Nat}
    (hn : n < 0x4000) : (s.convolveBlock N).inbuf n = s.inbuf n := by
  refine Memory.readWord_congr fun b h1 h2 => ?_
  rw [inbufAddr_eq] at h1 h2
  exact State.readByte_convolveBlock s hC b (by omega) (by omega)

/-- The tables, read before or after step 1, are the same. -/
theorem State.pulseCoeff_written (s : State) {C : Nat} (hC : 0 < C) (wp0 N : Nat) {k : Nat} (hk : k < 0x4000) :
    State.pulseCoeff { s with mem := writeInputs C wp0 N 0 s.mem } k = s.pulseCoeff k ∧
    State.pulse { s with mem := writeInputs C wp0 N 0 s.mem } k = s.pulse k := by
  have hp : State.pulse { s with mem := writeInputs C wp0 N 0 s.mem } k = s.pulse k := by
    unfold State.pulse State.pulseWord
    simp only []
    rw [readWord_writeInputs_of_ne hC _ _ (by rw [pulseAddr_eq]; omega)]
  have he : State.env { s with mem := writeInputs C wp0 N 0 s.mem } k = s.env k := by
    unfold State.env
    simp only []
    rw [readWord_writeInputs_of_ne hC _ _ (by rw [envAddr_eq]; omega)]
  refine ⟨?_, hp⟩
  unfold State.pulseCoeff
  rw [hp, he]

/-- One output of the block: the fold over the pulses, each reading the ring the block leaves (R205, R206). -/
theorem State.outbuf_convolveBlock (s : State) {N n : Nat} (hn : n < N) (hN : N ≤ 0x4000)
    (hC : 0 < s.gen.ringcap.toNat) (hP : s.gen.npulses.toNat ≤ 0x4000) :
    (s.convolveBlock N).outbuf n =
      (List.range s.gen.npulses.toNat).foldl
        (fun acc k =>
          if culled (s.pulseCoeff k) then acc
          else add32 acc (mul32 (s.pulseCoeff k) ((s.convolveBlock N).ring
            (ringSlot s.gen.ringcap.toNat s.gen.wptr.toNat n (s.pulse k).pos.toNat))))
        zero32 := by
  have hlen : n < ((List.range N).map (State.convolveOutput
      { s with mem := writeInputs s.gen.ringcap.toNat s.gen.wptr.toNat N 0 s.mem }
      s.gen.ringcap.toNat s.gen.wptr.toNat)).length := by simpa using hn
  have h1 : (s.convolveBlock N).outbuf n =
      State.convolveOutput { s with mem := writeInputs s.gen.ringcap.toNat s.gen.wptr.toNat N 0 s.mem }
        s.gen.ringcap.toNat s.gen.wptr.toNat n := by
    unfold State.outbuf
    rw [State.convolveBlock_mem, show outbufAddr n = outbufAddr 0 + 4 * n by simp [outbufAddr_eq],
      Memory.readWord_writeWords _ _ _ _ hlen]
    simp
  rw [h1]
  unfold State.convolveOutput
  apply List.foldl_ext
  intro acc k hk
  have hk' : k < 0x4000 := lt_of_lt_of_le (List.mem_range.1 hk) hP
  obtain ⟨hc, hp⟩ := s.pulseCoeff_written hC s.gen.wptr.toNat N hk'
  unfold State.accumulate
  simp only [hc, hp, State.ring_convolveBlock s (show N ≤ 0x18000 by omega)]
  rfl

/-- What the invariant gives a prepared block (R65): the sizes the lemmas above ask for. -/
theorem State.Inv.sizes {s : State} (h : s.Inv) (hp : s.prepared = true) :
    0 < s.gen.ringcap.toNat ∧ s.gen.ringcap.toNat ≤ 0x10000 ∧ s.gen.npulses.toNat ≤ 0x4000 ∧
      s.gen.actMaxblk.toNat ≤ 0x4000 ∧ s.gen.wptr.toNat < s.gen.ringcap.toNat := by
  have ht := h.prepared hp
  obtain ⟨-, ⟨-, h2⟩, ⟨-, h4⟩, ⟨-, h6⟩, -⟩ := h.legal
  have := ht.wptr_lt
  have := ht.ringcap_le
  have := ht.npulses_le
  have := ht.maxblk_le
  refine ⟨?_, ?_, ?_, ?_, ?_⟩ <;> omega

/-- CONVOLVE that passes its two checks (R201). -/
theorem runConvolve_accepted {w : Word} {s : State} (hp : s.prepared = true)
    (hn : s.regs.nsamp.toNat ≤ s.gen.actMaxblk.toNat) : runConvolve w s = s.convolveBlock s.regs.nsamp.toNat := by
  unfold runConvolve
  rw [if_neg (by simp [hp]), if_neg (by omega)]

end Sys2Proof.Machine
end

