-- ==== Sys2Proof/Laws/Generator.lean ====
section
/-! SUPPORT. What a generation's parts do: the draws (spec/40_generator.md R160 to R162, R183), the pulse list (R168, R177), the checks
(R164) and the commit (R173). -/

namespace Sys2Proof.Machine

/-! ### Draws -/

theorem lcgIter_succ' (n : Nat) : ∀ s : Word, lcgIter (n + 1) s = lcg (lcgIter n s) := by
  induction n with
  | zero => intro s; rfl
  | succ n ih => intro s; rw [lcgIter, ih, lcgIter]

theorem lcgIter_add (a b : Nat) (s : Word) : lcgIter (a + b) s = lcgIter b (lcgIter a s) := by
  induction a generalizing s with
  | zero => simp [lcgIter]
  | succ a ih => rw [show a + 1 + b = (a + b) + 1 by omega, lcgIter, ih, lcgIter]

/-- Each draw flips the low bit (R178). -/
theorem lcg_parity (s : Word) : (lcg s).toNat % 2 = 1 - s.toNat % 2 := by
  unfold lcg
  rw [BitVec.toNat_add, BitVec.toNat_mul]
  have h1 : BitVec.toNat (1664525 : Word) = 1664525 := rfl
  have h2 : BitVec.toNat (1013904223 : Word) = 1013904223 := rfl
  rw [h1, h2]
  omega

theorem lcgIter_parity (n : Nat) (s : Word) : (lcgIter n s).toNat % 2 = (s.toNat + n) % 2 := by
  induction n with
  | zero => simp [lcgIter]
  | succ n ih =>
    rw [lcgIter_succ', lcg_parity, ih]
    omega

/-! ### The pulse list (R168) -/

/-- The pulse of cell m + i, for a list that starts at cell m from working state s. -/
def cellPulse (G m : Nat) (s : Word) (i : Nat) : Pulse :=
  { pos := BitVec.ofNat 31 ((m + i) * G + (lcgIter (2 * i + 1) s).toNat % G)
    neg := (lcgIter (2 * i + 2) s).msb }

/-- Two draws a cell, whether or not its pulse is stored (R162, R183). -/
theorem placePulses_final (L G : Nat) : ∀ (cells m : Nat) (s : Word),
    (placePulses L G cells m s).2 = lcgIter (2 * cells) s := by
  intro cells
  induction cells with
  | zero => intro m s; rfl
  | succ cells ih =>
    intro m s
    rw [placePulses]
    simp only [ih, drawPulse]
    rw [show 2 * (cells + 1) = 2 * cells + 1 + 1 by omega, lcgIter, lcgIter]

/-- Where the cells end at or before L, every pulse is stored (R177). -/
theorem placePulses_list (L G : Nat) (hG : 0 < G) : ∀ (cells m : Nat) (s : Word), (m + cells) * G ≤ L →
    (placePulses L G cells m s).1 = (List.range cells).map (cellPulse G m s) := by
  intro cells
  induction cells with
  | zero => intro m s _; rfl
  | succ cells ih =>
    intro m s h
    have hmod := Nat.mod_lt (lcg s).toNat hG
    have hlt : m * G + (lcg s).toNat % G < L := by
      calc m * G + (lcg s).toNat % G < m * G + G := by omega
        _ = (m + 1) * G := by ring
        _ ≤ (m + (cells + 1)) * G := Nat.mul_le_mul_right _ (by omega)
        _ ≤ L := h
    have hstep : (placePulses L G (cells + 1) m s).1 =
        { pos := BitVec.ofNat 31 (m * G + (lcg s).toNat % G), neg := (lcg (lcg s)).msb } ::
          (placePulses L G cells (m + 1) (lcg (lcg s))).1 := by
      show (if m * G + (lcg s).toNat % G < L then _ else _) = _
      rw [if_pos hlt]
      rfl
    rw [hstep, ih (m + 1) _ (by rw [show m + 1 + cells = m + (cells + 1) by omega]; exact h),
      List.range_succ_eq_map, List.map_cons, List.map_map]
    congr 1
    apply List.map_congr_left
    intro i _
    simp only [Function.comp, cellPulse]
    rw [show m + 1 + i = m + (i + 1) by omega, show 2 * (i + 1) + 1 = (2 * i + 1) + 1 + 1 by omega,
      show 2 * (i + 1) + 2 = (2 * i + 2) + 1 + 1 by omega]
    rfl

/-- The position of a stored pulse, as a number, lies in its cell (R176). -/
theorem cellPulse_pos {G : Nat} (hG : 0 < G) {L m i : Nat} (s : Word) (h : (m + i + 1) * G ≤ L) (hL : L ≤ 2 ^ 31) :
    (cellPulse G m s i).pos.toNat = (m + i) * G + (lcgIter (2 * i + 1) s).toNat % G := by
  have hmod := Nat.mod_lt (lcgIter (2 * i + 1) s).toNat hG
  unfold cellPulse
  rw [BitVec.toNat_ofNat, Nat.mod_eq_of_lt]
  have : (m + i + 1) * G = (m + i) * G + G := by ring
  omega

theorem pulseOfWord_pulseToWord (p : Pulse) : pulseOfWord (pulseToWord p) = p := by
  obtain ⟨pos, neg⟩ := p
  unfold pulseOfWord pulseToWord
  congr 1
  · apply BitVec.eq_of_getLsbD_eq
    intro i hi
    simp only [BitVec.getLsbD_extractLsb', BitVec.getLsbD_append]
    simp [hi]
  · rw [BitVec.msb_append]
    simp

/-! ### The checks (R164) -/

/-- The number a pulse's word stands for: NEG above 31 bits of POS (R129). -/
theorem pulseToWord_toNat (p : Pulse) : (pulseToWord p).toNat = (if p.neg then 2 ^ 31 else 0) + p.pos.toNat := by
  have h := p.pos.isLt
  show (BitVec.ofBool p.neg ++ p.pos).toNat = _
  rw [BitVec.toNat_append, Nat.shiftLeft_eq, Nat.mul_comm, ← Nat.two_pow_add_eq_or_of_lt h]
  cases p.neg <;> simp

/-- What an accepted generation knows of its sizes. -/
theorem validate_sizes {p : Params} {sr dur dens : DWord} {mb : Word} (hp : p.Legal)
    (h : validate p sr dur dens mb = none) :
    (1 ≤ mb.toNat ∧ mb.toNat ≤ p.blockMax) ∧ seqLength sr dur + 256 ≤ p.ringMax ∧
      (1 ≤ gridSize sr dens ∧ gridSize sr dens < 2 ^ 31) ∧ seqLength sr dur / gridSize sr dens ≤ p.pulseMax := by
  unfold validate at h
  split at h
  · cases h
  split at h
  · cases h
  split at h
  · cases h
  split at h
  · cases h
  rename_i h4
  split at h
  · cases h
  rename_i h5
  split at h
  · cases h
  rename_i h6
  split at h
  · cases h
  rename_i h7
  rw [not_not] at h4 h5 h6 h7
  obtain ⟨-, -, ⟨h8, -⟩, -⟩ := hp
  have h9 := h5.2
  have h10 := h6.2
  refine ⟨h4, ?_, ?_, h7⟩
  · unfold seqLength
    unfold guardSamples at h9
    omega
  · unfold gridSize
    constructor <;> omega

/-! ### The commit (R173) -/

/-- The commit writes the tables' entries in use and the ring in use only. -/
theorem readByte_commitTables (L : Nat) (tbl : List Pulse) (env : List Word) (m : Memory) (a : Nat)
    (h1 : a < 0x30000 ∨ 0x30000 + 4 * tbl.length ≤ a) (h2 : a < 0x40000 ∨ 0x40000 + 4 * env.length ≤ a)
    (h3 : a < 0x80000 ∨ 0x80000 + 4 * (L + 256) ≤ a) :
    (commitTables L tbl env m).readByte a = m.readByte a := by
  unfold commitTables
  rw [Memory.readByte_clearWords, if_neg (by rw [ringAddr_eq]; unfold guardSamples; omega),
    Memory.readByte_writeWords_of_ne _ _ _ _ (by rw [envAddr_eq]; omega),
    Memory.readByte_writeWords_of_ne _ _ _ _ (by rw [pulseAddr_eq, List.length_map]; omega)]

theorem pulse_commitTables (L : Nat) (tbl : List Pulse) (env : List Word) (m : Memory) (k : Nat) (hk : k < tbl.length)
    (ht : tbl.length ≤ 0x4000) :
    (commitTables L tbl env m).readWord (pulseAddr k) = pulseToWord tbl[k] := by
  unfold commitTables
  rw [Memory.readWord_clearWords_of_ne _ _ _ _ (by rw [ringAddr_eq, pulseAddr_eq]; omega),
    Memory.readWord_writeWords_of_ne _ _ _ _ (by rw [envAddr_eq, pulseAddr_eq]; omega),
    show pulseAddr k = pulseAddr 0 + 4 * k by simp [pulseAddr_eq],
    Memory.readWord_writeWords _ _ _ _ (by simpa using hk)]
  simp

theorem env_commitTables (L : Nat) (tbl : List Pulse) (env : List Word) (m : Memory) (k : Nat) (hk : k < env.length)
    (he : env.length ≤ 0x4000) :
    (commitTables L tbl env m).readWord (envAddr k) = env[k] := by
  unfold commitTables
  rw [Memory.readWord_clearWords_of_ne _ _ _ _ (by rw [ringAddr_eq, envAddr_eq]; omega),
    show envAddr k = envAddr 0 + 4 * k by simp [envAddr_eq],
    Memory.readWord_writeWords _ _ _ _ hk]

theorem ring_commitTables (L : Nat) (tbl : List Pulse) (env : List Word) (m : Memory) (j : Nat) (hj : j < L + 256) :
    (commitTables L tbl env m).readWord (ringAddr j) = 0 := by
  unfold commitTables
  rw [show ringAddr j = ringAddr 0 + 4 * j by simp [ringAddr_eq],
    Memory.readWord_clearWords _ _ _ _ (by rw [ringAddr_eq]; omega) (by unfold guardSamples; exact hj)]

theorem wf_commitTables (L : Nat) (tbl : List Pulse) (env : List Word) {m : Memory} (h : m.wf = true) :
    (commitTables L tbl env m).wf = true :=
  Memory.wf_clearWords (Memory.wf_writeWords _ (Memory.wf_writeWords _ h _) _) _ _

/-! ### A generation (R163) -/

/-- The list of pulses of an accepted generation: all of its cells' (R177). -/
theorem placed_eq (L : Nat) {G : Nat} (hG : 0 < G) (seed : Word) :
    placePulses L G (L / G) 0 seed = ((List.range (L / G)).map (cellPulse G 0 seed), lcgIter (2 * (L / G)) seed) := by
  apply Prod.ext
  · exact placePulses_list L G hG _ _ _ (by rw [Nat.zero_add]; exact Nat.div_mul_le_self L G)
  · exact placePulses_final L G _ _ _

/-- What an accepted generation leaves (R163, R173): the result registers as numbers, the tables entry by entry, the ring; and that it
keeps everything else. -/
structure Generated (s t : State) (L G : Nat) (decay : DWord) : Prop where
  seqlen : t.gen.seqlen.toNat = L
  grid : t.gen.grid.toNat = G
  npulses : t.gen.npulses.toNat = L / G
  ringcap : t.gen.ringcap.toNat = L + 256
  wptr : t.gen.wptr = 0
  decay_eq : t.gen.decay = decay
  lcgstate : t.gen.lcgstate = lcgIter (2 * (L / G)) s.regs.seed
  maxblk : t.gen.actMaxblk = s.regs.maxblk
  normgain : t.gen.normgain = normGain (envelopes s.params.exp64 decay ((List.range (L / G)).map (cellPulse G 0 s.regs.seed)))
  prepared : t.prepared = true
  pulseWord : ∀ k, k < L / G → t.pulseWord k = pulseToWord (cellPulse G 0 s.regs.seed k)
  pulse : ∀ k, k < L / G → t.pulse k = cellPulse G 0 s.regs.seed k
  env : ∀ k, k < L / G → t.env k = envelope s.params.exp64 decay (cellPulse G 0 s.regs.seed k).pos.toNat
  ring : ∀ j, j < L + 256 → t.ring j = 0
  other : ∀ a, (a < 0x30000 ∨ 0x30000 + 4 * (L / G) ≤ a) → (a < 0x40000 ∨ 0x40000 + 4 * (L / G) ≤ a) →
    (a < 0x80000 ∨ 0x80000 + 4 * (L + 256) ≤ a) → t.mem.readByte a = s.mem.readByte a
  mem_wf : s.mem.wf = true → t.mem.wf = true
  params : t.params = s.params
  regs : t.regs = s.regs
  err : t.err = s.err
  fOut : t.fOut = s.fOut
  fb : t.fb = s.fb
  host : t.host = s.host

theorem runGeneration_accepted {w : Word} {sr dur dens : DWord} {s : State} (hp : s.params.Legal)
    (h : validate s.params sr dur dens s.regs.maxblk = none) :
    Generated s (runGeneration w sr dur dens s) (seqLength sr dur) (gridSize sr dens) (decayRate (seqLength sr dur)) := by
  obtain ⟨hmb, hL, ⟨hG1, hG2⟩, hP⟩ := validate_sizes hp h
  obtain ⟨-, -, ⟨-, hr⟩, ⟨-, hpm⟩, -⟩ := hp
  have hrun : runGeneration w sr dur dens s = buildTables sr dur dens s := by unfold runGeneration; rw [h]
  rw [hrun]
  unfold buildTables
  simp only []
  rw [placed_eq _ hG1]
  set L := seqLength sr dur with hLdef
  set G := gridSize sr dens with hGdef
  set tbl := (List.range (L / G)).map (cellPulse G 0 s.regs.seed) with htbl
  have hlen : tbl.length = L / G := by simp [htbl]
  have helen : (envelopes s.params.exp64 (decayRate L) tbl).length = L / G := by simp [envelopes, hlen]
  have hP4 : L / G ≤ 0x4000 := by omega
  have small : ∀ n : Nat, n ≤ 0x10000 → (BitVec.ofNat 32 n).toNat = n := fun n hn => by
    rw [BitVec.toNat_ofNat, Nat.mod_eq_of_lt]; omega
  refine
    { seqlen := small _ (by omega), grid := ?_, npulses := ?_, ringcap := small _ (by unfold guardSamples; omega),
      wptr := rfl, decay_eq := rfl, lcgstate := rfl, maxblk := rfl, normgain := rfl, prepared := rfl,
      pulseWord := ?_, pulse := ?_, env := ?_, ring := fun j hj => ring_commitTables _ _ _ _ _ hj, other := ?_,
      mem_wf := fun h => wf_commitTables _ _ _ h, params := rfl, regs := rfl, err := rfl, fOut := rfl, fb := rfl,
      host := rfl }
  · show (BitVec.ofNat 32 G).toNat = G
    rw [BitVec.toNat_ofNat, Nat.mod_eq_of_lt]
    omega
  · show (BitVec.ofNat 32 tbl.length).toNat = L / G
    rw [hlen]
    exact small _ (by omega)
  · intro k hk
    show (commitTables L tbl _ s.mem).readWord (pulseAddr k) = _
    rw [pulse_commitTables _ _ _ _ k (by omega) (by omega)]
    simp [htbl]
  · intro k hk
    show pulseOfWord ((commitTables L tbl _ s.mem).readWord (pulseAddr k)) = _
    rw [pulse_commitTables _ _ _ _ k (by omega) (by omega), pulseOfWord_pulseToWord]
    simp [htbl]
  · intro k hk
    show (commitTables L tbl (envelopes s.params.exp64 (decayRate L) tbl) s.mem).readWord (envAddr k) = _
    rw [env_commitTables _ _ _ _ k (by omega) (by omega)]
    simp [envelopes, htbl]
  · intro a h1 h2 h3
    exact readByte_commitTables _ _ _ _ _ (by rw [hlen]; exact h1) (by rw [helen]; exact h2) h3

/-- A prepared block is valid after a generation (R65). -/
theorem Generated.valid {s t : State} {L G : Nat} {decay : DWord} (h : Generated s t L G decay) (hG : 1 ≤ G)
    (hL : L + 256 ≤ s.params.ringMax) (hr : s.params.ringMax ≤ 65536) (hP : L / G ≤ s.params.pulseMax)
    (hm : 1 ≤ s.regs.maxblk.toNat ∧ s.regs.maxblk.toNat ≤ s.params.blockMax) : TablesValid t := by
  have hcell : ∀ k, k < L / G → (k + 1) * G ≤ L := fun k hk =>
    le_trans (Nat.mul_le_mul_right _ hk) (Nat.div_mul_le_self L G)
  have hpos : ∀ k, k < L / G → (t.pulse k).pos.toNat = k * G + (lcgIter (2 * k + 1) s.regs.seed).toNat % G := by
    intro k hk
    rw [h.pulse k hk, cellPulse_pos hG (L := L) _ (by rw [Nat.zero_add]; exact hcell k hk) (by omega), Nat.zero_add]
  have hj : ∀ n : Nat, n % G < G := fun n => Nat.mod_lt _ hG
  refine
    { grid_pos := by rw [h.grid]; exact hG, ringcap_eq := by rw [h.ringcap, h.seqlen],
      ringcap_le := by rw [h.ringcap, h.params]; exact hL,
      wptr_lt := by rw [h.wptr, h.ringcap]; exact Nat.succ_pos _,
      npulses_eq := by rw [h.npulses, h.seqlen, h.grid], npulses_le := by rw [h.npulses, h.params]; exact hP,
      maxblk_pos := by rw [h.maxblk]; exact hm.1, maxblk_le := by rw [h.maxblk, h.params]; exact hm.2,
      pos_lt := ?_, pos_rising := ?_ }
  · intro k hk
    rw [h.npulses] at hk
    rw [hpos k hk, h.seqlen]
    have h1 := hcell k hk
    have h2 := hj (lcgIter (2 * k + 1) s.regs.seed).toNat
    have : (k + 1) * G = k * G + G := by ring
    omega
  · intro k hk
    rw [h.npulses] at hk
    rw [hpos k (by omega), hpos (k + 1) hk]
    have h2 := hj (lcgIter (2 * k + 1) s.regs.seed).toNat
    have : (k + 1) * G = k * G + G := by ring
    omega

/-- GENERATE and PREPARE, accepted: the generation each runs. -/
theorem exec_accepted {s : State} {i : Instr} (h : GenerationAccepted s i) :
    ∃ dur dens, validate s.params s.sampleRate dur dens s.regs.maxblk = none ∧
      exec i s = .next (runGeneration (encode i) s.sampleRate dur dens s) ∧
      (i = .generate ∧ dur = s.duration ∧ dens = s.density ∨
        i = .prepare ∧ dur = policyDuration ∧ dens = policyDensity) := by
  rcases h with ⟨rfl, h⟩ | ⟨rfl, h⟩
  · exact ⟨_, _, h, rfl, .inl ⟨rfl, rfl, rfl⟩⟩
  · exact ⟨_, _, h, rfl, .inr ⟨rfl, rfl, rfl⟩⟩

end Sys2Proof.Machine
end

