-- ==== Sys2Proof/Laws/Bus.lean ====
section
/-! SUPPORT. The address map entry by entry (spec/20_memory.md R82, R83), and everything a bus access, a command and a step can do
(R85, spec/30_encoding.md R131). -/

namespace Sys2Proof.Machine

/-! ### The address map -/

theorem lookup_registerPage_of_ge {off : Nat} (h : 0x100 ≤ off) : registerPage.lookup off = none := by
  rw [List.lookup_eq_none_iff]
  have hall : ∀ p ∈ registerPage, p.1 < 0x100 := by decide
  intro p hp
  have := hall p hp
  exact bne_iff_ne.2 (by omega)

theorem windowIndex_eq_some {start size off w : Nat} :
    windowIndex start size off = some w ↔ start ≤ off ∧ off < start + 4 * size ∧ (off - start) / 4 = w := by
  unfold windowIndex
  split
  · rename_i h
    simp [h.1, h.2]
  · rename_i h
    constructor
    · intro h'
      cases h'
    · rintro ⟨h1, h2, -⟩
      exact absurd ⟨h1, h2⟩ h

theorem windowIndex_eq_none {start size off : Nat} :
    windowIndex start size off = none ↔ off < start ∨ start + 4 * size ≤ off := by
  unfold windowIndex
  split
  · rename_i h
    simp only [reduceCtorEq, false_iff]
    omega
  · rename_i h
    simp only [true_iff]
    omega

/-- An aligned offset above the register page, by the window it lies in (R82). -/
theorem targetAt_window {p : Params} {off : Offset} (h4 : off.toNat % 4 = 0) (h : 0x100 ≤ off.toNat) :
    targetAt p off = windowTarget p off.toNat := by
  unfold targetAt
  rw [if_neg (by omega), lookup_registerPage_of_ge h]
  rfl

theorem fbankTarget_eq_none {nfilt off : Nat} (h : off < 0x08000 ∨ 0x08000 + 32 * nfilt ≤ off) :
    fbankTarget nfilt off = none := by
  unfold fbankTarget
  rw [windowIndex_eq_none.2 (by omega)]

theorem ofNat_offset {n : Nat} (h : n < 2 ^ 20) : (BitVec.ofNat 20 n).toNat = n := by
  rw [BitVec.toNat_ofNat, Nat.mod_eq_of_lt h]

/-- The mapped entries of each window of a legal instance (R82). -/
theorem targetAt_fbank {p : Params} (hp : p.Legal) {i j : Nat} (hi : i < p.nfilt) (hj : j ≤ 5) :
    targetAt p (BitVec.ofNat 20 (0x08000 + 32 * i + 4 * j)) = some (.fbank i j) := by
  obtain ⟨⟨-, h1⟩, -⟩ := hp
  rw [targetAt_window] <;> rw [ofNat_offset (by omega)]
  · unfold windowTarget fbankTarget
    rw [windowIndex_eq_some.2 ⟨by omega, by omega, rfl⟩]
    simp only []
    rw [if_pos (by omega), show (32768 + 32 * i + 4 * j - 32768) / 4 / 8 = i by omega,
      show (32768 + 32 * i + 4 * j - 32768) / 4 % 8 = j by omega]
    rfl
  · omega
  · omega

theorem targetAt_inbuf {p : Params} (hp : p.Legal) {i : Nat} (hi : i < p.blockMax) :
    targetAt p (BitVec.ofNat 20 (0x10000 + 4 * i)) = some (.inbuf i) := by
  obtain ⟨⟨-, h1⟩, ⟨-, h2⟩, -⟩ := hp
  rw [targetAt_window] <;> rw [ofNat_offset (by omega)]
  · unfold windowTarget
    rw [fbankTarget_eq_none (by omega), windowIndex_eq_some.2 ⟨by omega, by omega, rfl⟩]
    simp only [show (65536 + 4 * i - 65536) / 4 = i by omega]
    rfl
  · omega
  · omega

theorem targetAt_outbuf {p : Params} (hp : p.Legal) {i : Nat} (hi : i < p.blockMax) :
    targetAt p (BitVec.ofNat 20 (0x20000 + 4 * i)) = some (.outbuf i) := by
  obtain ⟨⟨-, h1⟩, ⟨-, h2⟩, -⟩ := hp
  rw [targetAt_window] <;> rw [ofNat_offset (by omega)]
  · unfold windowTarget
    rw [fbankTarget_eq_none (by omega), windowIndex_eq_none.2 (show _ ∨ _ by omega),
      windowIndex_eq_some.2 ⟨by omega, by omega, rfl⟩]
    simp only [show (131072 + 4 * i - 131072) / 4 = i by omega]
    rfl
  · omega
  · omega

theorem targetAt_pulse {p : Params} (hp : p.Legal) {k : Nat} (hk : k < p.pulseMax) :
    targetAt p (BitVec.ofNat 20 (0x30000 + 4 * k)) = some (.pulse k) := by
  obtain ⟨⟨-, h1⟩, ⟨-, h2⟩, -, ⟨-, h3⟩, -⟩ := hp
  rw [targetAt_window] <;> rw [ofNat_offset (by omega)]
  · unfold windowTarget
    rw [fbankTarget_eq_none (by omega), windowIndex_eq_none.2 (show _ ∨ _ by omega),
      windowIndex_eq_none.2 (show _ ∨ _ by omega), windowIndex_eq_some.2 ⟨by omega, by omega, rfl⟩]
    simp only [show (196608 + 4 * k - 196608) / 4 = k by omega]
    rfl
  · omega
  · omega

theorem targetAt_env {p : Params} (hp : p.Legal) {k : Nat} (hk : k < p.pulseMax) :
    targetAt p (BitVec.ofNat 20 (0x40000 + 4 * k)) = some (.env k) := by
  obtain ⟨⟨-, h1⟩, ⟨-, h2⟩, -, ⟨-, h3⟩, -⟩ := hp
  rw [targetAt_window] <;> rw [ofNat_offset (by omega)]
  · unfold windowTarget
    rw [fbankTarget_eq_none (by omega), windowIndex_eq_none.2 (show _ ∨ _ by omega),
      windowIndex_eq_none.2 (show _ ∨ _ by omega), windowIndex_eq_none.2 (show _ ∨ _ by omega),
      windowIndex_eq_some.2 ⟨by omega, by omega, rfl⟩]
    simp only [show (262144 + 4 * k - 262144) / 4 = k by omega]
    rfl
  · omega
  · omega

theorem targetAt_ring {p : Params} (hp : p.Legal) {i : Nat} (hi : i < p.ringMax) :
    targetAt p (BitVec.ofNat 20 (0x80000 + 4 * i)) = some (.ring i) := by
  obtain ⟨⟨-, h1⟩, ⟨-, h2⟩, ⟨-, h4⟩, ⟨-, h3⟩, -⟩ := hp
  rw [targetAt_window] <;> rw [ofNat_offset (by omega)]
  · unfold windowTarget
    rw [fbankTarget_eq_none (by omega), windowIndex_eq_none.2 (show _ ∨ _ by omega),
      windowIndex_eq_none.2 (show _ ∨ _ by omega), windowIndex_eq_none.2 (show _ ∨ _ by omega),
      windowIndex_eq_none.2 (show _ ∨ _ by omega), windowIndex_eq_some.2 ⟨by omega, by omega, rfl⟩]
    simp only [show (524288 + 4 * i - 524288) / 4 = i by omega]
    rfl
  · omega
  · omega

/-- The register page, offset by offset (R83). -/
theorem targetAt_registerPage (p : Params) :
    ∀ e ∈ registerPage, targetAt p (BitVec.ofNat 20 e.1) = some e.2 := by
  have h : ∀ e ∈ registerPage, (BitVec.ofNat 20 e.1).toNat % 4 = 0 ∧
      registerPage.lookup (BitVec.ofNat 20 e.1).toNat = some e.2 := by decide
  intro e he
  obtain ⟨h1, h2⟩ := h e he
  unfold targetAt
  rw [if_neg (by omega), h2]
  rfl

/-- CMD stands at offset 0x004 and nowhere else. -/
theorem targetAt_eq_cmd {p : Params} {off : Offset} : targetAt p off = some .cmd ↔ off = 0x004 := by
  constructor
  · intro h
    have hpage : ∀ e ∈ registerPage, e.2 = .cmd → e.1 = 4 := by decide
    have hwin : ∀ n, windowTarget p n ≠ some .cmd := by
      intro n hn
      unfold windowTarget fbankTarget at hn
      simp only [Option.or_eq_some_iff, Option.map_eq_some_iff, reduceCtorEq, and_false, exists_const, or_false] at hn
      split at hn
      · split at hn <;> simp at hn
      · simp at hn
    unfold targetAt at h
    split at h
    · cases h
    · rw [Option.or_eq_some_iff] at h
      rcases h with h | ⟨-, h⟩
      · obtain ⟨l1, l2, hl, -⟩ := List.lookup_eq_some_iff.1 h
        have := hpage (off.toNat, .cmd) (by rw [hl]; simp) rfl
        exact BitVec.eq_of_toNat_eq this
      · exact absurd h (hwin _)
  · rintro rfl
    exact targetAt_registerPage p (0x004, .cmd) (by decide)

/-- A mapped INBUF entry is one the instance has. -/
theorem targetAt_eq_inbuf {p : Params} {off : Offset} {i : Nat} (h : targetAt p off = some (.inbuf i)) :
    i < p.blockMax := by
  have hpage : ∀ e ∈ registerPage, e.2 ≠ .inbuf i := by
    intro e he
    fin_cases he <;> simp
  unfold targetAt at h
  split at h
  · cases h
  · rw [Option.or_eq_some_iff] at h
    rcases h with h | ⟨-, h⟩
    · obtain ⟨l1, l2, hl, -⟩ := List.lookup_eq_some_iff.1 h
      exact absurd rfl (hpage (off.toNat, .inbuf i) (by rw [hl]; simp))
    · unfold windowTarget fbankTarget at h
      simp only [Option.or_eq_some_iff, Option.map_eq_some_iff, reduceCtorEq, and_false, exists_const, or_false,
        Target.inbuf.injEq, exists_eq_right] at h
      rcases h with h | ⟨-, h⟩
      · split at h
        · split at h <;> simp at h
        · simp at h
      · have := windowIndex_eq_some.1 h
        omega

/-! ### What an access can do -/

/-- Everything a write can do (R85). -/
theorem busWrite_cases {size : AccessSize} {off : Offset} {v : Word} {s t : State} (h : busWrite size off v s = .next t) :
    t = s.busError off ∨ (∃ r, t = { s with regs := s.regs.set r v }) ∨
    (∃ i, i < s.params.blockMax ∧ t = { s with mem := s.mem.writeWord (inbufAddr i) v }) ∨ t = s.clearErrors v ∨
    (size = .word ∧ off = 0x004 ∧
      ((∃ i, decode v = .ok i ∧ exec i s = .next t) ∨ ((∃ e, decode v = .error e) ∧ t = s.raise .illegal v))) := by
  unfold busWrite at h
  split at h
  · rename_i tgt htgt
    cases tgt with
    | operand r => injection h with h; exact .inr (.inl ⟨r, h.symm⟩)
    | inbuf i => injection h with h; exact .inr (.inr (.inl ⟨i, targetAt_eq_inbuf htgt, h.symm⟩))
    | status => injection h with h; exact .inr (.inr (.inr (.inl h.symm)))
    | cmd =>
      refine .inr (.inr (.inr (.inr ⟨rfl, targetAt_eq_cmd.1 htgt, ?_⟩)))
      simp only [writeTarget, executeCommand] at h
      split at h
      · rename_i i hi
        exact .inl ⟨i, hi, h⟩
      · rename_i e he
        injection h with h
        exact .inr ⟨⟨e, he⟩, h.symm⟩
    | readOnly r => injection h with h; exact .inl h.symm
    | fbank i j => injection h with h; exact .inl h.symm
    | outbuf i => injection h with h; exact .inl h.symm
    | pulse k => injection h with h; exact .inl h.symm
    | env k => injection h with h; exact .inl h.symm
    | ring i => injection h with h; exact .inl h.symm
  · injection h with h
    exact .inl h.symm

/-- Everything a read can do (R85): return a value and change nothing, or be a bus error and return 0. -/
theorem busRead_cases (size : AccessSize) (off : Offset) (s : State) :
    (busRead size off s).2 = s ∨ busRead size off s = (0, s.busError off) := by
  unfold busRead
  split
  · exact .inl rfl
  · exact .inr rfl

/-! ### What a command can do -/

/-- GENERATE and PREPARE: a refusal, or an accepted generation. -/
theorem runGeneration_cases (w : Word) (sr dur dens : DWord) (s : State) :
    (∃ sub, validate s.params sr dur dens s.regs.maxblk = some sub ∧
      runGeneration w sr dur dens s = s.raise (.config sub) w) ∨
    (validate s.params sr dur dens s.regs.maxblk = none ∧ runGeneration w sr dur dens s = buildTables sr dur dens s) := by
  unfold runGeneration
  split
  · rename_i sub h
    exact .inl ⟨sub, h, rfl⟩
  · rename_i h
    exact .inr ⟨h, rfl⟩

/-- Sub-causes run from 1 to 7 (R164). -/
theorem validate_sub {p : Params} {sr dur dens : DWord} {mb : Word} {sub : BitVec 8}
    (h : validate p sr dur dens mb = some sub) : (ErrorCause.config sub).Listed := by
  suffices 1 ≤ sub.toNat ∧ sub.toNat ≤ 7 by
    intro sub' h'
    injection h' with h'
    exact h' ▸ this
  unfold validate at h
  repeat' split at h
  all_goals cases h
  all_goals decide

/-- CONVOLVE: one of its two errors, or the block. -/
theorem runConvolve_cases (w : Word) (s : State) :
    (s.prepared = false ∧ runConvolve w s = s.raise .notReady w) ∨
    (s.prepared = true ∧ s.gen.actMaxblk.toNat < s.regs.nsamp.toNat ∧ runConvolve w s = s.raise .block w) ∨
    (s.prepared = true ∧ s.regs.nsamp.toNat ≤ s.gen.actMaxblk.toNat ∧
      runConvolve w s = s.convolveBlock s.regs.nsamp.toNat) := by
  unfold runConvolve
  cases hp : s.prepared
  · exact .inl ⟨rfl, by simp⟩
  · right
    by_cases h : s.gen.actMaxblk.toNat < s.regs.nsamp.toNat
    · exact .inl ⟨rfl, h, by simp [h]⟩
    · exact .inr ⟨rfl, by omega, by simp [h]⟩

/-- A command changes nothing but the error record, or succeeds: one clause for each command that can. -/
theorem exec_cases {i : Instr} {s t : State} (h : exec i s = .next t) :
    (∃ c, c.Listed ∧ t = s.raise c (encode i)) ∨
    ((i = .nop ∨ i = .erReset) ∧ t = s) ∨
    ((i = .generate ∨ i = .prepare) ∧ ∃ dur dens, validate s.params s.sampleRate dur dens s.regs.maxblk = none ∧
      t = buildTables s.sampleRate dur dens s) ∨
    (i = .convolve ∧ s.prepared = true ∧ s.regs.nsamp.toNat ≤ s.gen.actMaxblk.toNat ∧
      t = s.convolveBlock s.regs.nsamp.toNat) ∨
    (∃ f : BitVec 8, f.toNat < s.params.nfilt ∧
      (i = .fltSetcoef f ∧ t = setCoefficients f.toNat s ∨
        i = .fltProcess f ∧ (s.filter f.toNat).configured = true ∧ t = processSample (encode i) f.toNat s ∨
        i = .fltReset f ∧ t = resetFilter f.toNat s)) := by
  have filt : ∀ (f : BitVec 8) (body : Nat → State), t = withFilter (encode i) f s body →
      (t = s.raise .filter (encode i)) ∨ (f.toNat < s.params.nfilt ∧ t = body f.toNat) := by
    intro f body ht
    unfold withFilter filterIndex at ht
    split at ht
    · exact .inl ht
    · exact .inr ⟨by omega, ht⟩
  have gen : ∀ dur dens, t = runGeneration (encode i) s.sampleRate dur dens s →
      (∃ c, c.Listed ∧ t = s.raise c (encode i)) ∨ (validate s.params s.sampleRate dur dens s.regs.maxblk = none ∧
        t = buildTables s.sampleRate dur dens s) := by
    intro dur dens ht
    rcases runGeneration_cases (encode i) s.sampleRate dur dens s with ⟨sub, hv, h'⟩ | ⟨h1, h'⟩
    · exact .inl ⟨_, validate_sub hv, ht.trans h'⟩
    · exact .inr ⟨h1, ht.trans h'⟩
  cases i with
  | nop => injection h with h; exact .inr (.inl ⟨.inl rfl, h.symm⟩)
  | erReset => injection h with h; exact .inr (.inl ⟨.inr rfl, h.symm⟩)
  | generate =>
    injection h with h
    rcases gen _ _ h.symm with h | h
    · exact .inl h
    · exact .inr (.inr (.inl ⟨.inl rfl, _, _, h⟩))
  | prepare =>
    injection h with h
    rcases gen _ _ h.symm with h | h
    · exact .inl h
    · exact .inr (.inr (.inl ⟨.inr rfl, _, _, h⟩))
  | convolve =>
    injection h with h
    rcases runConvolve_cases (encode .convolve) s with ⟨-, h'⟩ | ⟨-, -, h'⟩ | ⟨hp, hn, h'⟩
    · exact .inl ⟨.notReady, ErrorCause.listed_of_ne (by simp), h.symm.trans h'⟩
    · exact .inl ⟨.block, ErrorCause.listed_of_ne (by simp), h.symm.trans h'⟩
    · exact .inr (.inr (.inr (.inl ⟨rfl, hp, hn, h.symm.trans h'⟩)))
  | fltSetcoef f =>
    injection h with h
    rcases filt f _ h.symm with h | ⟨hf, h⟩
    · exact .inl ⟨.filter, ErrorCause.listed_of_ne (by simp), h⟩
    · exact .inr (.inr (.inr (.inr ⟨f, hf, .inl ⟨rfl, h⟩⟩)))
  | fltProcess f =>
    injection h with h
    rcases filt f _ h.symm with h | ⟨hf, h⟩
    · exact .inl ⟨.filter, ErrorCause.listed_of_ne (by simp), h⟩
    · cases hc : (s.filter f.toNat).configured
      · exact .inl ⟨.notReady, ErrorCause.listed_of_ne (by simp), by rw [h]; unfold processSample; simp [hc]⟩
      · exact .inr (.inr (.inr (.inr ⟨f, hf, .inr (.inl ⟨rfl, hc, h⟩)⟩)))
  | fltReset f =>
    injection h with h
    rcases filt f _ h.symm with h | ⟨hf, h⟩
    · exact .inl ⟨.filter, ErrorCause.listed_of_ne (by simp), h⟩
    · exact .inr (.inr (.inr (.inr ⟨f, hf, .inr (.inr ⟨rfl, h⟩)⟩)))

/-! ### What a step can do -/

/-- The host moved past the access it issues. -/
def moved (s : State) (rest : List Access) : State :=
  { s with host := { s.host with pending := rest, position := s.host.position + 1 } }

/-- Everything a step can do: nothing is pending, or the next access is carried out. -/
theorem step_cases {s t : State} (h : step s = .next t) :
    (s.host.pending = [] ∧ t = s) ∨
    ∃ a rest, s.host.pending = a :: rest ∧ performAccess a (moved s rest) = .next t := by
  unfold step fetchAccess at h
  cases hp : s.host.pending with
  | nil =>
    rw [hp] at h
    injection h with h
    exact .inl ⟨rfl, h.symm⟩
  | cons a rest =>
    rw [hp] at h
    exact .inr ⟨a, rest, rfl, h⟩

/-! ### The invariant (R65) -/

/-- The invariant speaks of these parts of the state only. -/
theorem State.Inv.congr {s t : State} (h : s.Inv) (hparams : t.params = s.params) (hfb : t.fb.length = s.fb.length)
    (hmem : t.mem.wf = true) (hprepared : t.prepared = s.prepared) (hgen : t.gen = s.gen)
    (hpulse : ∀ k, k < s.gen.npulses.toNat → s.prepared = true → t.pulse k = s.pulse k) : t.Inv := by
  refine ⟨by rw [hparams]; exact h.legal, by rw [hparams, hfb]; exact h.filters, hmem, ?_, ?_⟩
  · intro hp
    rw [hprepared] at hp
    have := h.unprepared hp
    constructor <;> rw [hgen]
    exacts [this.seqlen, this.grid, this.npulses, this.ringcap, this.wptr, this.actMaxblk]
  · intro hp
    rw [hprepared] at hp
    have g := h.prepared hp
    refine
      { grid_pos := by rw [hgen]; exact g.grid_pos, ringcap_eq := by rw [hgen]; exact g.ringcap_eq,
        ringcap_le := by rw [hgen, hparams]; exact g.ringcap_le, wptr_lt := by rw [hgen]; exact g.wptr_lt,
        npulses_eq := by rw [hgen]; exact g.npulses_eq, npulses_le := by rw [hgen, hparams]; exact g.npulses_le,
        maxblk_pos := by rw [hgen]; exact g.maxblk_pos, maxblk_le := by rw [hgen, hparams]; exact g.maxblk_le,
        pos_lt := ?_, pos_rising := ?_ }
    · intro k hk
      rw [hgen] at hk ⊢
      rw [hpulse k hk hp]
      exact g.pos_lt k hk
    · intro k hk
      rw [hgen] at hk
      rw [hpulse k (by omega) hp, hpulse (k + 1) hk hp]
      exact g.pos_rising k hk

end Sys2Proof.Machine
end

