-- ==== Sys2Proof/Laws/Irrational.lean ====
section
/-! SUPPORT. e^v and tan(v) are irrational for every rational v but 0 (Lindemann), from Mathlib's analytic part of the theorem
of Lindemann and Weierstrass. Hence no exact value of exp64 or tan64 (spec/00_scope.md R24) lies half-way between two binary64
values. -/

namespace Sys2Proof.Machine
open Polynomial

/-- A polynomial of degree at most N at (a/b) w, cleared of its denominators. -/
theorem clear_denominators (g : ℤ[X]) {N : Nat} (hN : g.natDegree ≤ N) (a : ℤ) {b : Nat} (hb : b ≠ 0) (w : ℂ) :
    (b : ℂ) ^ N * aeval ((a : ℂ) / b * w) g =
      ∑ k ∈ Finset.range (N + 1), ((g.coeff k * a ^ k * (b : ℤ) ^ (N - k) : ℤ) : ℂ) * w ^ k := by
  have hb' : (b : ℂ) ≠ 0 := Nat.cast_ne_zero.2 hb
  rw [aeval_eq_sum_range' (Nat.lt_succ_of_le hN), Finset.mul_sum]
  refine Finset.sum_congr rfl fun k hk => ?_
  have hk' : k ≤ N := Nat.lt_succ_iff.1 (Finset.mem_range.1 hk)
  have hpow : (b : ℂ) ^ N = b ^ (N - k) * b ^ k := by rw [← pow_add, Nat.sub_add_cancel hk']
  rw [zsmul_eq_mul, mul_pow, div_pow, hpow]
  push_cast
  field_simp

/-- i^k + (-i)^k is an integer. -/
theorem I_pow_add_neg_pow (k : Nat) : ∃ z : ℤ, Complex.I ^ k + (-Complex.I) ^ k = z := by
  rcases Nat.even_or_odd' k with ⟨m, rfl | rfl⟩
  · refine ⟨2 * (-1) ^ m, ?_⟩
    rw [pow_mul, pow_mul, neg_sq, Complex.I_sq]
    push_cast
    ring
  · refine ⟨0, ?_⟩
    rw [Odd.neg_pow ⟨m, rfl⟩]
    simp

/-- Some prime beyond any bound makes C * D^p / (p - 1)! less than 1. -/
theorem exists_prime_small (C D : ℝ) (B : Nat) : ∃ p, Nat.Prime p ∧ B < p ∧ C * (D ^ p / ((p - 1).factorial : ℝ)) < 1 := by
  have h1 : Filter.Tendsto (fun n : Nat => C * D * (D ^ n / (n.factorial : ℝ))) Filter.atTop (nhds (C * D * 0)) :=
    (FloorSemiring.tendsto_pow_div_factorial_atTop D).const_mul _
  rw [mul_zero] at h1
  obtain ⟨n, hn⟩ := Filter.eventually_atTop.1 (h1.eventually_lt_const one_pos)
  obtain ⟨p, hp, hp'⟩ := Nat.exists_infinite_primes (n + B + 2)
  refine ⟨p, hp', by omega, ?_⟩
  have h2 := hn (p - 1) (by omega)
  have h3 : D ^ p = D * D ^ (p - 1) := by
    rw [← pow_succ', Nat.sub_add_cancel (by omega)]
  rw [h3]
  calc C * (D * D ^ (p - 1) / ((p - 1).factorial : ℝ)) = C * D * (D ^ (p - 1) / ((p - 1).factorial : ℝ)) := by ring
    _ < 1 := h2

/-- The integer n P B - p T is not zero where the prime p divides none of n, P and B. -/
theorem one_le_abs_of_prime {p : Nat} (hp : Nat.Prime p) {n P T : ℤ} {B : Nat} (hn : ¬(p : ℤ) ∣ n) (hP : P ≠ 0) (hP' : P.natAbs < p)
    (hB : B ≠ 0) (hB' : B < p) (k : Nat) : (1 : ℝ) ≤ |((n * P * (B : ℤ) ^ k - p * T : ℤ) : ℝ)| := by
  have hpi : Prime (p : ℤ) := Nat.prime_iff_prime_int.1 hp
  have hne : n * P * (B : ℤ) ^ k - p * T ≠ 0 := by
    intro h0
    have hd : (p : ℤ) ∣ n * P * (B : ℤ) ^ k := ⟨T, by linarith⟩
    rcases hpi.dvd_or_dvd hd with h | h
    · rcases hpi.dvd_or_dvd h with h | h
      · exact hn h
      · have := Int.natAbs_dvd_natAbs.2 h
        rw [Int.natAbs_natCast] at this
        have := Nat.le_of_dvd (Int.natAbs_pos.2 hP) this
        omega
    · have := hpi.dvd_of_dvd_pow h
      have := Nat.le_of_dvd (Nat.pos_of_ne_zero hB) (Int.natCast_dvd_natCast.1 this)
      omega
  exact_mod_cast Int.one_le_abs hne

/-- e^x is irrational for a rational x that is not zero. -/
theorem exp_ne_rat {a : ℤ} {b : Nat} (ha : a ≠ 0) (hb : b ≠ 0) (P : ℤ) (Q : Nat) (hQ : Q ≠ 0) : Real.exp ((a : ℝ) / b) ≠ (P : ℝ) / Q := by
  intro h
  have hb' : (b : ℂ) ≠ 0 := Nat.cast_ne_zero.2 hb
  have hQ' : (0 : ℝ) < Q := Nat.cast_pos.2 (Nat.pos_of_ne_zero hQ)
  have hP : P ≠ 0 := by
    rintro rfl
    have := Real.exp_pos ((a : ℝ) / b)
    rw [h] at this
    simp at this
  set f : ℤ[X] := C (b : ℤ) * X - C a with hf
  have hf0 : f.eval 0 = -a := by simp [hf]
  obtain ⟨c, hc⟩ := LindemannWeierstrass.exp_polynomial_approx f (by rw [hf0]; simpa using ha)
  obtain ⟨p, hp, hpb, hsmall⟩ := exists_prime_small (Q * 1) ((b : ℝ) * c) (a.natAbs + P.natAbs + b)
  obtain ⟨n, hn, g, hg, hr⟩ := hc p (by rw [hf0]; simp; omega) hp
  have hdeg : f.natDegree = 1 := by
    rw [hf]
    rw [natDegree_sub_C, natDegree_C_mul_X _ (by exact_mod_cast hb)]
  have hroot : ((a : ℂ) / b * 1) ∈ f.aroots ℂ := by
    rw [mem_aroots]
    refine ⟨fun h0 => by rw [h0] at hdeg; simp at hdeg, ?_⟩
    rw [hf]
    simp
    field_simp
    ring
  have hb1 := hr hroot
  have hexp : Complex.exp ((a : ℂ) / b * 1) = (P : ℂ) / Q := by
    rw [mul_one]
    have := congrArg (fun x : ℝ => (x : ℂ)) h
    push_cast at this
    exact this
  have hclear := clear_denominators g (N := p) (by rw [hdeg] at hg; omega) a hb 1
  simp only [one_pow, mul_one] at hclear
  rw [hexp] at hb1
  simp only [mul_one] at hb1
  set T : ℤ := ∑ k ∈ Finset.range (p + 1), g.coeff k * a ^ k * (b : ℤ) ^ (p - k) with hT
  have hT' : (b : ℂ) ^ p * aeval ((a : ℂ) / b) g = (T : ℂ) := by rw [hclear, hT]; push_cast; rfl
  have key := one_le_abs_of_prime hp (T := Q * T) hn hP (by omega) hb (by omega) p
  have hval : ((n * P * (b : ℤ) ^ p - p * (Q * T) : ℤ) : ℂ) =
      (Q * b ^ p) * (n • ((P : ℂ) / Q) - p • aeval ((a : ℂ) / b) g) := by
    have hQc : (Q : ℂ) ≠ 0 := Nat.cast_ne_zero.2 hQ
    rw [zsmul_eq_mul, nsmul_eq_mul]
    push_cast
    rw [← hT']
    field_simp
  have hnorm : |((n * P * (b : ℤ) ^ p - p * (Q * T) : ℤ) : ℝ)| ≤ Q * b ^ p * (c ^ p / ((p - 1).factorial : ℝ)) := by
    have e1 : |((n * P * (b : ℤ) ^ p - p * (Q * T) : ℤ) : ℝ)| = ‖((n * P * (b : ℤ) ^ p - p * (Q * T) : ℤ) : ℂ)‖ := by
      rw [Complex.norm_intCast]
    rw [e1, hval, norm_mul, norm_mul, norm_pow, Complex.norm_natCast, Complex.norm_natCast]
    exact mul_le_mul_of_nonneg_left hb1 (by positivity)
  have : (Q : ℝ) * b ^ p * (c ^ p / ((p - 1).factorial : ℝ)) = Q * 1 * (((b : ℝ) * c) ^ p / ((p - 1).factorial : ℝ)) := by
    rw [mul_pow]; ring
  linarith

/-- cos y is no quotient P / Q with P not zero, for a rational y that is not zero. -/
theorem cos_ne_rat_of_ne_zero {a : ℤ} {b : Nat} (ha : a ≠ 0) (hb : b ≠ 0) (P : ℤ) (Q : Nat) (hP : P ≠ 0) (hQ : Q ≠ 0) :
    Real.cos ((a : ℝ) / b) ≠ (P : ℝ) / Q := by
  intro h
  have hb' : (b : ℂ) ≠ 0 := Nat.cast_ne_zero.2 hb
  set f : ℤ[X] := C ((b : ℤ) ^ 2) * X ^ 2 + C (a ^ 2) with hf
  have hf0 : f.eval 0 = a ^ 2 := by simp [hf]
  obtain ⟨c, hc⟩ := LindemannWeierstrass.exp_polynomial_approx f (by rw [hf0]; exact pow_ne_zero 2 ha)
  obtain ⟨p, hp, hpb, hsmall⟩ := exists_prime_small (Q * 2) ((b : ℝ) ^ 2 * c) ((a ^ 2).natAbs + (2 * P).natAbs + b)
  obtain ⟨n, hn, g, hg, hr⟩ := hc p (by rw [hf0]; omega) hp
  have hdeg : f.natDegree = 2 := by
    rw [hf, natDegree_add_C, natDegree_C_mul_X_pow _ _ (pow_ne_zero 2 (by exact_mod_cast hb))]
  have hroot : ∀ w : ℂ, w ^ 2 = -1 → ((a : ℂ) / b * w) ∈ f.aroots ℂ := by
    intro w hw
    rw [mem_aroots]
    refine ⟨fun h0 => by rw [h0] at hdeg; simp at hdeg, ?_⟩
    rw [hf]
    simp only [map_add, map_mul, map_pow, aeval_X, aeval_C]
    rw [mul_pow, hw]
    simp
    field_simp
    ring
  have h1 := hr (hroot Complex.I Complex.I_sq)
  have h2 := hr (hroot (-Complex.I) (by rw [neg_sq, Complex.I_sq]))
  have hdeg' : g.natDegree ≤ 2 * p := by rw [hdeg] at hg; omega
  have c1 := clear_denominators g hdeg' a hb Complex.I
  have c2 := clear_denominators g hdeg' a hb (-Complex.I)
  choose z hz using I_pow_add_neg_pow
  set T : ℤ := ∑ k ∈ Finset.range (2 * p + 1), g.coeff k * a ^ k * (b : ℤ) ^ (2 * p - k) * z k with hT
  have hT' : (b : ℂ) ^ (2 * p) * (aeval ((a : ℂ) / b * Complex.I) g + aeval ((a : ℂ) / b * -Complex.I) g) = (T : ℂ) := by
    rw [mul_add, c1, c2, ← Finset.sum_add_distrib, hT, Int.cast_sum]
    refine Finset.sum_congr rfl fun k _ => ?_
    rw [← mul_add, hz k]
    push_cast
    ring
  have hcos : Complex.exp ((a : ℂ) / b * Complex.I) + Complex.exp ((a : ℂ) / b * -Complex.I) = 2 * ((P : ℂ) / Q) := by
    have e := congrArg (fun x : ℝ => (x : ℂ)) h
    push_cast at e
    rw [← e, Complex.cos]
    rw [mul_neg, ← neg_mul]
    ring
  have key := one_le_abs_of_prime hp (T := Q * T) (P := 2 * P) hn (by simpa using hP) (by omega) hb (by omega) (2 * p)
  have hQc : (Q : ℂ) ≠ 0 := Nat.cast_ne_zero.2 hQ
  have hval : ((n * (2 * P) * (b : ℤ) ^ (2 * p) - p * (Q * T) : ℤ) : ℂ) =
      (Q * b ^ (2 * p)) * ((n • Complex.exp ((a : ℂ) / b * Complex.I) - p • aeval ((a : ℂ) / b * Complex.I) g) +
        (n • Complex.exp ((a : ℂ) / b * -Complex.I) - p • aeval ((a : ℂ) / b * -Complex.I) g)) := by
    have e : (n • Complex.exp ((a : ℂ) / b * Complex.I) - p • aeval ((a : ℂ) / b * Complex.I) g) +
        (n • Complex.exp ((a : ℂ) / b * -Complex.I) - p • aeval ((a : ℂ) / b * -Complex.I) g) =
        n * (2 * ((P : ℂ) / Q)) - p * (aeval ((a : ℂ) / b * Complex.I) g + aeval ((a : ℂ) / b * -Complex.I) g) := by
      rw [← hcos]
      simp only [zsmul_eq_mul, nsmul_eq_mul]
      ring
    rw [e]
    push_cast
    rw [← hT']
    field_simp
  have hnorm : |((n * (2 * P) * (b : ℤ) ^ (2 * p) - p * (Q * T) : ℤ) : ℝ)| ≤
      Q * b ^ (2 * p) * (c ^ p / ((p - 1).factorial : ℝ) + c ^ p / ((p - 1).factorial : ℝ)) := by
    rw [← Complex.norm_intCast, hval, norm_mul, norm_mul, norm_pow, Complex.norm_natCast, Complex.norm_natCast]
    exact mul_le_mul_of_nonneg_left (norm_add_le_of_le h1 h2) (by positivity)
  have : (Q : ℝ) * b ^ (2 * p) * (c ^ p / ((p - 1).factorial : ℝ) + c ^ p / ((p - 1).factorial : ℝ)) =
      Q * 2 * (((b : ℝ) ^ 2 * c) ^ p / ((p - 1).factorial : ℝ)) := by
    rw [mul_pow, pow_mul]; ring
  linarith

theorem irrational_exp_div {a : ℤ} {b : Nat} (ha : a ≠ 0) (hb : b ≠ 0) : Irrational (Real.exp ((a : ℝ) / b)) := by
  rintro ⟨q, hq⟩
  refine exp_ne_rat ha hb q.num q.den q.den_nz ?_
  rw [← hq]
  exact_mod_cast (Rat.num_div_den q).symm

theorem irrational_cos_div {a : ℤ} {b : Nat} (ha : a ≠ 0) (hb : b ≠ 0) : Irrational (Real.cos ((a : ℝ) / b)) := by
  have nonzero : ∀ {a : ℤ}, a ≠ 0 → ∀ q : ℚ, q ≠ 0 → (q : ℝ) ≠ Real.cos ((a : ℝ) / b) := by
    intro a ha q hq0 hq
    refine cos_ne_rat_of_ne_zero ha hb q.num q.den (Rat.num_ne_zero.2 hq0) q.den_nz ?_
    rw [← hq]
    exact_mod_cast (Rat.num_div_den q).symm
  rintro ⟨q, hq⟩
  by_cases hq0 : q = 0
  · refine nonzero (a := 2 * a) (by simpa using ha) (-1) (by norm_num) ?_
    rw [hq0, Rat.cast_zero] at hq
    rw [show ((2 * a : ℤ) : ℝ) / b = 2 * ((a : ℝ) / b) by push_cast; ring, Real.cos_two_mul, ← hq]
    norm_num
  · exact nonzero ha q hq0 hq

/-- tan x is irrational for a rational x that is not zero: cos 2x is a rational function of it. -/
theorem irrational_tan_div {a : ℤ} {b : Nat} (ha : a ≠ 0) (hb : b ≠ 0) : Irrational (Real.tan ((a : ℝ) / b)) := by
  rintro ⟨q, hq⟩
  refine irrational_cos_div (a := 2 * a) (b := b) (by simpa using ha) hb ?_
  rw [show ((2 * a : ℤ) : ℝ) / b = 2 * ((a : ℝ) / b) by push_cast; ring]
  set x : ℝ := (a : ℝ) / b
  by_cases hc : Real.cos x = 0
  · refine ⟨-1, ?_⟩
    rw [Real.cos_two_mul, hc]
    norm_num
  · refine ⟨(1 - q ^ 2) / (1 + q ^ 2), ?_⟩
    push_cast
    rw [hq, Real.tan_eq_sin_div_cos, Real.cos_two_mul']
    have h1 := Real.cos_sq_add_sin_sq x
    field_simp
    rw [h1, mul_one]
end Sys2Proof.Machine
end

