-- ==== Sys2Proof/Laws/Exponential.lean ====
section
/-! SUPPORT. The enclosures of exp64 (spec/00_scope.md R24) enclose: the Taylor sums, the squarings and the reciprocal. -/

namespace Sys2Proof.Machine

/-! ### Rounded quotients of integers -/

theorem floorQuot_le {a b : Nat} : ((a / b : Nat) : ℝ) ≤ (a : ℝ) / b := Nat.cast_div_le

theorem le_ceilQuot {a b : Nat} (hb : 0 < b) : (a : ℝ) / b ≤ (ceilQuot a b : Nat) := by
  have hbr : (0 : ℝ) < b := by exact_mod_cast hb
  rw [div_le_iff₀ hbr]
  unfold ceilQuot
  have h1 := Nat.lt_div_mul_add (a := a + b - 1) hb
  have : a ≤ (a + b - 1) / b * b := by omega
  exact_mod_cast this

/-! ### The Taylor sum -/

/-- Term j of the exponential series. -/
noncomputable def expTerm (y : ℝ) (j : Nat) : ℝ := y ^ j / j.factorial

theorem expTerm_succ (y : ℝ) (j : Nat) : expTerm y (j + 1) = expTerm y j * y / (j + 1) := by
  unfold expTerm
  rw [pow_succ, Nat.factorial_succ]
  push_cast
  have h1 : ((j : ℝ) + 1) ≠ 0 := by positivity
  have h2 : (j.factorial : ℝ) ≠ 0 := by positivity
  field_simp

theorem expTerm_nonneg {y : ℝ} (hy : 0 ≤ y) (j : Nat) : 0 ≤ expTerm y j := by
  unfold expTerm
  positivity

/-- The next term of an enclosed series, enclosed. -/
theorem nextTerm_bounds {S ylo yhi tlo thi j : Nat} {y : ℝ} (hS : 0 < S) (hy : 0 ≤ y) (hlo : (ylo : ℝ) ≤ S * y)
    (hhi : S * y ≤ yhi) (h1 : (tlo : ℝ) ≤ S * expTerm y j) (h2 : S * expTerm y j ≤ thi) :
    ((tlo * ylo / (S * (j + 1)) : Nat) : ℝ) ≤ S * expTerm y (j + 1) ∧
      S * expTerm y (j + 1) ≤ (ceilQuot (thi * yhi) (S * (j + 1)) : Nat) := by
  have hSr : (0 : ℝ) < S := by exact_mod_cast hS
  have hj : (0 : ℝ) < j + 1 := by positivity
  have ht := expTerm_nonneg hy j
  have hval : S * expTerm y (j + 1) = (S * expTerm y j) * (S * y) / (S * (j + 1)) := by
    rw [expTerm_succ]
    field_simp
  constructor
  · refine le_trans floorQuot_le ?_
    rw [hval]
    push_cast
    gcongr
  · refine le_trans ?_ (le_ceilQuot (Nat.mul_pos hS (Nat.succ_pos j)))
    rw [hval]
    push_cast
    gcongr

/-- The enclosed sum encloses the sum of its terms, with twice the last term on top. -/
theorem expSeries_bounds {S ylo yhi : Nat} {y : ℝ} (hS : 0 < S) (hy : 0 ≤ y) (hlo : (ylo : ℝ) ≤ S * y) (hhi : S * y ≤ yhi) :
    ∀ (n j tlo thi lo hi : Nat), (tlo : ℝ) ≤ S * expTerm y j → S * expTerm y j ≤ thi →
      (lo : ℝ) ≤ S * ∑ i ∈ Finset.range j, expTerm y i → S * ∑ i ∈ Finset.range j, expTerm y i ≤ hi →
      ((expSeries S ylo yhi n j tlo thi lo hi).1 : ℝ) ≤ S * ∑ i ∈ Finset.range (j + n), expTerm y i ∧
        S * ∑ i ∈ Finset.range (j + n), expTerm y i + 2 * (S * expTerm y (j + n)) ≤
          (expSeries S ylo yhi n j tlo thi lo hi).2 := by
  intro n
  induction n with
  | zero =>
    intro j tlo thi lo hi h1 h2 h3 h4
    refine ⟨h3, ?_⟩
    simp only [expSeries, Nat.add_zero]
    push_cast
    linarith
  | succ n ih =>
    intro j tlo thi lo hi h1 h2 h3 h4
    obtain ⟨h5, h6⟩ := nextTerm_bounds hS hy hlo hhi h1 h2
    have := ih (j + 1) _ _ (lo + tlo) (hi + thi) h5 h6
      (by rw [Finset.sum_range_succ]; push_cast; linarith) (by rw [Finset.sum_range_succ]; push_cast; linarith)
    rw [show j + (n + 1) = j + 1 + n by omega]
    exact this

theorem le_expSeries_fst (S ylo yhi : Nat) : ∀ (n j tlo thi lo hi : Nat),
    lo ≤ (expSeries S ylo yhi n j tlo thi lo hi).1 := by
  intro n
  induction n with
  | zero => intro j tlo thi lo hi; exact le_rfl
  | succ n ih => intro j tlo thi lo hi; exact le_trans (Nat.le_add_right lo tlo) (ih _ _ _ _ _)

/-- The whole series from its first term on. -/
theorem expSeries_exp {S ylo yhi n : Nat} {y : ℝ} (hS : 0 < S) (hy : 0 ≤ y) (hy1 : y ≤ 1) (hn : 0 < n)
    (hlo : (ylo : ℝ) ≤ S * y) (hhi : S * y ≤ yhi) :
    ((expSeries S ylo yhi n 0 S S 0 0).1 : ℝ) ≤ S * Real.exp y ∧
      S * Real.exp y ≤ (expSeries S ylo yhi n 0 S S 0 0).2 := by
  have hSr : (0 : ℝ) ≤ S := Nat.cast_nonneg S
  have h0 : S * expTerm y 0 = S := by simp [expTerm]
  obtain ⟨h1, h2⟩ := expSeries_bounds hS hy hlo hhi n 0 S S 0 0 (by rw [h0]) (by rw [h0]) (by simp) (by simp)
  rw [Nat.zero_add] at h1 h2
  constructor
  · refine le_trans h1 (mul_le_mul_of_nonneg_left ?_ hSr)
    exact Real.sum_le_exp_of_nonneg hy n
  · refine le_trans ?_ h2
    have hb := Real.exp_bound' hy hy1 hn
    have hfac : y ^ n * ((n : ℝ) + 1) / (n.factorial * n) ≤ 2 * expTerm y n := by
      have hn1 : (1 : ℝ) ≤ n := by exact_mod_cast hn
      have hnn : (0 : ℝ) < n := by linarith
      have ht := expTerm_nonneg hy n
      have : y ^ n * ((n : ℝ) + 1) / (n.factorial * n) = expTerm y n * (((n : ℝ) + 1) / n) := by
        unfold expTerm
        have h2 : (n.factorial : ℝ) ≠ 0 := by positivity
        field_simp
      rw [this, mul_comm 2]
      apply mul_le_mul_of_nonneg_left _ ht
      rw [div_le_iff₀ hnn]
      linarith
    have hsum : Real.exp y ≤ ∑ i ∈ Finset.range n, expTerm y i + 2 * expTerm y n := le_trans hb (by
      apply add_le_add _ hfac
      exact le_of_eq rfl)
    calc S * Real.exp y ≤ S * (∑ i ∈ Finset.range n, expTerm y i + 2 * expTerm y n) :=
          mul_le_mul_of_nonneg_left hsum hSr
      _ = _ := by ring

/-! ### Squaring -/

theorem squareTimes_bounds {S : Nat} (hS : 0 < S) : ∀ (k : Nat) (i : Nat × Nat) (E : ℝ), 0 ≤ E → S ≤ i.1 →
    (i.1 : ℝ) ≤ S * E → S * E ≤ i.2 →
      S ≤ (squareTimes S k i).1 ∧ ((squareTimes S k i).1 : ℝ) ≤ S * E ^ 2 ^ k ∧
        S * E ^ 2 ^ k ≤ (squareTimes S k i).2 := by
  intro k
  induction k with
  | zero => intro i E hE h1 h2 h3; simpa [squareTimes] using ⟨h1, h2, h3⟩
  | succ k ih =>
    intro i E hE h1 h2 h3
    have hSr : (0 : ℝ) < S := by exact_mod_cast hS
    have hval : (S : ℝ) * E ^ 2 = (S * E) * (S * E) / S := by field_simp
    have := ih (i.1 * i.1 / S, ceilQuot (i.2 * i.2) S) (E ^ 2) (by positivity)
      ((Nat.le_div_iff_mul_le hS).2 (Nat.mul_le_mul h1 h1))
      (by
        refine le_trans floorQuot_le ?_
        rw [hval]
        push_cast
        gcongr)
      (by
        refine le_trans ?_ (le_ceilQuot hS)
        rw [hval]
        push_cast
        gcongr)
    rw [squareTimes]
    rw [← pow_mul, show 2 * 2 ^ k = 2 ^ (k + 1) by ring] at this
    exact this

/-! ### The operand -/

theorem scaledBounds_spec (mant : Nat) (sh : ℤ) :
    ((scaledBounds mant sh).1 : ℝ) ≤ mant * 2 ^ sh ∧ (mant : ℝ) * 2 ^ sh ≤ (scaledBounds mant sh).2 := by
  unfold scaledBounds
  split
  · rename_i h
    have hz : (2 : ℝ) ^ sh = ((2 ^ sh.toNat : Nat) : ℝ) := by
      push_cast
      rw [← zpow_natCast, Int.toNat_of_nonneg h]
    rw [hz]
    push_cast
    exact ⟨le_rfl, le_rfl⟩
  · rename_i h
    have hz : (mant : ℝ) * 2 ^ sh = mant / ((2 ^ (-sh).toNat : Nat) : ℝ) := by
      push_cast
      rw [← zpow_natCast, Int.toNat_of_nonneg (by omega), zpow_neg, div_inv_eq_mul]
    rw [hz]
    have hd : 0 < 2 ^ (-sh).toNat := Nat.two_pow_pos _
    refine ⟨floorQuot_le, ?_⟩
    rw [div_le_iff₀ (by exact_mod_cast hd)]
    have h1 := Nat.lt_div_mul_add (a := mant) hd
    have : mant ≤ (mant / 2 ^ (-sh).toNat + 1) * 2 ^ (-sh).toNat := by rw [Nat.add_mul, Nat.one_mul]; omega
    exact_mod_cast this

/-- The enclosure of e^(mant * 2^exp) encloses it. -/
theorem expBounds_spec (prec mant : Nat) (exp : ℤ) :
    2 ^ (expBounds prec mant exp).2.2 ≤ (expBounds prec mant exp).1 ∧
    ((expBounds prec mant exp).1 : ℝ) ≤ 2 ^ (expBounds prec mant exp).2.2 * Real.exp (mant * 2 ^ exp) ∧
      2 ^ (expBounds prec mant exp).2.2 * Real.exp (mant * 2 ^ exp) ≤ (expBounds prec mant exp).2.1 := by
  unfold expBounds
  simp only []
  set k := ((mant.log2 : ℤ) + 2 + exp).toNat with hk
  set w := prec + 2 * k with hw
  have hS : 0 < 2 ^ w := Nat.two_pow_pos w
  set y : ℝ := mant * 2 ^ (exp - k) with hy
  have hy0 : 0 ≤ y := by positivity
  have hy1 : y ≤ 1 := by
    have h1 : (mant : ℝ) ≤ 2 ^ ((mant.log2 : ℤ) + 1) := by
      have : mant < 2 ^ (mant.log2 + 1) := Nat.lt_log2_self
      have : (mant : ℝ) < ((2 ^ (mant.log2 + 1) : Nat) : ℝ) := by exact_mod_cast this
      push_cast at this
      rw [← zpow_natCast] at this
      push_cast at this
      exact this.le
    calc y ≤ 2 ^ ((mant.log2 : ℤ) + 1) * 2 ^ (exp - k) := mul_le_mul_of_nonneg_right h1 (by positivity)
      _ = 2 ^ ((mant.log2 : ℤ) + 1 + (exp - k)) := by rw [← zpow_add₀ (by norm_num)]
      _ ≤ 2 ^ (0 : ℤ) := zpow_le_zpow_right₀ (by norm_num) (by omega)
      _ = 1 := zpow_zero _
  have hSy : (mant : ℝ) * 2 ^ (exp - k + w) = ((2 ^ w : Nat) : ℝ) * y := by
    rw [hy, zpow_add₀ (by norm_num), zpow_natCast]
    push_cast
    ring
  obtain ⟨hlo, hhi⟩ := scaledBounds_spec mant (exp - k + w)
  rw [hSy] at hlo hhi
  obtain ⟨h1, h2⟩ := expSeries_exp (n := w / 4 + 12) hS hy0 hy1 (by omega) hlo hhi
  have hge : 2 ^ w ≤ (expSeries (2 ^ w) (scaledBounds mant (exp - k + w)).1 (scaledBounds mant (exp - k + w)).2
      (w / 4 + 12) 0 (2 ^ w) (2 ^ w) 0 0).1 := by
    rw [show w / 4 + 12 = (w / 4 + 11) + 1 by omega, expSeries]
    exact le_trans (by omega) (le_expSeries_fst _ _ _ _ _ _ _ _ _)
  obtain ⟨h3, h4, h5⟩ := squareTimes_bounds hS k _ (Real.exp y) (Real.exp_pos y).le hge h1 h2
  have hexp : Real.exp y ^ 2 ^ k = Real.exp (mant * 2 ^ exp) := by
    rw [← Real.exp_nat_mul]
    congr 1
    rw [hy]
    push_cast
    rw [mul_left_comm, ← zpow_natCast, ← zpow_add₀ (by norm_num)]
    congr 2
    ring
  rw [hexp] at h4 h5
  push_cast at h4 h5
  exact ⟨h3, h4, h5⟩

/-- The enclosure of e^-(mant * 2^exp) encloses it. -/
theorem expNegBounds_spec (prec mant : Nat) (exp : ℤ) :
    ((expNegBounds prec mant exp).1 : ℝ) ≤ 2 ^ (expNegBounds prec mant exp).2.2 * Real.exp (-(mant * 2 ^ exp)) ∧
      2 ^ (expNegBounds prec mant exp).2.2 * Real.exp (-(mant * 2 ^ exp)) ≤ (expNegBounds prec mant exp).2.1 := by
  obtain ⟨h1, h2, h3⟩ := expBounds_spec prec mant exp
  unfold expNegBounds
  simp only []
  set i := expBounds prec mant exp
  generalize i.2.1.log2 + 1 = q
  have hE := Real.exp_pos ((mant : ℝ) * 2 ^ exp)
  set E := Real.exp ((mant : ℝ) * 2 ^ exp) with hEdef
  have hlo0 : 0 < i.1 := lt_of_lt_of_le (Nat.two_pow_pos _) h1
  have hlo : (0 : ℝ) < i.1 := by exact_mod_cast hlo0
  have hhi : (0 : ℝ) < i.2.1 := lt_of_lt_of_le hlo (le_trans h2 h3)
  have hw : (0 : ℝ) < 2 ^ i.2.2 := by positivity
  have hq : (0 : ℝ) < 2 ^ q := by positivity
  have hval : (2 : ℝ) ^ q * Real.exp (-(mant * 2 ^ exp)) = 2 ^ (i.2.2 + q) / (2 ^ i.2.2 * E) := by
    rw [Real.exp_neg, ← hEdef, pow_add]
    field_simp
  rw [hval]
  constructor
  · refine le_trans floorQuot_le ?_
    push_cast
    gcongr
  · refine le_trans ?_ (le_ceilQuot hlo0)
    push_cast
    gcongr

/-! ### The ends of the range -/

/-- From the overflow threshold on, everything rounds to infinity. -/
theorem nearestMag_infBits {f : FloatFormat} {x : ℝ} (h : (f.overflowAt : ℝ) ≤ x) : NearestMag f x f.infBits :=
  ⟨⟨fun _ => rfl, fun _ => h⟩, le_rfl, fun h => absurd h (lt_irrefl _), fun h => absurd h (lt_irrefl _)⟩

/-- Up to half the least subnormal, everything rounds to zero. -/
theorem nearestMag_zero_of_le {f : FloatFormat} (hf : f.Wide) {x : ℝ} (h0 : 0 ≤ x) (h : x ≤ 2 ^ (f.minExp - 1)) :
    NearestMag f x 0 := by
  have hB : (2 : ℝ) ^ f.minExp = 2 * 2 ^ (f.minExp - 1) := by
    rw [← zpow_one_add₀ (by norm_num)]
    congr 1
    ring
  have hpos : (0 : ℝ) < 2 ^ (f.minExp - 1) := by positivity
  have hU : (1 : ℝ) ≤ f.expUnit := by exact_mod_cast f.expUnit_pos
  have hr : x / 2 ^ f.minExp ≤ 1 / 2 := by
    rw [hB, div_le_iff₀ (by positivity)]
    linarith
  have hr0 : 0 ≤ x / 2 ^ f.minExp := by positivity
  have := nearestMag_of_nearestInt hf (x := x) (k := 0) (sig := 0) h0
    (by
      simp only [Nat.cast_zero, add_zero]
      rw [hB]
      nlinarith) (.inl rfl)
    ⟨by
      simp only [Nat.cast_zero, add_zero, zero_sub, abs_neg]
      rw [abs_of_nonneg hr0]
      exact hr, fun _ => rfl⟩
  simpa using this

/-! ### Rounding an enclosure -/

/-- An integer over a power of two, rounded. -/
theorem nearestMag_roundMag (n w : Nat) :
    NearestMag binary64 ((n : ℝ) * 2 ^ (-(w : ℤ))) (binary64.roundMag n (-(w : ℤ))) := by
  by_cases hn : n = 0
  · subst hn
    simpa [FloatFormat.roundMag] using nearestMag_zero binary64_wide
  · exact roundMag_of_standsFor binary64_wide _ (standsFor_self n) hn (.inl rfl)

/-- Where both ends round alike, the value between them does. -/
theorem roundEnclosure_spec {i : Nat × Nat × Nat} {x : ℝ} {mag : Nat} (h : roundEnclosure i = some mag)
    (hlo : (i.1 : ℝ) ≤ 2 ^ i.2.2 * x) (hhi : 2 ^ i.2.2 * x ≤ i.2.1) : NearestMag binary64 x mag := by
  have hw : (0 : ℝ) < 2 ^ i.2.2 := by positivity
  have hinv : (2 : ℝ) ^ (-(i.2.2 : ℤ)) = 1 / 2 ^ i.2.2 := by rw [zpow_neg, zpow_natCast, one_div]
  unfold roundEnclosure at h
  simp only [] at h
  split at h
  · rename_i heq
    injection h with h
    have h1 := nearestMag_roundMag i.1 i.2.2
    have h2 := nearestMag_roundMag i.2.1 i.2.2
    rw [← heq] at h2
    rw [h] at h1 h2
    refine h1.between h2 ?_ ?_
    · rw [hinv, mul_one_div, div_le_iff₀ hw]
      linarith
    · rw [hinv, mul_one_div, le_div_iff₀ hw]
      linarith
  · cases h

end Sys2Proof.Machine
end

