-- ==== Sys2Proof/Laws/Tangent.lean ====
section
/-! SUPPORT. The enclosures of tan64 (spec/00_scope.md R24) enclose: pi by Machin's formula, the reduced operand, the Taylor sums of sine and
cosine, and their quotient. -/

namespace Sys2Proof.Machine

/-! ### pi -/

/-- Term i of the series of arctan(1/q). -/
noncomputable def arctanTerm (q i : Nat) : ℝ := 1 / ((2 * i + 1 : Nat) * (q : ℝ) ^ (2 * i + 1))

theorem arctanTerm_nonneg (q i : Nat) : 0 ≤ arctanTerm q i := by unfold arctanTerm; positivity

/-- Each cut term is less than 1 off. -/
theorem arctanSum_bounds (S q : Nat) (hq : 0 < q) : ∀ (n j : Nat) (acc : ℤ),
    |((arctanSum q n j (S / q ^ (2 * j + 1)) acc : ℤ) : ℝ) -
      (acc + S * ∑ i ∈ Finset.range n, (-1 : ℝ) ^ (j + i) * arctanTerm q (j + i))| ≤ n := by
  intro n
  induction n with
  | zero => intro j acc; simp [arctanSum]
  | succ n ih =>
    intro j acc
    have hdiv : S / q ^ (2 * j + 1) / (q * q) = S / q ^ (2 * (j + 1) + 1) := by
      rw [Nat.div_div_eq_div_mul]
      congr 1
      ring
    have hterm : S / q ^ (2 * j + 1) / (2 * j + 1) = S / (q ^ (2 * j + 1) * (2 * j + 1)) := Nat.div_div_eq_div_mul _ _ _
    have hd : 0 < q ^ (2 * j + 1) * (2 * j + 1) := Nat.mul_pos (Nat.pow_pos hq) (Nat.succ_pos _)
    have hdr : (0 : ℝ) < ((q ^ (2 * j + 1) * (2 * j + 1) : Nat) : ℝ) := by exact_mod_cast hd
    have hval : (S : ℝ) * arctanTerm q j = S / ((q ^ (2 * j + 1) * (2 * j + 1) : Nat) : ℝ) := by
      unfold arctanTerm
      push_cast
      rw [mul_one_div, mul_comm ((q : ℝ) ^ _)]
    have hlo : ((S / (q ^ (2 * j + 1) * (2 * j + 1)) : Nat) : ℝ) ≤ S * arctanTerm q j := by
      rw [hval]
      exact floorQuot_le
    have hhi : (S : ℝ) * arctanTerm q j ≤ (S / (q ^ (2 * j + 1) * (2 * j + 1)) : Nat) + 1 := by
      rw [hval, div_le_iff₀ hdr]
      have h1 := Nat.lt_div_mul_add (a := S) hd
      have : S ≤ (S / (q ^ (2 * j + 1) * (2 * j + 1)) + 1) * (q ^ (2 * j + 1) * (2 * j + 1)) := by
        rw [Nat.add_mul, Nat.one_mul]
        omega
      exact_mod_cast this
    rw [arctanSum, hdiv, hterm]
    set t := S / (q ^ (2 * j + 1) * (2 * j + 1))
    have hsum : ∑ i ∈ Finset.range (n + 1), (-1 : ℝ) ^ (j + i) * arctanTerm q (j + i) =
        (-1 : ℝ) ^ j * arctanTerm q j +
          ∑ i ∈ Finset.range n, (-1 : ℝ) ^ (j + 1 + i) * arctanTerm q (j + 1 + i) := by
      rw [Finset.sum_range_succ', add_comm]
      congr 1
      apply Finset.sum_congr rfl
      intro i _
      rw [show j + (i + 1) = j + 1 + i by omega]
    rw [hsum]
    have hstep : ∀ acc' : ℤ, |((acc' : ℤ) : ℝ) - (acc + S * ((-1 : ℝ) ^ j * arctanTerm q j))| ≤ 1 →
        |((arctanSum q n (j + 1) (S / q ^ (2 * (j + 1) + 1)) acc' : ℤ) : ℝ) -
          (acc + S * ((-1 : ℝ) ^ j * arctanTerm q j +
            ∑ i ∈ Finset.range n, (-1 : ℝ) ^ (j + 1 + i) * arctanTerm q (j + 1 + i)))| ≤ ((n + 1 : Nat) : ℝ) := by
      intro acc' h
      have h2 := ih (j + 1) acc'
      push_cast
      rw [abs_le] at h h2 ⊢
      constructor <;> linarith [h.1, h.2, h2.1, h2.2]
    apply hstep
    split
    · rename_i he
      rw [Even.neg_one_pow (Nat.even_iff.2 he), one_mul]
      push_cast
      rw [abs_le]
      constructor <;> linarith
    · rename_i he
      rw [Odd.neg_one_pow (Nat.odd_iff.2 (by omega)), neg_one_mul]
      push_cast
      rw [abs_le]
      constructor <;> linarith

theorem arctanTerm_antitone {q : Nat} (hq : 1 ≤ q) : Antitone (arctanTerm q) := by
  apply antitone_nat_of_succ_le
  intro i
  unfold arctanTerm
  have hq' : (1 : ℝ) ≤ q := by exact_mod_cast hq
  have h2 : (q : ℝ) ^ (2 * i + 1) ≤ q ^ (2 * (i + 1) + 1) := pow_le_pow_right₀ hq' (by omega)
  have h3 : (((2 * i + 1 : Nat)) : ℝ) ≤ ((2 * (i + 1) + 1 : Nat) : ℝ) := by exact_mod_cast (by omega)
  have h4 : (0 : ℝ) < ((2 * i + 1 : Nat) : ℝ) := by positivity
  have h5 : (0 : ℝ) < (q : ℝ) ^ (2 * i + 1) := by positivity
  apply one_div_le_one_div_of_le (mul_pos h4 h5)
  exact mul_le_mul h3 h2 h5.le (by positivity)

/-- What the first n terms of the series leave out is at most the next one. -/
theorem arctan_tail {q : Nat} (hq : 2 ≤ q) (n : Nat) :
    |Real.arctan (q : ℝ)⁻¹ - ∑ i ∈ Finset.range n, (-1 : ℝ) ^ i * arctanTerm q i| ≤ arctanTerm q n := by
  have hq' : (1 : ℝ) < q := by exact_mod_cast (by omega : 1 < q)
  have hx : ‖(q : ℝ)⁻¹‖ < 1 := by
    rw [norm_inv, Real.norm_of_nonneg (by linarith)]
    exact inv_lt_one_of_one_lt₀ hq'
  have hs : HasSum (fun i : Nat => (-1 : ℝ) ^ i * arctanTerm q i) (Real.arctan (q : ℝ)⁻¹) := by
    have h := Real.hasSum_arctan hx
    convert h using 2 with i
    unfold arctanTerm
    rw [inv_pow, mul_div_assoc]
    congr 1
    rw [one_div, mul_inv, div_eq_mul_inv, mul_comm]
  have ht := hs.tendsto_sum_nat
  have ha := arctanTerm_antitone (q := q) (by omega)
  have hlo := ha.alternating_series_le_tendsto ht
  have hhi := ha.tendsto_le_alternating_series ht
  have h0 := arctanTerm_nonneg q n
  rcases Nat.even_or_odd' n with ⟨k, rfl | rfl⟩
  · have h1 := hlo k
    have h2 := hhi k
    rw [Finset.sum_range_succ, Even.neg_one_pow (even_two_mul k), one_mul] at h2
    rw [abs_le]
    constructor <;> linarith
  · have h1 := hhi k
    have h2 := hlo (k + 1)
    rw [show 2 * (k + 1) = (2 * k + 1) + 1 by ring, Finset.sum_range_succ,
      Odd.neg_one_pow ⟨k, rfl⟩, neg_one_mul] at h2
    rw [abs_le]
    constructor <;> linarith

/-- The scaled sum of the series is less than n + 1 off. -/
theorem arctanSum_spec {q : Nat} (hq : 4 ≤ q) (w : Nat) :
    |((arctanSum q (w / 4 + 4) 0 (2 ^ w / q) 0 : ℤ) : ℝ) - 2 ^ w * Real.arctan (q : ℝ)⁻¹| ≤ ((w / 4 + 4 : Nat) : ℝ) + 1 := by
  set n := w / 4 + 4 with hn
  have h1 := arctanSum_bounds (2 ^ w) q (by omega) n 0 0
  have h2 := arctan_tail (q := q) (by omega) n
  simp only [Nat.mul_zero, pow_one, Int.cast_zero, zero_add] at h1
  push_cast at h1
  have h3 : (2 : ℝ) ^ w * arctanTerm q n ≤ 1 := by
    unfold arctanTerm
    have hq' : (4 : ℝ) ≤ q := by exact_mod_cast hq
    have h4 : (2 : ℝ) ^ w ≤ (q : ℝ) ^ (2 * n + 1) := by
      calc (2 : ℝ) ^ w ≤ 2 ^ (2 * (2 * n + 1)) := pow_le_pow_right₀ (by norm_num) (by omega)
        _ = 4 ^ (2 * n + 1) := by rw [pow_mul]; norm_num
        _ ≤ (q : ℝ) ^ (2 * n + 1) := pow_le_pow_left₀ (by norm_num) hq' _
    have h5 : (1 : ℝ) ≤ ((2 * n + 1 : Nat) : ℝ) := by exact_mod_cast (by omega)
    have h6 : (0 : ℝ) < (q : ℝ) ^ (2 * n + 1) := by positivity
    rw [mul_one_div, div_le_one (by positivity)]
    nlinarith
  have hw : (0 : ℝ) < 2 ^ w := by positivity
  rw [abs_le] at h1 h2 ⊢
  have h7 := mul_le_mul_of_nonneg_left h2.1 hw.le
  have h8 := mul_le_mul_of_nonneg_left h2.2 hw.le
  constructor <;> linarith [h1.1, h1.2]

/-- The enclosure of pi encloses it. -/
theorem piBounds_spec (w : Nat) : ((piBounds w).1 : ℝ) ≤ 2 ^ w * Real.pi ∧ 2 ^ w * Real.pi ≤ (piBounds w).2 := by
  unfold piBounds
  simp only []
  have h5 := arctanSum_spec (q := 5) (by norm_num) w
  have h239 := arctanSum_spec (q := 239) (by norm_num) w
  have hm := Real.four_mul_arctan_inv_5_sub_arctan_inv_239
  generalize w / 4 + 4 = n at *
  push_cast at h5 h239
  set A := arctanSum 5 n 0 (2 ^ w / 5) 0
  set B := arctanSum 239 n 0 (2 ^ w / 239) 0
  have hpi : (2 : ℝ) ^ w * Real.pi =
      16 * (2 ^ w * Real.arctan 5⁻¹) - 4 * (2 ^ w * Real.arctan 239⁻¹) := by
    have : Real.pi = 16 * Real.arctan 5⁻¹ - 4 * Real.arctan 239⁻¹ := by linarith
    rw [this]
    ring
  have hn : (((n : Nat) : ℤ) : ℝ) = (n : ℝ) := by norm_cast
  have hpos : 0 < (2 : ℝ) ^ w * Real.pi := by have := Real.pi_pos; positivity
  rw [abs_le] at h5 h239
  constructor
  · rcases le_total 0 (16 * A - 4 * B - 20 * ((n + 1 : Nat) : ℤ)) with h | h
    · have : (((16 * A - 4 * B - 20 * ((n + 1 : Nat) : ℤ)).toNat : Nat) : ℝ) =
          ((16 * A - 4 * B - 20 * ((n + 1 : Nat) : ℤ) : ℤ) : ℝ) := by
        rw [← Int.cast_natCast, Int.toNat_of_nonneg h]
      rw [this, hpi]
      push_cast
      linarith [h5.1, h5.2, h239.1, h239.2]
    · rw [Int.toNat_of_nonpos h]
      simpa using hpos.le
  · have : ((16 * A - 4 * B + 20 * ((n + 1 : Nat) : ℤ) : ℤ) : ℝ) ≤
        (((16 * A - 4 * B + 20 * ((n + 1 : Nat) : ℤ)).toNat : Nat) : ℝ) := by
      rw [← Int.cast_natCast]
      exact_mod_cast Int.self_le_toNat _
    refine le_trans ?_ this
    rw [hpi]
    push_cast
    linarith [h5.1, h5.2, h239.1, h239.2]

/-! ### The reduced operand -/

theorem tanReduce_spec (prec mant : Nat) (exp : ℤ) :
    let r := tanReduce prec mant exp
    (r.2.1 : ℝ) ≤ 2 ^ r.2.2.2 * (mant * 2 ^ exp - r.1 * (Real.pi / 2)) ∧
      2 ^ r.2.2.2 * (mant * 2 ^ exp - r.1 * (Real.pi / 2)) ≤ r.2.2.1 := by
  unfold tanReduce
  simp only []
  set w := max (prec + ((mant.log2 : ℤ) + 1 + exp).natAbs + 32) (-exp).toNat with hw
  have hwe : (-exp).toNat ≤ w := le_max_right _ _
  obtain ⟨h1, h2⟩ := piBounds_spec w
  set p := piBounds w
  set x := mant * 2 ^ (exp + w).toNat with hx
  set n := 2 * x / p.2
  have hxr : (x : ℝ) = 2 ^ w * (mant * 2 ^ exp) := by
    have : (2 : ℝ) ^ (exp + w).toNat = 2 ^ w * 2 ^ exp := by
      rw [← zpow_natCast, Int.toNat_of_nonneg (by omega), zpow_add₀ (by norm_num), zpow_natCast]
      ring
    rw [hx]
    push_cast
    rw [this]
    ring
  have hn : n * p.2 ≤ 2 * x := Nat.div_mul_le_self _ _
  have hp : p.1 ≤ p.2 := by exact_mod_cast le_trans h1 h2
  have hn' : n * p.1 ≤ 2 * x := le_trans (Nat.mul_le_mul_left _ hp) hn
  have hval : (2 : ℝ) ^ (w + 1) * (mant * 2 ^ exp - n * (Real.pi / 2)) = 2 * x - n * (2 ^ w * Real.pi) := by
    rw [hxr, pow_succ]
    ring
  have hn0 : (0 : ℝ) ≤ n := Nat.cast_nonneg n
  rw [hval, Nat.cast_sub hn, Nat.cast_sub hn']
  push_cast
  have h3 := mul_le_mul_of_nonneg_left h1 hn0
  have h4 := mul_le_mul_of_nonneg_left h2 hn0
  constructor <;> linarith

/-! ### Sine and cosine -/

/-- Term j of the Taylor series of cosine and of sine. -/
noncomputable def cosTerm (r : ℝ) (j : Nat) : ℝ := if j % 4 = 0 then expTerm r j else if j % 4 = 2 then -expTerm r j else 0
noncomputable def sinTerm (r : ℝ) (j : Nat) : ℝ := if j % 4 = 1 then expTerm r j else if j % 4 = 3 then -expTerm r j else 0

theorem complexTerm_eq (r : ℝ) (j : Nat) :
    ((r : ℂ) * Complex.I) ^ j / (j.factorial : ℂ) = (cosTerm r j : ℂ) + (sinTerm r j : ℂ) * Complex.I := by
  have hpow : Complex.I ^ j = Complex.I ^ (j % 4) := by
    conv_lhs => rw [← Nat.div_add_mod j 4, pow_add, pow_mul, Complex.I_pow_four, one_pow, one_mul]
  have hval : ((r : ℂ) * Complex.I) ^ j / (j.factorial : ℂ) = (expTerm r j : ℂ) * Complex.I ^ (j % 4) := by
    rw [mul_pow, hpow]
    unfold expTerm
    push_cast
    ring
  rw [hval]
  have h4 : j % 4 = 0 ∨ j % 4 = 1 ∨ j % 4 = 2 ∨ j % 4 = 3 := by omega
  unfold cosTerm sinTerm
  rcases h4 with h | h | h | h <;> rw [h]
  · simp
  · simp
  · simp
  · simp [pow_succ]

/-- The series of cosine and sine leave out at most twice the next term. -/
theorem trig_tail {r : ℝ} (hr : 0 ≤ r) {n : Nat} (h : r / ((n : ℝ) + 1) ≤ 1 / 2) :
    |Real.cos r - ∑ j ∈ Finset.range n, cosTerm r j| ≤ 2 * expTerm r n ∧
      |Real.sin r - ∑ j ∈ Finset.range n, sinTerm r j| ≤ 2 * expTerm r n := by
  have hnorm : ‖(r : ℂ) * Complex.I‖ = r := by
    rw [norm_mul, Complex.norm_I, mul_one, Complex.norm_real, Real.norm_of_nonneg hr]
  have hb := Complex.exp_bound' (x := (r : ℂ) * Complex.I) (n := n) (by rw [hnorm]; push_cast; exact h)
  rw [hnorm] at hb
  have hsum : ∑ m ∈ Finset.range n, ((r : ℂ) * Complex.I) ^ m / (m.factorial : ℂ) =
      ((∑ j ∈ Finset.range n, cosTerm r j : ℝ) : ℂ) + ((∑ j ∈ Finset.range n, sinTerm r j : ℝ) : ℂ) * Complex.I := by
    push_cast
    rw [Finset.sum_mul, ← Finset.sum_add_distrib]
    exact Finset.sum_congr rfl fun j _ => complexTerm_eq r j
  have hexp : Complex.exp ((r : ℂ) * Complex.I) = ((Real.cos r : ℝ) : ℂ) + ((Real.sin r : ℝ) : ℂ) * Complex.I := by
    rw [Complex.exp_mul_I, Complex.ofReal_cos, Complex.ofReal_sin]
  rw [hsum, hexp] at hb
  have hval : r ^ n / (n.factorial : ℝ) * 2 = 2 * expTerm r n := by unfold expTerm; ring
  rw [hval] at hb
  set c := ∑ j ∈ Finset.range n, cosTerm r j
  set s := ∑ j ∈ Finset.range n, sinTerm r j
  have hz : ((Real.cos r : ℝ) : ℂ) + ((Real.sin r : ℝ) : ℂ) * Complex.I - ((c : ℂ) + (s : ℂ) * Complex.I) =
      ((Real.cos r - c : ℝ) : ℂ) + ((Real.sin r - s : ℝ) : ℂ) * Complex.I := by
    push_cast
    ring
  rw [hz] at hb
  have hre := Complex.abs_re_le_norm (((Real.cos r - c : ℝ) : ℂ) + ((Real.sin r - s : ℝ) : ℂ) * Complex.I)
  have him := Complex.abs_im_le_norm (((Real.cos r - c : ℝ) : ℂ) + ((Real.sin r - s : ℝ) : ℂ) * Complex.I)
  simp only [Complex.add_re, Complex.add_im, Complex.ofReal_re, Complex.ofReal_im, Complex.mul_re, Complex.mul_im,
    Complex.I_re, Complex.I_im, mul_zero, mul_one, sub_zero, zero_add, add_zero] at hre him
  exact ⟨le_trans hre hb, le_trans him hb⟩

/-- Bounds that enclose S times two sums. -/
def TrigBounds.Encloses (b : TrigBounds) (S c s : ℝ) : Prop :=
  ((b.cosLo : ℝ) ≤ S * c ∧ S * c ≤ b.cosHi) ∧ ((b.sinLo : ℝ) ≤ S * s ∧ S * s ≤ b.sinHi)

theorem addTrigTerm_encloses {b : TrigBounds} {S c s r : ℝ} {j tlo thi : Nat} (hb : b.Encloses S c s)
    (h1 : (tlo : ℝ) ≤ S * expTerm r j) (h2 : S * expTerm r j ≤ thi) :
    (addTrigTerm j tlo thi b).Encloses S (c + cosTerm r j) (s + sinTerm r j) := by
  obtain ⟨⟨h3, h4⟩, h5, h6⟩ := hb
  have hcases : j % 4 = 0 ∨ j % 4 = 1 ∨ j % 4 = 2 ∨ j % 4 = 3 := by omega
  unfold addTrigTerm cosTerm sinTerm TrigBounds.Encloses
  rcases hcases with h | h | h | h <;> rw [h] <;> simp <;> refine ⟨⟨?_, ?_⟩, ?_, ?_⟩ <;> linarith

theorem trigSeries_encloses {S rlo rhi : Nat} {r : ℝ} (hS : 0 < S) (hr : 0 ≤ r) (hlo : (rlo : ℝ) ≤ S * r) (hhi : S * r ≤ rhi) :
    ∀ (n j tlo thi : Nat) (b : TrigBounds), (tlo : ℝ) ≤ S * expTerm r j → S * expTerm r j ≤ thi →
      b.Encloses S (∑ i ∈ Finset.range j, cosTerm r i) (∑ i ∈ Finset.range j, sinTerm r i) →
      ∀ c s : ℝ, |c - ∑ i ∈ Finset.range (j + n), cosTerm r i| ≤ 2 * expTerm r (j + n) →
        |s - ∑ i ∈ Finset.range (j + n), sinTerm r i| ≤ 2 * expTerm r (j + n) →
        (trigSeries S rlo rhi n j tlo thi b).Encloses S c s := by
  intro n
  induction n with
  | zero =>
    intro j tlo thi b h1 h2 hb c s hc hs
    obtain ⟨⟨h3, h4⟩, h5, h6⟩ := hb
    have hSr : (0 : ℝ) ≤ S := Nat.cast_nonneg S
    rw [Nat.add_zero, abs_le] at hc hs
    have e1 := mul_le_mul_of_nonneg_left hc.1 hSr
    have e2 := mul_le_mul_of_nonneg_left hc.2 hSr
    have e3 := mul_le_mul_of_nonneg_left hs.1 hSr
    have e4 := mul_le_mul_of_nonneg_left hs.2 hSr
    unfold TrigBounds.Encloses trigSeries
    push_cast
    refine ⟨⟨?_, ?_⟩, ?_, ?_⟩ <;> linarith
  | succ n ih =>
    intro j tlo thi b h1 h2 hb c s hc hs
    obtain ⟨h5, h6⟩ := nextTerm_bounds hS hr hlo hhi h1 h2
    rw [trigSeries]
    refine ih (j + 1) _ _ _ h5 h6 ?_ c s (by rwa [show j + 1 + n = j + (n + 1) by omega])
      (by rwa [show j + 1 + n = j + (n + 1) by omega])
    rw [Finset.sum_range_succ, Finset.sum_range_succ]
    exact addTrigTerm_encloses hb h1 h2

/-! ### The quotient -/

theorem ratioBounds_spec {w : Nat} {numLo numHi denLo denHi : ℤ} {i : Nat × Nat × Nat} {S num den : ℝ} (hS : 0 < S)
    (h : ratioBounds w numLo numHi denLo denHi = some i) (h1 : (numLo : ℝ) ≤ S * num) (h2 : S * num ≤ numHi)
    (h3 : (denLo : ℝ) ≤ S * den) (h4 : S * den ≤ denHi) :
    0 < num ∧ 0 < den ∧ (i.1 : ℝ) ≤ 2 ^ i.2.2 * (num / den) ∧ 2 ^ i.2.2 * (num / den) ≤ i.2.1 := by
  unfold ratioBounds at h
  split at h
  · rename_i hpos
    obtain ⟨p1, p2⟩ := hpos
    injection h with h
    subst h
    have q1 : (0 : ℝ) < numLo := by exact_mod_cast p1
    have q2 : (0 : ℝ) < denLo := by exact_mod_cast p2
    have hnum : 0 < num := pos_of_mul_pos_right (lt_of_lt_of_le q1 h1) hS.le
    have hden : 0 < den := pos_of_mul_pos_right (lt_of_lt_of_le q2 h3) hS.le
    have q3 : (0 : ℝ) < denHi := lt_of_lt_of_le (mul_pos hS hden) h4
    have q4 : (0 : ℝ) < numHi := lt_of_lt_of_le (mul_pos hS hnum) h2
    have cast : ∀ z : ℤ, (0 : ℝ) < z → ((z.toNat : Nat) : ℝ) = z := by
      intro z hz
      have : 0 ≤ z := by exact_mod_cast hz.le
      rw [← Int.cast_natCast, Int.toNat_of_nonneg this]
    have hval : (2 : ℝ) ^ w * (num / den) = (S * num) * 2 ^ w / (S * den) := by field_simp
    refine ⟨hnum, hden, ?_, ?_⟩
    · refine le_trans floorQuot_le ?_
      simp only []
      rw [hval]
      push_cast
      rw [cast _ q1, cast _ q3]
      have : (0 : ℝ) < S * den := mul_pos hS hden
      gcongr
    · have hd : 0 < denLo.toNat := by omega
      refine le_trans ?_ (le_ceilQuot hd)
      simp only []
      rw [hval]
      push_cast
      rw [cast _ q4, cast _ q2]
      gcongr
  · cases h

/-- The enclosure of the tangent of a positive operand encloses its magnitude, and comes with its sign. -/
theorem tanBounds_spec {prec mant : Nat} {exp : ℤ} {flip : Bool} {i : Nat × Nat × Nat}
    (h : tanBounds prec mant exp = some (flip, i)) :
    (i.1 : ℝ) ≤ 2 ^ i.2.2 * |Real.tan (mant * 2 ^ exp)| ∧ 2 ^ i.2.2 * |Real.tan (mant * 2 ^ exp)| ≤ i.2.1 ∧
      (flip = true ↔ Real.tan (mant * 2 ^ exp) < 0) := by
  obtain ⟨hlo, hhi⟩ := tanReduce_spec prec mant exp
  unfold tanBounds at h
  simp only [] at h
  set R := tanReduce prec mant exp
  set w := R.2.2.2
  set n := R.1
  set r : ℝ := mant * 2 ^ exp - n * (Real.pi / 2) with hr
  have hx : (mant : ℝ) * 2 ^ exp = r + n * (Real.pi / 2) := by rw [hr]; ring
  have hS : 0 < 2 ^ w := Nat.two_pow_pos w
  have hSr : (0 : ℝ) < ((2 ^ w : Nat) : ℝ) := by exact_mod_cast hS
  have hlo' : (R.2.1 : ℝ) ≤ ((2 ^ w : Nat) : ℝ) * r := by push_cast; exact hlo
  have hhi' : ((2 ^ w : Nat) : ℝ) * r ≤ (R.2.2.1 : ℝ) := by push_cast; exact hhi
  have hr0 : 0 ≤ r := by
    by_contra hneg
    have := mul_neg_of_pos_of_neg hSr (not_le.1 hneg)
    have : (0 : ℝ) ≤ R.2.1 := Nat.cast_nonneg _
    linarith
  split at h
  · cases h
  rename_i hle
  have hr2 : r ≤ 2 := by
    have h1 : (R.2.2.1 : ℝ) ≤ ((2 * 2 ^ w : Nat) : ℝ) := by exact_mod_cast not_lt.1 hle
    push_cast at h1 hhi' hSr
    nlinarith
  have h00 : ((2 ^ w : Nat) : ℝ) * expTerm r 0 = ((2 ^ w : Nat) : ℝ) := by simp [expTerm]
  obtain ⟨tc, ts⟩ := trig_tail hr0 (n := 0 + (w / 4 + 24)) (by
    rw [div_le_iff₀ (by positivity)]
    push_cast
    have : (0 : ℝ) ≤ ((w / 4 : Nat) : ℝ) := Nat.cast_nonneg _
    linarith)
  have henc := trigSeries_encloses hS hr0 hlo' hhi' (w / 4 + 24) 0 (2 ^ w) (2 ^ w) ⟨0, 0, 0, 0⟩ (by rw [h00]) (by rw [h00])
    (by simp [TrigBounds.Encloses]) (Real.cos r) (Real.sin r) tc ts
  set t := trigSeries (2 ^ w) R.2.1 R.2.2.1 (w / 4 + 24) 0 (2 ^ w) (2 ^ w) ⟨0, 0, 0, 0⟩
  obtain ⟨⟨hc1, hc2⟩, hs1, hs2⟩ := henc
  rw [hx]
  split at h
  · rename_i heven
    obtain ⟨i', hi', heq⟩ := Option.map_eq_some_iff.1 h
    injection heq with hf hi
    subst hf
    subst hi
    obtain ⟨p1, p2, p3, p4⟩ := ratioBounds_spec hSr hi' hs1 hs2 hc1 hc2
    obtain ⟨k, hk⟩ : ∃ k : Nat, n = 2 * k := ⟨n / 2, by omega⟩
    have htan : Real.tan (r + n * (Real.pi / 2)) = Real.sin r / Real.cos r := by
      rw [hk]
      push_cast
      rw [show r + 2 * (k : ℝ) * (Real.pi / 2) = r + k * Real.pi by ring, Real.tan_add_nat_mul_pi,
        Real.tan_eq_sin_div_cos]
    rw [htan]
    have hpos : 0 < Real.sin r / Real.cos r := div_pos p1 p2
    rw [abs_of_pos hpos]
    exact ⟨p3, p4, by simp [hpos.le]⟩
  · rename_i hodd
    obtain ⟨i', hi', heq⟩ := Option.map_eq_some_iff.1 h
    injection heq with hf hi
    subst hf
    subst hi
    obtain ⟨p1, p2, p3, p4⟩ := ratioBounds_spec hSr hi' hc1 hc2 hs1 hs2
    obtain ⟨k, hk⟩ : ∃ k : Nat, n = 2 * k + 1 := ⟨n / 2, by omega⟩
    have htan : Real.tan (r + n * (Real.pi / 2)) = -(Real.cos r / Real.sin r) := by
      rw [hk]
      push_cast
      rw [show r + (2 * (k : ℝ) + 1) * (Real.pi / 2) = (r + Real.pi / 2) + k * Real.pi by ring,
        Real.tan_add_nat_mul_pi, Real.tan_eq_sin_div_cos, Real.sin_add_pi_div_two, Real.cos_add_pi_div_two, div_neg]
    rw [htan]
    have hpos : 0 < Real.cos r / Real.sin r := div_pos p1 p2
    rw [abs_neg, abs_of_pos hpos]
    exact ⟨p3, p4, by simp [hpos]⟩

end Sys2Proof.Machine
end

