-- ==== Sys2Proof/Laws/Elementary.lean ====
section
/-! SUPPORT. exp64 and tan64 (spec/00_scope.md R24) are decided for every operand: the Taylor enclosures close in on a value
that is irrational, hence half-way between no two binary64 values, so both their ends round alike in the end, and the search
for such an enclosure ends. -/

section
open Filter Topology

namespace Sys2Proof.Machine

/-! ### Rounding near an irrational number -/

/-- Near an irrational number every real number rounds alike. -/
theorem eventually_nearestMag {f : FloatFormat} {x : ℝ} (hx : Irrational x) :
    ∃ m, ∀ᶠ y in 𝓝 x, ∀ mag, NearestMag f y mag → mag = m := by
  rcases lt_or_gt_of_ne (hx.ne_rat f.overflowAt) with h | h
  swap
  · exact ⟨f.infBits, (eventually_gt_nhds h).mono fun y hy mag hm => hm.overflow.1 hy.le⟩
  by_cases h0 : f.infBits = 0
  · exact ⟨0, .of_forall fun y mag hm => Nat.le_zero.1 (h0 ▸ hm.le_inf)⟩
  obtain ⟨m, hm, hmin⟩ := Finset.exists_min_image (Finset.range f.infBits) (fun z => |(f.value z : ℝ) - x|)
    ⟨0, Finset.mem_range.2 (Nat.pos_of_ne_zero h0)⟩
  rw [Finset.mem_range] at hm
  have hcloser : ∀ z ∈ Finset.range f.infBits, ∀ᶠ y in 𝓝 x, z ≠ m → |(f.value m : ℝ) - y| < |(f.value z : ℝ) - y| := by
    intro z hz
    by_cases hzm : z = m
    · exact .of_forall fun y h => absurd hzm h
    have hne : (f.value m : ℝ) ≠ f.value z := by
      rw [f.value_eq_magVal hm, f.value_eq_magVal (Finset.mem_range.1 hz)]
      exact fun h => hzm (f.magVal_strictMono.injective h).symm
    have hlt : |(f.value m : ℝ) - x| < |(f.value z : ℝ) - x| := by
      refine lt_of_le_of_ne (hmin z hz) fun heq => ?_
      rcases abs_eq_abs.1 heq with h | h
      · exact hne (by linarith)
      · exact hx.ne_rat ((f.value m + f.value z) / 2) (by push_cast; linarith)
    have hcont : ∀ v : ℝ, Continuous fun y : ℝ => |v - y| := fun v => (continuous_const.sub continuous_id).abs
    exact ((hcont _).continuousAt.eventually_lt (hcont _).continuousAt hlt).mono fun y hy _ => hy
  refine ⟨m, ?_⟩
  filter_upwards [eventually_lt_nhds h, (eventually_all_finset _).2 hcloser] with y hy hall mag hmag
  have hlt : mag < f.infBits :=
    lt_of_le_of_ne hmag.le_inf fun heq => absurd (hmag.overflow.2 heq) (not_le.2 hy)
  by_contra hne
  exact absurd (hmag.nearest hlt m hm) (not_le.2 (hall mag (Finset.mem_range.2 hlt) hne))

/-- Enclosures that close in on an irrational number round alike at both ends in the end. -/
theorem eventually_roundEnclosure {x : ℝ} (hx : Irrational x) {lo hi : Nat → Nat}
    (hlo : Tendsto (fun n => (lo n : ℝ) / 2 ^ n) atTop (𝓝 x)) (hhi : Tendsto (fun n => (hi n : ℝ) / 2 ^ n) atTop (𝓝 x)) :
    ∀ᶠ n in atTop, roundEnclosure (lo n, hi n, n) ≠ none := by
  obtain ⟨m, hm⟩ := eventually_nearestMag (f := binary64) hx
  filter_upwards [hlo.eventually hm, hhi.eventually hm] with n h1 h2
  have key : ∀ k : Nat, (k : ℝ) * 2 ^ (-(n : ℤ)) = (k : ℝ) / 2 ^ n := by
    intro k
    rw [zpow_neg, zpow_natCast, div_eq_mul_inv]
  have e1 := h1 _ (key (lo n) ▸ nearestMag_roundMag (lo n) n)
  have e2 := h2 _ (key (hi n) ▸ nearestMag_roundMag (hi n) n)
  simp [roundEnclosure, e1, e2]

/-! ### The search -/

/-- A search over attempts that are right where they decide, and that decide in the end, is right. -/
theorem searchFrom_spec {α : Type} [Nonempty α] {f : Nat → Option α} {P : α → Prop} (hP : ∀ n a, f n = some a → P a)
    (hf : ∀ᶠ n in atTop, f n ≠ none) {n : Nat} (hn : 0 < n) : P (searchFrom f n) := by
  obtain ⟨N, hN⟩ := eventually_atTop.1 hf
  induction hk : N - n using Nat.strong_induction_on generalizing n with
  | _ k ih =>
    rw [searchFrom]
    split
    · rename_i a ha
      exact hP _ _ ha
    · rename_i hnone
      have hlt : n < N := by
        by_contra hge
        exact hN n (by omega) hnone
      exact ih (N - 2 * n) (by omega) (by omega) rfl

/-- The same of the tried precisions with the search after them. -/
theorem firstDecided_spec {α : Type} [Nonempty α] {enclosed taylor : Nat → Option α} {P : α → Prop}
    (h1 : ∀ n a, enclosed n = some a → P a) (h2 : ∀ n a, taylor n = some a → P a)
    (h3 : ∀ᶠ n in atTop, taylor n ≠ none) : P (firstDecided enclosed taylor) := by
  unfold firstDecided
  split
  · rename_i a ha
    obtain ⟨n, -, hn⟩ := List.exists_of_findSome?_eq_some ha
    exact h1 n a hn
  · exact searchFrom_spec h2 h3 Nat.one_pos

/-! ### Rational enclosures -/

theorem dyadicBounds_spec {n : Nat} {lo hi : ℚ} {x : ℝ} (hx : 0 ≤ x) (h1 : (lo : ℝ) ≤ x) (h2 : x ≤ hi) :
    ((dyadicBounds n lo hi).1 : ℝ) ≤ 2 ^ n * x ∧ 2 ^ n * x ≤ (dyadicBounds n lo hi).2.1 := by
  have hw : (0 : ℝ) < 2 ^ n := by positivity
  unfold dyadicBounds
  simp only []
  constructor
  · rcases le_total 0 ⌊lo * 2 ^ n⌋ with h | h
    · have hf : ((⌊lo * 2 ^ n⌋ : ℚ) : ℝ) ≤ ((lo * 2 ^ n : ℚ) : ℝ) := by exact_mod_cast Int.floor_le (lo * 2 ^ n)
      rw [← Int.cast_natCast, Int.toNat_of_nonneg h]
      push_cast at hf
      nlinarith
    · rw [Int.toNat_of_nonpos h]
      simpa using mul_nonneg hw.le hx
  · have hc : ((lo * 2 ^ n : ℚ) : ℝ) = lo * 2 ^ n := by push_cast; rfl
    have hf : ((hi * 2 ^ n : ℚ) : ℝ) ≤ ((⌈hi * 2 ^ n⌉ : ℚ) : ℝ) := by exact_mod_cast Int.le_ceil (hi * 2 ^ n)
    have ht : ((⌈hi * 2 ^ n⌉ : ℤ) : ℝ) ≤ ((⌈hi * 2 ^ n⌉.toNat : Nat) : ℝ) := by
      rw [← Int.cast_natCast]
      exact_mod_cast Int.self_le_toNat _
    push_cast at hf
    nlinarith

/-- Rational numbers that close in on a positive number do so once they are cut to multiples of 2^-n. -/
theorem tendsto_dyadicBounds {x : ℝ} (hx : 0 < x) {lo hi : Nat → ℚ} (hlo : Tendsto (fun n => (lo n : ℝ)) atTop (𝓝 x))
    (hhi : Tendsto (fun n => (hi n : ℝ)) atTop (𝓝 x)) :
    Tendsto (fun n => ((dyadicBounds n (lo n) (hi n)).1 : ℝ) / 2 ^ n) atTop (𝓝 x) ∧
      Tendsto (fun n => ((dyadicBounds n (lo n) (hi n)).2.1 : ℝ) / 2 ^ n) atTop (𝓝 x) := by
  have hpow : Tendsto (fun n : Nat => ((2 : ℝ) ^ n)⁻¹) atTop (𝓝 0) :=
    (tendsto_pow_atTop_atTop_of_one_lt (by norm_num)).inv_tendsto_atTop
  have pos : ∀ {q : ℚ} {n : Nat}, (0 : ℝ) < q → 0 ≤ q * 2 ^ n := fun h =>
    mul_nonneg (Rat.cast_nonneg.1 h.le) (by positivity)
  constructor
  · refine tendsto_of_tendsto_of_tendsto_of_le_of_le' (by simpa using hlo.sub hpow) hlo ?_ ?_ <;>
    · filter_upwards [hlo.eventually (eventually_gt_nhds hx)] with n hn
      have hw : (0 : ℝ) < 2 ^ n := by positivity
      have hcast : (((dyadicBounds n (lo n) (hi n)).1 : Nat) : ℝ) = ((⌊lo n * 2 ^ n⌋ : ℤ) : ℝ) := by
        unfold dyadicBounds
        rw [← Int.cast_natCast, Int.toNat_of_nonneg (Int.floor_nonneg.2 (pos hn))]
      have h1 := (Rat.cast_le (K := ℝ)).2 (Int.floor_le (lo n * 2 ^ n))
      have h2 := (Rat.cast_le (K := ℝ)).2 (Int.lt_floor_add_one (lo n * 2 ^ n)).le
      push_cast at h1 h2
      rw [hcast]
      first
      | rw [le_div_iff₀ hw, sub_mul, inv_mul_cancel₀ hw.ne']; linarith
      | rw [div_le_iff₀ hw]; linarith
  · refine tendsto_of_tendsto_of_tendsto_of_le_of_le' hhi (by simpa using hhi.add hpow) ?_ ?_ <;>
    · filter_upwards [hhi.eventually (eventually_gt_nhds hx)] with n hn
      have hw : (0 : ℝ) < 2 ^ n := by positivity
      have hcast : (((dyadicBounds n (lo n) (hi n)).2.1 : Nat) : ℝ) = ((⌈hi n * 2 ^ n⌉ : ℤ) : ℝ) := by
        unfold dyadicBounds
        rw [← Int.cast_natCast, Int.toNat_of_nonneg (Int.ceil_nonneg (pos hn))]
      have h1 := (Rat.cast_le (K := ℝ)).2 (Int.le_ceil (hi n * 2 ^ n))
      have h2 := (Rat.cast_le (K := ℝ)).2 (Int.ceil_lt_add_one (hi n * 2 ^ n)).le
      push_cast at h1 h2
      rw [hcast]
      first
      | rw [le_div_iff₀ hw]; linarith
      | rw [div_le_iff₀ hw, add_mul, inv_mul_cancel₀ hw.ne']; linarith

/-! ### The Taylor sums -/

theorem taylorTerm_cast (x : ℚ) (j : Nat) : ((taylorTerm x j : ℚ) : ℝ) = expTerm x j := by
  unfold taylorTerm expTerm
  push_cast
  rfl

theorem taylorTail_cast (x : ℚ) (n : Nat) : ((taylorTail x n : ℚ) : ℝ) = 2 * expTerm |(x : ℝ)| n := by
  unfold taylorTail
  push_cast
  rw [taylorTerm_cast]
  push_cast
  rfl

theorem expSum_cast (x : ℚ) (n : Nat) : ((expSum x n : ℚ) : ℝ) = ∑ j ∈ Finset.range n, expTerm x j := by
  unfold expSum
  push_cast
  simp only [taylorTerm_cast]

theorem cosSum_cast (x : ℚ) (n : Nat) : ((cosSum x n : ℚ) : ℝ) = ∑ j ∈ Finset.range n, cosTerm x j := by
  unfold cosSum cosTerm
  rw [Rat.cast_sum]
  refine Finset.sum_congr rfl fun j _ => ?_
  split_ifs <;> simp [taylorTerm_cast]

theorem sinSum_cast (x : ℚ) (n : Nat) : ((sinSum x n : ℚ) : ℝ) = ∑ j ∈ Finset.range n, sinTerm x j := by
  unfold sinSum sinTerm
  rw [Rat.cast_sum]
  refine Finset.sum_congr rfl fun j _ => ?_
  split_ifs <;> simp [taylorTerm_cast]

/-- Twice the next term goes to zero. -/
theorem tendsto_taylorTail (x : ℚ) : Tendsto (fun n => ((taylorTail x n : ℚ) : ℝ)) atTop (𝓝 0) := by
  simp only [taylorTail_cast]
  simpa [expTerm] using (FloorSemiring.tendsto_pow_div_factorial_atTop |(x : ℝ)|).const_mul 2

/-- From some number of terms on the tail bound holds. -/
theorem eventually_enough_terms (x : ℚ) : ∀ᶠ n : Nat in atTop, ¬((n : ℚ) + 1 < 2 * |x|) := by
  obtain ⟨N, hN⟩ := exists_nat_ge (2 * |x|)
  filter_upwards [eventually_ge_atTop N] with n hn
  have : (N : ℚ) ≤ n := by exact_mod_cast hn
  linarith

theorem tail_ratio {x : ℚ} {n : Nat} (h : ¬((n : ℚ) + 1 < 2 * |x|)) : |(x : ℝ)| / ((n : ℝ) + 1) ≤ 1 / 2 := by
  have h1 : ((2 * |x| : ℚ) : ℝ) ≤ ((n + 1 : ℚ) : ℝ) := by exact_mod_cast not_lt.1 h
  push_cast at h1
  rw [div_le_iff₀ (by positivity)]
  linarith

/-- What the sum of e^x leaves out. -/
theorem expSum_bounds {x : ℚ} {n : Nat} (h : ¬((n : ℚ) + 1 < 2 * |x|)) :
    |Real.exp x - (expSum x n : ℚ)| ≤ (taylorTail x n : ℚ) := by
  have hb := Complex.exp_bound' (x := ((x : ℝ) : ℂ)) (n := n) (by
    rw [Complex.norm_real, Real.norm_eq_abs]
    push_cast
    exact tail_ratio h)
  rw [Complex.norm_real, Real.norm_eq_abs] at hb
  have hcast : Complex.exp ((x : ℝ) : ℂ) - ∑ m ∈ Finset.range n, ((x : ℝ) : ℂ) ^ m / (m.factorial : ℂ) =
      ((Real.exp x - (expSum x n : ℚ) : ℝ) : ℂ) := by
    rw [expSum_cast]
    unfold expTerm
    push_cast
    rfl
  rw [hcast, Complex.norm_real, Real.norm_eq_abs] at hb
  rw [taylorTail_cast]
  unfold expTerm
  linarith

/-- What the sums of cos x and sin x leave out. -/
theorem trigSum_bounds {x : ℚ} (hx : 0 ≤ x) {n : Nat} (h : ¬((n : ℚ) + 1 < 2 * |x|)) :
    |Real.cos x - (cosSum x n : ℚ)| ≤ (taylorTail x n : ℚ) ∧ |Real.sin x - (sinSum x n : ℚ)| ≤ (taylorTail x n : ℚ) := by
  have hx' : (0 : ℝ) ≤ x := by exact_mod_cast hx
  have hr := tail_ratio h
  rw [abs_of_nonneg hx'] at hr
  rw [cosSum_cast, sinSum_cast, taylorTail_cast, abs_of_nonneg hx']
  exact trig_tail hx' hr

/-- A sum that leaves out at most its tail in the end has the limit of which it is a sum. -/
theorem tendsto_of_tail {x : ℚ} {y : ℝ} {s : Nat → ℚ}
    (h : ∀ n : Nat, ¬((n : ℚ) + 1 < 2 * |x|) → |y - (s n : ℚ)| ≤ (taylorTail x n : ℚ)) :
    Tendsto (fun n => ((s n : ℚ) : ℝ)) atTop (𝓝 y) := by
  have hz : Tendsto (fun n => y - ((s n : ℚ) : ℝ)) atTop (𝓝 0) :=
    squeeze_zero_norm' ((eventually_enough_terms x).mono fun n hn => by
      rw [Real.norm_eq_abs]
      exact h n hn) (tendsto_taylorTail x)
  simpa using (tendsto_const_nhds (x := y)).sub hz

/-! ### exp64 -/

theorem expTaylor_spec {x : ℚ} {n mag : Nat} (h : expTaylor x n = some mag) : NearestMag binary64 (Real.exp x) mag := by
  unfold expTaylor at h
  split at h
  · cases h
  rename_i hn
  have hb := abs_le.1 (expSum_bounds hn)
  obtain ⟨h1, h2⟩ := dyadicBounds_spec (n := n) (lo := expSum x n - taylorTail x n) (hi := expSum x n + taylorTail x n)
    (Real.exp_pos (x : ℝ)).le (by push_cast; linarith [hb.1]) (by push_cast; linarith [hb.2])
  exact roundEnclosure_spec h h1 h2

theorem eventually_expTaylor {x : ℚ} (hx : Irrational (Real.exp x)) : ∀ᶠ n in atTop, expTaylor x n ≠ none := by
  have hsum : Tendsto (fun n => ((expSum x n : ℚ) : ℝ)) atTop (𝓝 (Real.exp x)) := tendsto_of_tail fun n => expSum_bounds
  obtain ⟨h1, h2⟩ := tendsto_dyadicBounds (Real.exp_pos (x : ℝ)) (lo := fun n => expSum x n - taylorTail x n)
    (hi := fun n => expSum x n + taylorTail x n)
    (by simpa using hsum.sub (tendsto_taylorTail x)) (by simpa using hsum.add (tendsto_taylorTail x))
  filter_upwards [eventually_enough_terms x, eventually_roundEnclosure hx h1 h2] with n hn hr
  unfold expTaylor
  rw [if_neg hn]
  exact hr

theorem irrational_exp_rat {x : ℚ} (hx : x ≠ 0) : Irrational (Real.exp x) := by
  rw [show ((x : ℚ) : ℝ) = (x.num : ℝ) / x.den from Rat.cast_def x]
  exact irrational_exp_div (Rat.num_ne_zero.2 hx) x.den_ne_zero

/-- The value e^(mant * 2^exp) is decided, and rightly, for every operand but zero. -/
theorem expNearest_pos {mant : Nat} (exp : ℤ) (hm : mant ≠ 0) :
    NearestMag binary64 (Real.exp (mant * 2 ^ exp)) (expNearest false mant exp) := by
  have hx : ((mant * 2 ^ exp : ℚ) : ℝ) = mant * 2 ^ exp := by push_cast; rfl
  have h0 : (mant * 2 ^ exp : ℚ) ≠ 0 := mul_ne_zero (Nat.cast_ne_zero.2 hm) (zpow_ne_zero _ (by norm_num))
  refine firstDecided_spec (fun n a ha => ?_) (fun n a ha => ?_) ?_
  · exact roundEnclosure_spec ha (expBounds_spec n mant exp).2.1 (expBounds_spec n mant exp).2.2
  · simpa [hx] using expTaylor_spec ha
  · exact eventually_expTaylor (irrational_exp_rat h0)

/-- The value e^-(mant * 2^exp) is decided, and rightly, for every operand but zero. -/
theorem expNearest_neg {mant : Nat} (exp : ℤ) (hm : mant ≠ 0) :
    NearestMag binary64 (Real.exp (-(mant * 2 ^ exp))) (expNearest true mant exp) := by
  have hx : ((-(mant * 2 ^ exp) : ℚ) : ℝ) = -(mant * 2 ^ exp) := by push_cast; rfl
  have h0 : (-(mant * 2 ^ exp) : ℚ) ≠ 0 :=
    neg_ne_zero.2 (mul_ne_zero (Nat.cast_ne_zero.2 hm) (zpow_ne_zero _ (by norm_num)))
  refine firstDecided_spec (fun n a ha => ?_) (fun n a ha => ?_) ?_
  · exact roundEnclosure_spec ha (expNegBounds_spec n mant exp).1 (expNegBounds_spec n mant exp).2
  · simpa [hx] using expTaylor_spec ha
  · exact eventually_expTaylor (irrational_exp_rat h0)

/-! ### tan64 -/

/-- The sign and the magnitude of a tangent. -/
def NearestTan (x : ℝ) (t : Bool × Nat) : Prop :=
  NearestMag binary64 |Real.tan x| t.2 ∧ (t.1 = true ↔ Real.tan x < 0)

/-- Numbers enclosed away from zero have the signs of what encloses them. -/
theorem mul_neg_iff_of_close {a b s c e : ℝ} (h1 : |a - s| ≤ e) (h2 : |b - c| ≤ e) (hs : e < |s|) (hc : e < |c|) :
    s * c < 0 ↔ a * b < 0 := by
  have sign : ∀ {u v : ℝ}, |u - v| ≤ e → e < |v| → (0 < v ∧ 0 < u) ∨ (v < 0 ∧ u < 0) := by
    intro u v h h'
    rw [abs_le] at h
    rcases le_total 0 v with hv | hv
    · rw [abs_of_nonneg hv] at h'
      exact .inl ⟨by linarith, by linarith⟩
    · rw [abs_of_nonpos hv] at h'
      exact .inr ⟨by linarith, by linarith⟩
  rcases sign h1 hs with ⟨p, q⟩ | ⟨p, q⟩ <;> rcases sign h2 hc with ⟨p', q'⟩ | ⟨p', q'⟩
  · exact iff_of_false (not_lt.2 (mul_pos p p').le) (not_lt.2 (mul_pos q q').le)
  · exact iff_of_true (mul_neg_of_pos_of_neg p p') (mul_neg_of_pos_of_neg q q')
  · exact iff_of_true (mul_neg_of_neg_of_pos p p') (mul_neg_of_neg_of_pos q q')
  · exact iff_of_false (not_lt.2 (mul_pos_of_neg_of_neg p p').le) (not_lt.2 (mul_pos_of_neg_of_neg q q').le)

theorem tan_neg_iff (x : ℝ) : Real.tan x < 0 ↔ Real.sin x * Real.cos x < 0 := by
  rw [Real.tan_eq_sin_div_cos, div_neg_iff, mul_neg_iff]

theorem tanTaylor_spec {x : ℚ} (hx : 0 ≤ x) {n : Nat} {t : Bool × Nat} (h : tanTaylor x n = some t) : NearestTan x t := by
  unfold tanTaylor at h
  simp only [] at h
  split at h
  · cases h
  rename_i hn
  simp only [not_or, not_le] at hn
  obtain ⟨hn, hs, hc⟩ := hn
  obtain ⟨mag, hmag, rfl⟩ := Option.map_eq_some_iff.1 h
  obtain ⟨b1, b2⟩ := trigSum_bounds hx hn
  have hs' : ((taylorTail x n : ℚ) : ℝ) < |((sinSum x n : ℚ) : ℝ)| := by exact_mod_cast hs
  have hc' : ((taylorTail x n : ℚ) : ℝ) < |((cosSum x n : ℚ) : ℝ)| := by exact_mod_cast hc
  have he : (0 : ℝ) ≤ (taylorTail x n : ℚ) := le_trans (abs_nonneg _) b1
  have a1 := abs_le.1 (le_trans (abs_abs_sub_abs_le (Real.cos x) (cosSum x n : ℚ)) b1)
  have a2 := abs_le.1 (le_trans (abs_abs_sub_abs_le (Real.sin x) (sinSum x n : ℚ)) b2)
  have hcos : 0 < |Real.cos x| := by linarith [a1.1]
  have htan : |Real.tan x| = |Real.sin x| / |Real.cos x| := by rw [Real.tan_eq_sin_div_cos, abs_div]
  refine ⟨?_, ?_⟩
  · obtain ⟨h1, h2⟩ := dyadicBounds_spec (n := n)
      (lo := (|sinSum x n| - taylorTail x n) / (|cosSum x n| + taylorTail x n))
      (hi := (|sinSum x n| + taylorTail x n) / (|cosSum x n| - taylorTail x n)) (abs_nonneg (Real.tan x))
      (by
        rw [htan]
        push_cast
        exact div_le_div₀ (abs_nonneg _) (by linarith [a2.1]) hcos (by linarith [a1.2]))
      (by
        rw [htan]
        push_cast
        exact div_le_div₀ (by linarith) (by linarith [a2.2]) (by linarith) (by linarith [a1.1]))
    exact roundEnclosure_spec hmag h1 h2
  · rw [tan_neg_iff, ← mul_neg_iff_of_close b2 b1 hs' hc', decide_eq_true_iff]
    exact_mod_cast Iff.rfl

theorem eventually_tanTaylor {x : ℚ} (hx : 0 ≤ x) (htan : Irrational (Real.tan x)) :
    ∀ᶠ n in atTop, tanTaylor x n ≠ none := by
  have hs0 : Real.sin x ≠ 0 := fun h => htan.ne_zero (by rw [Real.tan_eq_sin_div_cos, h, zero_div])
  have hc0 : Real.cos x ≠ 0 := fun h => htan.ne_zero (by rw [Real.tan_eq_sin_div_cos, h, div_zero])
  have hsin : Tendsto (fun n => |((sinSum x n : ℚ) : ℝ)|) atTop (𝓝 |Real.sin x|) :=
    (tendsto_of_tail fun n hn => (trigSum_bounds hx hn).2).abs
  have hcos : Tendsto (fun n => |((cosSum x n : ℚ) : ℝ)|) atTop (𝓝 |Real.cos x|) :=
    (tendsto_of_tail fun n hn => (trigSum_bounds hx hn).1).abs
  have htail := tendsto_taylorTail x
  have habs : |Real.tan x| = |Real.sin x| / |Real.cos x| := by rw [Real.tan_eq_sin_div_cos, abs_div]
  have e1 := hsin.sub htail
  have e2 := hcos.add htail
  have e3 := hsin.add htail
  have e4 := hcos.sub htail
  rw [sub_zero] at e1 e4
  rw [add_zero] at e2 e3
  have hirr : Irrational |Real.tan x| := by
    rcases abs_choice (Real.tan x) with h | h <;> rw [h]
    · exact htan
    · exact htan.neg
  obtain ⟨h1, h2⟩ := tendsto_dyadicBounds (x := |Real.tan x|) (abs_pos.2 htan.ne_zero)
    (lo := fun n => (|sinSum x n| - taylorTail x n) / (|cosSum x n| + taylorTail x n))
    (hi := fun n => (|sinSum x n| + taylorTail x n) / (|cosSum x n| - taylorTail x n))
    (by
      rw [habs]
      push_cast
      exact e1.div e2 (abs_ne_zero.2 hc0))
    (by
      rw [habs]
      push_cast
      exact e3.div e4 (abs_ne_zero.2 hc0))
  filter_upwards [eventually_enough_terms x, eventually_roundEnclosure hirr h1 h2,
    htail.eventually_lt hsin (abs_pos.2 hs0), htail.eventually_lt hcos (abs_pos.2 hc0)] with n hn hr hs hc
  have hs' : ¬|sinSum x n| ≤ taylorTail x n := not_le.2 (by exact_mod_cast hs)
  have hc' : ¬|cosSum x n| ≤ taylorTail x n := not_le.2 (by exact_mod_cast hc)
  unfold tanTaylor
  simp only [hn, hs', hc', or_self, if_false]
  intro h
  exact hr (Option.map_eq_none_iff.1 h)

theorem irrational_tan_rat {x : ℚ} (hx : x ≠ 0) : Irrational (Real.tan x) := by
  rw [show ((x : ℚ) : ℝ) = (x.num : ℝ) / x.den from Rat.cast_def x]
  exact irrational_tan_div (Rat.num_ne_zero.2 hx) x.den_ne_zero

/-- The value tan(mant * 2^exp) is decided, and rightly, for every operand but zero. -/
theorem tanNearest_spec {mant : Nat} (exp : ℤ) (hm : mant ≠ 0) : NearestTan (mant * 2 ^ exp) (tanNearest mant exp) := by
  have hx : ((mant * 2 ^ exp : ℚ) : ℝ) = mant * 2 ^ exp := by push_cast; rfl
  have h0 : (mant * 2 ^ exp : ℚ) ≠ 0 := mul_ne_zero (Nat.cast_ne_zero.2 hm) (zpow_ne_zero _ (by norm_num))
  have hpos : (0 : ℚ) ≤ mant * 2 ^ exp := by positivity
  refine firstDecided_spec (fun n a ha => ?_) (fun n a ha => ?_) ?_
  · obtain ⟨⟨flip, i⟩, hb, ha⟩ := Option.bind_eq_some_iff.1 ha
    obtain ⟨mag, hmag, rfl⟩ := Option.map_eq_some_iff.1 ha
    obtain ⟨h1, h2, h3⟩ := tanBounds_spec hb
    exact ⟨roundEnclosure_spec hmag h1 h2, h3⟩
  · simpa [hx] using tanTaylor_spec hpos ha
  · exact eventually_tanTaylor hpos (irrational_tan_rat h0)

end Sys2Proof.Machine

end
end

