-- ==== Sys2Proof/Laws/PerInstr.lean ====
section
/-! SUPPORT. A statement about every command, proved command by command: the three fields of its word (spec/30_encoding.md R121), the
reserved one zero, and where its index may be nonzero (R125). -/

namespace Sys2Proof.Laws

/-- The word of a command has its opcode in OP, its filter index in FIDX and 0 in RSV, and outside the filter class the index is 0. -/
def EncodingFields.Statement (i : Instr) : Prop :=
  opField (encode i) = opcodeOf i ∧ fidxField (encode i) = indexOf i ∧ rsvField (encode i) = 0 ∧
    (indexOf i ≠ 0 → opcodeOf i = 3 ∨ opcodeOf i = 4 ∨ opcodeOf i = 5)

theorem EncodingFields.nop : EncodingFields.Statement .nop := by
  unfold EncodingFields.Statement
  decide
theorem EncodingFields.generate : EncodingFields.Statement .generate := by
  unfold EncodingFields.Statement
  decide
theorem EncodingFields.convolve : EncodingFields.Statement .convolve := by
  unfold EncodingFields.Statement
  decide

theorem EncodingFields.fltSetcoef (fidx : BitVec 8) : EncodingFields.Statement (.fltSetcoef fidx) := by
  unfold EncodingFields.Statement
  revert fidx
  decide +kernel

theorem EncodingFields.fltProcess (fidx : BitVec 8) : EncodingFields.Statement (.fltProcess fidx) := by
  unfold EncodingFields.Statement
  revert fidx
  decide +kernel

theorem EncodingFields.fltReset (fidx : BitVec 8) : EncodingFields.Statement (.fltReset fidx) := by
  unfold EncodingFields.Statement
  revert fidx
  decide +kernel

theorem EncodingFields.prepare : EncodingFields.Statement .prepare := by
  unfold EncodingFields.Statement
  decide
theorem EncodingFields.erReset : EncodingFields.Statement .erReset := by
  unfold EncodingFields.Statement
  decide

end Sys2Proof.Laws
end

