-- ==== Sys2Proof/Tests/Slice0.lean ====
section
/-! SUPPORT. Tests, with expected results out of spec/95_test_vectors.md (the vector's name stands at each), and for every statement with
hypotheses a state and operands that meet them (`witness_…`). -/

namespace Sys2Proof.Tests

open Sys2Proof Sys2Proof.Machine

set_option Elab.async false

/-! ### Small instances and states -/

/-- The state an outcome carries. -/
def after (o : Host.Outcome State Fault Refusal) : State :=
  match o with
  | .next s => s
  | .fault _ => State.reset
  | .refused _ => State.reset

/-- A legal instance with small capacities. -/
def tiny : Params :=
  { nfilt := 2, blockMax := 8, ringMax := 300, pulseMax := 8, base := 0x100000,
    exp64 := .correctlyRounded, tan64 := .correctlyRounded }

/-- The tiny instance at reset. -/
def blank : State := State.resetOf tiny

/-- INBUF[0..7] = 1.0 .. 8.0. -/
def rampMem : Memory :=
  Memory.writeWords [] 0x10000
    [0x3F800000, 0x40000000, 0x40400000, 0x40800000, 0x40A00000, 0x40C00000, 0x40E00000, 0x41000000]

/-- The tiny instance with generation operands SR, DUR, DENS, SEED and MAXBLK. -/
def operands (sr dur dens : DWord) (seed maxblk : Word) : State :=
  { blank with
    regs :=
      { blank.regs with
        srLo := sr.truncate 32, srHi := (sr >>> 32).truncate 32, durLo := dur.truncate 32, durHi := (dur >>> 32).truncate 32,
        densLo := dens.truncate 32, densHi := (dens >>> 32).truncate 32, seed := seed, maxblk := maxblk }
    mem := rampMem }

/-- V-GEN-2's operands: 150.0, 30.0, 2000.0, seed 1; MAXBLK 8. -/
def tinyGen : State := operands 0x4062C00000000000 0x403E000000000000 0x409F400000000000 1 8

/-- The same with DENS = 75.0, whose grid is 2. -/
def evenGen : State := operands 0x4062C00000000000 0x403E000000000000 0x4052C00000000000 1 8

/-- V-GEN-8's operands: 48000.0, 0.4, 2000.0, seed 1: no pulses. -/
def noPulseGen : State := operands 0x40E7700000000000 0x3FD999999999999A 0x409F400000000000 1 8

/-- The state V-CONV-4 starts block A from: the tables of V-GEN-2 in full, GAIN 0.5, NSAMP 8, INBUF the ramp. -/
def ready : State :=
  { blank with
    regs := { blank.regs with nsamp := 8, gain := 0x3F000000 }
    prepared := true
    gen :=
      { seqlen := 5, grid := 1, npulses := 5, ringcap := 261, wptr := 0, normgain := 0x3F77CAD4,
        decay := 0xBFF61AD547A6661A, lcgstate := 0xA3A5A0E3, actMaxblk := 8 }
    mem :=
      (rampMem.writeWords 0x30000 [0x00000000, 0x80000001, 0x00000002, 0x80000003, 0x80000004]).writeWords 0x40000
        [0x3F800000, 0x3E809BCC, 0x3D813856, 0x3C81D59F, 0x3B8273A6] }

/-- A filter with V-FLT-1's coefficients and some history. -/
def shelf : Filter :=
  { b0 := 0x3F064C7E, b1 := 0xBED3E88B, a1 := 0xBF608188, z1 := 0x3F800000, zout1 := 0x3F064C7E, configured := true }

/-- The tiny instance with instance 1 configured, instance 0 not, and FLT operands of V-FLT-1, F_IN = 1.0. -/
def filters : State :=
  { blank with
    regs :=
      { blank.regs with
        fGlow := 0x3F666666, fGhigh := 0x3F000000, fFc := 0x447A0000, fSr := 0x473B8000, fIn := 0x3F800000 }
    fb := [Filter.reset, shelf] }

/-- The host about to issue one access. -/
def about (a : Access) (s : State) : State := issueNext a s

/-! ### Decoding and encoding: words written out from the opcode map (R121, R124), and the vectors V-DEC -/

theorem test_decode_nop : decode 0b00000000000000000000000000000000 = .ok .nop := by decide
theorem test_decode_generate : decode 0b00000000000000000000000000000001 = .ok .generate := by decide
theorem test_decode_convolve : decode 0b00000000000000000000000000000010 = .ok .convolve := by decide
theorem test_decode_fltSetcoef : decode 0b00000000000000001010010100000011 = .ok (.fltSetcoef 0xA5) := by decide
theorem test_decode_fltProcess : decode 0b00000000000000000000011100000100 = .ok (.fltProcess 7) := by decide
theorem test_decode_fltReset : decode 0b00000000000000001111111100000101 = .ok (.fltReset 255) := by decide
theorem test_decode_prepare : decode 0b00000000000000000000000000000110 = .ok .prepare := by decide
theorem test_decode_erReset : decode 0b00000000000000000000000000000111 = .ok .erReset := by decide
theorem test_encode_words :
    encode (.fltSetcoef 0xA5) = 0x0000A503 ∧ encode (.fltProcess 7) = 0x00000704 ∧ encode .erReset = 7 := by decide

/-- V-DEC-2 to V-DEC-8. -/
theorem test_decode_illegal :
    decode 0x00000008 = .error .illegalOpcode ∧ decode 0x000000FF = .error .illegalOpcode ∧
      decode 0x00000102 = .error .indexNonzero ∧ decode 0x00000106 = .error .indexNonzero ∧
      decode 0x00010000 = .error .reservedNonzero ∧ decode 0x80000000 = .error .reservedNonzero ∧
      decode 0x00010102 = .error .reservedNonzero := by decide

/-- R86: the least significant byte lies at the lowest address; R120: four bytes make a word, fewer none. -/
theorem test_decodeBytes :
    decodeBytes [0x04, 0x07, 0x00, 0x00, 0xAA] = .ok (.fltProcess 7, [0xAA]) ∧
      decodeBytes [0x04, 0x07, 0x00] = .error .truncated := by decide
theorem test_decodeTableWord :
    decodeTableWord 32 0x0704 = some (.fltProcess 7) ∧ decodeTableWord 32 0x08 = none := by decide

/-! ### Well-formedness: one ill-formed term for each check (R11, R125) -/

theorem test_wf_recommended : Params.recommended.Legal ∧ tiny.Legal := by decide
theorem test_wf_nfilt : ¬({ tiny with nfilt := 0 } : Params).Legal ∧ ¬({ tiny with nfilt := 257 } : Params).Legal := by decide
theorem test_wf_blockMax :
    ¬({ tiny with blockMax := 0 } : Params).Legal ∧ ¬({ tiny with blockMax := 16385 } : Params).Legal := by decide
theorem test_wf_ringMax :
    ¬({ tiny with ringMax := 256 } : Params).Legal ∧ ¬({ tiny with ringMax := 65537 } : Params).Legal := by decide
theorem test_wf_pulseMax :
    ¬({ tiny with pulseMax := 0 } : Params).Legal ∧ ¬({ tiny with pulseMax := 16385 } : Params).Legal := by decide
theorem test_wf_base : ¬({ tiny with base := 0x80000 } : Params).Legal := by decide
theorem test_wf_fidx :
    Instr.wellFormed 16 (.fltSetcoef 16) = false ∧ Instr.wellFormed 16 (.fltProcess 255) = false ∧
      Instr.wellFormed 1 (.fltReset 1) = false ∧ Instr.wellFormed 16 (.fltReset 15) = true ∧
      Instr.wellFormed 1 .nop = true := by decide

/-! ### Arithmetic -/

/-- R21's three examples. -/
theorem test_rha : rha 0x4012000000000000 = 5 ∧ rha 0x4004000000000000 = 3 ∧ rha 0xC004000000000000 = -3 := by
  decide +kernel

/-- R22: NEG3LN10 is mul64(-3.0, LN10). -/
theorem test_neg3ln10 : mul64 0xC008000000000000 ln10Const = neg3Ln10Const := by decide +kernel

/-- R22: CULL32 is the binary32 of the literal 1e-10, EQ_EPS and NEG_EPS the binary64 of 1e-6 and 1e-12. -/
theorem test_literals :
    f32lit { neg := false, digits := 1, exp10 := -10 } = cullConst ∧
      f64lit { neg := false, digits := 1, exp10 := -6 } = eqEpsConst ∧
      f64lit { neg := false, digits := 1, exp10 := -12 } = negEpsConst := by decide +kernel

/-- V-FLT-1's tangent, 0.06554346281523822. -/
theorem test_tangent :
    tangent .correctlyRounded 0x447A0000 0x473B8000 = f64lit { neg := false, digits := 6554346281523822, exp10 := -17 } := by
  decide +kernel

/-- V-LCG-2. -/
theorem test_lcg :
    [lcgIter 1 1, lcgIter 2 1, lcgIter 3 1, lcgIter 4 1] = [0x3C88596C, 0x5E8885DB, 0x8116017E, 0xB4733AC5] := by decide +kernel

/-! ### Commands -/

/-- V-DEC-1. -/
theorem test_nop : after (exec .nop ready) = ready := by decide +kernel

/-- V-PREP-6. -/
theorem test_erReset : after (exec .erReset blank) = blank := by decide +kernel

/-- V-GEN-2: the registers and the five pulses in full. -/
theorem test_generate :
    (after (exec .generate tinyGen)).gen = { ready.gen with actMaxblk := 8 } ∧
      (List.range 5).map (after (exec .generate tinyGen)).pulseWord =
        [0x00000000, 0x80000001, 0x00000002, 0x80000003, 0x80000004] ∧
      (List.range 5).map (after (exec .generate tinyGen)).env =
        [0x3F800000, 0x3E809BCC, 0x3D813856, 0x3C81D59F, 0x3B8273A6] := by decide +kernel

/-- V-GEN-8: no pulses. -/
theorem test_generate_no_pulses :
    (after (exec .generate noPulseGen)).gen =
      { seqlen := 19, grid := 24, npulses := 0, ringcap := 275, wptr := 0, normgain := 0x3F800000,
        decay := 0xBFD744AA9C435E01, lcgstate := 1, actMaxblk := 8 } := by decide +kernel

/-- PREPARE has the durations of V-GEN-2 built in (R261): the same tables with DUR and DENS at +0.0. -/
theorem test_prepare :
    (after (exec .prepare (operands 0x4062C00000000000 0 0 1 8))).gen = (after (exec .generate tinyGen)).gen := by
  decide +kernel

/-- V-PREP-3. -/
theorem test_prepare_refused :
    (after (exec .prepare State.reset)).statusWord = 0x200 ∧
      (after (exec .prepare State.reset)).err.code = 0x102 ∧ (after (exec .prepare State.reset)).err.info = 6 := by
  decide +kernel

/-- V-CONV-4, block A. -/
theorem test_convolve :
    (List.range 8).map (after (exec .convolve ready)).outbuf =
        [0x3EF7CAD4, 0x3F58ABC6, 0x3F9EA1AF, 0x3FCFF223, 0x400081BA, 0x40190A64, 0x4031930C, 0x404A1BB5] ∧
      (after (exec .convolve ready)).gen.wptr = 8 ∧ (after (exec .convolve ready)).ring 7 = 0x41000000 := by decide +kernel

/-- V-CONV-4, block B: the history in the ring. -/
theorem test_convolve_history :
    (List.range 8).map
        (after (exec .convolve
          { after (exec .convolve ready) with
            mem := (after (exec .convolve ready)).mem.writeWords 0x10000 (List.replicate 8 0) })).outbuf =
      [0xBF507F45, 0x3E3755C5, 0xBD994B0F, 0xBC7C89E1, 0, 0, 0, 0] := by decide +kernel

/-- V-FLT-1. -/
theorem test_fltSetcoef :
    (after (exec (.fltSetcoef 0) filters)).filter 0 =
      { b0 := 0x3F064C7E, b1 := 0xBED3E88B, a1 := 0xBF608188, z1 := 0, zout1 := 0, configured := true } := by decide +kernel

/-- V-FLT-9 and V-FLT-13: the flat path, and a crossover beyond half the rate. -/
theorem test_fltSetcoef_design :
    designCoefficients .correctlyRounded 0x3F4CCCCD 0x3F4CCCCE 0x447A0000 0x473B8000 = { b0 := 0x3F4CCCCD, b1 := 0, a1 := 0 } ∧
      designCoefficients .correctlyRounded 0x3F666666 0x3F000000 0x46EA6000 0x473B8000 =
        { b0 := 0x3F976763, b1 := 0x3FF1E9DD, a1 := 0x401A827A } := by decide +kernel

/-- V-FLT-6, n = 1. -/
theorem test_fltProcess :
    (after (exec (.fltProcess 1) filters)).fOut = 0x3F121F1A ∧
      (after (exec (.fltProcess 1) filters)).filter 1 = { shelf with zout1 := 0x3F121F1A } := by decide +kernel

/-- V-FLT-19 on the recommended instance. -/
theorem test_fltProcess_unconfigured :
    (after (exec (.fltProcess 7) State.reset)).statusWord = 0x400 ∧
      (after (exec (.fltProcess 7) State.reset)).err.code = 3 ∧
      (after (exec (.fltProcess 7) State.reset)).err.info = 0x704 := by decide +kernel

/-- V-FLT-6: FLT_RESET keeps the coefficients. -/
theorem test_fltReset :
    (after (exec (.fltReset 1) filters)).filter 1 = { shelf with z1 := 0, zout1 := 0 } := by decide +kernel

/-- V-FLT-20. -/
theorem test_fltReset_index :
    (after (exec (.fltReset 16) State.reset)).statusWord = 0x1000 ∧
      (after (exec (.fltReset 16) State.reset)).err.code = 5 ∧
      (after (exec (.fltReset 16) State.reset)).err.info = 0x1005 := by decide +kernel

/-! ### The bus and the step -/

/-- V-BUS-1 to V-BUS-3. -/
theorem test_bus_reads :
    [0x000, 0x004, 0x0E0, 0x0E4, 0x0E8, 0x0EC].map (fun off => (busRead .word off State.reset).1) =
      [0x56554401, 0, 16, 256, 16384, 4096] := by decide +kernel

/-- V-BUS-4 to V-BUS-9. -/
theorem test_bus_unmapped :
    [0x006, 0x014, 0x01C, 0x0A8, 0x0F0, 0x08018, 0x0801C, 0x08200, 0x10400, 0x20400, 0x34000, 0x90000, 0xFFFFC].map
      (targetAt Params.recommended) = List.replicate 13 none := by decide +kernel

/-- V-BUS-11 and V-BUS-14. -/
theorem test_bus_status :
    (after (busWrite .word 0x080 5 blank)).err = { bits := 0x20, code := 6, info := 0x80 } ∧
      (after (busWrite .word 0x008 0x2000 (after (busWrite .word 0x080 5 blank)))).err =
        { bits := 0, code := 6, info := 0x80 } := by decide +kernel

/-- V-BUS-16. -/
theorem test_bus_operand :
    (busRead .word 0x038 (after (busWrite .word 0x038 0xDEADBEEF blank))).1 = 0xDEADBEEF := by decide +kernel

/-- R140, R144: flt.step expands to a write of F_IN, one of CMD and a read of F_OUT. -/
theorem test_assembler :
    asmFltStep 1 { neg := false, digits := 1, exp10 := 0 } =
      [.write .word 0x060 0x3F800000, .write .word 0x004 0x104, .read .word 0x064] := by decide +kernel

/-- R141, R143: any register name has its offset, and DECAY is a pair. -/
theorem test_assembler_names :
    asmWrf (.readOnly .normgain) { neg := false, digits := 1, exp10 := 0 } = [.write .word 0x094 0x3F800000] ∧
      asmWrd .decay { neg := true, digits := 25, exp10 := -1 } =
        [.write .word 0x098 0, .write .word 0x09C 0xC0040000] := by decide +kernel

/-- R145: a loop takes both its bounds, and is empty where they are out of order. -/
theorem test_assembler_for :
    asmFor (-1) 1 (fun v => asmWr 0x038 (BitVec.ofInt 32 v)) =
        [.write .word 0x038 0xFFFFFFFF, .write .word 0x038 0, .write .word 0x038 1] ∧
      asmFor 3 2 (fun _ => asmRd 0x038) = [] := by decide +kernel

/-- V-DEC-2 as a step, and withFetchWord: the placed command is the next to run. -/
theorem test_step_illegal :
    (after (step (blank.withFetchWord 32 8))).err = { bits := 1, code := 1, info := 8 } ∧
      (after (step (blank.withFetchWord 32 8))).host.position = 1 := by decide +kernel
theorem test_step_runs : after (step (filters.withFetchWord 32 0x105)) =
    { after (exec (.fltReset 1) filters) with host := { pending := [], position := 1, reads := [] } } := by decide +kernel

/-! ### Invariants of the states above -/

theorem reset_inv : State.reset.Inv where
  legal := by decide
  filters := by decide
  memory := by decide
  unprepared _ := ⟨by decide, by decide, by decide, by decide, by decide, by decide⟩
  prepared h := absurd h (by decide)

theorem filters_inv : filters.Inv where
  legal := by decide
  filters := by decide
  memory := by decide
  unprepared _ := ⟨by decide, by decide, by decide, by decide, by decide, by decide⟩
  prepared h := absurd h (by decide)

theorem tinyGen_inv : tinyGen.Inv where
  legal := by decide
  filters := by decide
  memory := by decide +kernel
  unprepared _ := ⟨by decide, by decide, by decide, by decide, by decide, by decide⟩
  prepared h := absurd h (by decide)

theorem ready_tables (n : Word) (g : Word) (rest : Memory)
    (h : (List.range 5).map ({ ready with mem := rest } : State).pulse = (List.range 5).map ready.pulse) :
    TablesValid { ready with regs := { ready.regs with nsamp := n, gain := g }, mem := rest } := by
  have hp : ∀ k, k < 5 → ({ ready with mem := rest } : State).pulse k = ready.pulse k := by
    intro k hk
    have := congrArg (fun l => l[k]?) h
    simpa [hk] using this
  exact
    { grid_pos := (by decide : 1 ≤ ready.gen.grid.toNat)
      ringcap_eq := (by decide : ready.gen.ringcap.toNat = ready.gen.seqlen.toNat + guardSamples)
      ringcap_le := (by decide : ready.gen.ringcap.toNat ≤ ready.params.ringMax)
      wptr_lt := (by decide : ready.gen.wptr.toNat < ready.gen.ringcap.toNat)
      npulses_eq := (by decide : ready.gen.npulses.toNat = ready.gen.seqlen.toNat / ready.gen.grid.toNat)
      npulses_le := (by decide : ready.gen.npulses.toNat ≤ ready.params.pulseMax)
      maxblk_pos := (by decide : 1 ≤ ready.gen.actMaxblk.toNat)
      maxblk_le := (by decide : ready.gen.actMaxblk.toNat ≤ ready.params.blockMax)
      pos_lt := by
        intro k hk
        have : ∀ k, k < 5 → (ready.pulse k).pos.toNat < 5 := by decide +kernel
        have h1 := this k hk
        rw [← hp k hk] at h1
        exact h1
      pos_rising := by
        intro k hk
        have : ∀ k, k < 4 → (ready.pulse k).pos.toNat < (ready.pulse (k + 1)).pos.toNat := by decide +kernel
        have hk' : k + 1 < 5 := hk
        have h1 := this k (by omega)
        rw [← hp k (by omega), ← hp (k + 1) hk'] at h1
        exact h1 }

/-- The prepared block with some NSAMP and GAIN, and a memory that keeps the pulses. -/
theorem ready_inv (n : Word) (g : Word) (rest : Memory) (hm : rest.wf = true)
    (h : (List.range 5).map ({ ready with mem := rest } : State).pulse = (List.range 5).map ready.pulse) :
    ({ ready with regs := { ready.regs with nsamp := n, gain := g }, mem := rest } : State).Inv where
  legal := (by decide : ready.params.Legal)
  filters := (by decide : ready.fb.length = ready.params.nfilt)
  memory := hm
  unprepared h := absurd (h : ready.prepared = false) (by decide : ¬ready.prepared = false)
  prepared _ := ready_tables n g rest h

theorem ready_mem_wf : ready.mem.wf = true := by decide +kernel

/-- The prepared block itself. -/
theorem readyState_inv : ready.Inv := ready_inv 8 0x3F000000 ready.mem ready_mem_wf rfl

/-- Every command and every step has a next state. -/
theorem exec_next (i : Instr) (s : State) : exec i s = .next (after (exec i s)) := by cases i <;> rfl
theorem step_command_next (w : Word) (s : State) :
    step (about (.write .word 0x004 w) s) = .next (after (step (about (.write .word 0x004 w) s))) := by
  have h : ∀ u : State, executeCommand w u = .next (after (executeCommand w u)) := by
    intro u
    unfold executeCommand
    split
    · exact exec_next _ _
    · rfl
  exact h _

/-! ### Witnesses: a state and operands that meet the hypotheses of each statement -/

theorem witness_StepRunsDecodedCommand :
    (about (.write .word 0x004 0x105) filters).host.pending = .write .word 0x004 0x105 :: [] ∧
      decode 0x105 = .ok (.fltReset 1) := by decide
theorem witness_IllegalCommandRecorded :
    (about (.write .word 0x004 8) blank).host.pending = .write .word 0x004 8 :: [] ∧ 8 ≤ (8 : Word).toNat % 2 ^ 8 ∧
      (about (.write .word 0x004 0x10000) blank).host.pending = .write .word 0x004 0x10000 :: [] ∧
      (0x10000 : Word).toNat / 2 ^ 16 ≠ 0 ∧
      (about (.write .word 0x004 0x102) blank).host.pending = .write .word 0x004 0x102 :: [] ∧
      ((0x102 : Word).toNat / 2 ^ 8 % 2 ^ 8 ≠ 0 ∧ (0x102 : Word).toNat % 2 ^ 8 ≠ 3 ∧ (0x102 : Word).toNat % 2 ^ 8 ≠ 4 ∧
        (0x102 : Word).toNat % 2 ^ 8 ≠ 5) := by decide
theorem witness_EveryStepCompletes :
    (about (.read .word 0x000) blank).host.pending = .read .word 0x000 :: [] ∧ blank.host.pending = [] := by decide
theorem witness_MappedReadHasNoSideEffect :
    (about (.read .word 0x0EC) blank).host.pending = .read .word 0x0EC :: [] ∧
      targetAt (about (.read .word 0x0EC) blank).params 0x0EC = some (.readOnly .capPulseMax) := by decide +kernel

/-- The last entry of every window, and in the tables the last in use and the first beyond. -/
theorem witness_WindowReads :
    ready.params.Legal ∧ 1 < ready.params.nfilt ∧ 7 < ready.params.blockMax ∧ 7 < ready.params.pulseMax ∧
      299 < ready.params.ringMax ∧
      (busRead .word (BitVec.ofNat 20 (0x08000 + 32 * 1 + 20)) filters).1 = 1 ∧
      (busRead .word (BitVec.ofNat 20 (0x10000 + 4 * 7)) ready).1 = 0x41000000 ∧
      (busRead .word (BitVec.ofNat 20 (0x30000 + 4 * 4)) ready).1 = 0x80000004 ∧
      (busRead .word (BitVec.ofNat 20 (0x30000 + 4 * 5)) ready).1 = 0 ∧
      (busRead .word (BitVec.ofNat 20 (0x40000 + 4 * 4)) ready).1 = 0x3B8273A6 ∧
      (busRead .word (BitVec.ofNat 20 (0x40000 + 4 * 7)) ready).1 = 0 ∧
      (busRead .word (BitVec.ofNat 20 (0x80000 + 4 * 299)) ready).1 = 0 := by decide +kernel

/-- The mapped and unmapped offsets next to each window's end. -/
theorem witness_UnmappedOffsetsExactly :
    [0x08034, 0x1001C, 0x2001C, 0x3001C, 0x4001C, 0x804AC].map (targetAt tiny) =
        [some (.fbank 1 5), some (.inbuf 7), some (.outbuf 7), some (.pulse 7), some (.env 7), some (.ring 299)] ∧
      [0x08038, 0x08040, 0x10020, 0x20020, 0x30020, 0x40020, 0x804B0].map (targetAt tiny) = List.replicate 7 none := by
  decide +kernel
theorem witness_BadAccessRecordsBusError :
    (AccessSize.half ≠ .word ∨ targetAt blank.params 0 = none) ∧
      (AccessSize.word ≠ .word ∨ targetAt blank.params 0x002 = none) ∧
      (AccessSize.word ≠ .word ∨ targetAt blank.params 0x804B0 = none) := by decide +kernel
theorem witness_ReadOnlyWriteIsBusError :
    targetAt blank.params 0x804AC = some (.ring 299) ∧ Target.ring 299 ≠ .cmd ∧ Target.ring 299 ≠ .status ∧
      (∀ r, Target.ring 299 ≠ .operand r) ∧ (∀ i, Target.ring 299 ≠ .inbuf i) :=
  ⟨by decide +kernel, by decide, by decide, (by intro r h; cases h), (by intro i h; cases h)⟩
theorem witness_OperandWriteReadsBack : OperandReg.fIn ≠ .srLo := by decide
theorem witness_InbufWriteReadsBack : blank.params.Legal ∧ 7 < blank.params.blockMax := by decide
theorem witness_StatusWriteClearsErrorBits : 0 < 6 ∧ 5 < 6 := by decide

/-- Both ways out: a refused command, and one that runs. -/
theorem witness_CommandErrorChangesOnlyRecord :
    exec .convolve blank = .next (after (exec .convolve blank)) ∧
      (after (exec .convolve blank)).err = recordError .notReady (encode .convolve) blank.err ∧
      exec .nop blank = .next blank :=
  ⟨rfl, by decide, rfl⟩
theorem witness_ErrorsNeverBlock : exec (.fltProcess 1) filters = .next (after (exec (.fltProcess 1) filters)) := rfl
theorem witness_ErrorRecordLegalKept :
    ErrorRecordLegal (after (exec .convolve blank)).err ∧ (after (exec .convolve blank)).err.codeField ≠ 0 ∧
      step (after (exec .convolve blank)) = .next (after (step (after (exec .convolve blank)))) :=
  ⟨⟨by decide, by decide, by decide, by decide⟩, by decide, rfl⟩
theorem witness_FilterIndexRefused : filters.params.nfilt ≤ (2 : BitVec 8).toNat := by decide
theorem witness_FltSetcoefResult :
    filters.fb.length = filters.params.nfilt ∧ blank.fb.length = blank.params.nfilt ∧ (1 : BitVec 8).toNat < filters.params.nfilt ∧
      lt64 (abs64 (sub64 (cvt64 filters.regs.fGlow) (cvt64 filters.regs.fGhigh))) 0x3EB0C6F7A0B5ED8D = false ∧
      (0 : BitVec 8).toNat < blank.params.nfilt ∧
      lt64 (abs64 (sub64 (cvt64 blank.regs.fGlow) (cvt64 blank.regs.fGhigh))) 0x3EB0C6F7A0B5ED8D = true := by decide +kernel
theorem witness_FltProcessResult :
    filters.fb.length = filters.params.nfilt ∧ (1 : BitVec 8).toNat < filters.params.nfilt ∧ (filters.filter 1).configured = true ∧
      (0 : BitVec 8).toNat < filters.params.nfilt ∧ (filters.filter 0).configured = false := by decide
theorem witness_FltResetResult :
    filters.fb.length = filters.params.nfilt ∧ (1 : BitVec 8).toNat < filters.params.nfilt := by decide
theorem witness_FilterCommandsAreIndependent :
    exec (.fltSetcoef 0) filters = .next (after (exec (.fltSetcoef 0) filters)) ∧
      exec (.fltProcess 1) filters = .next (after (exec (.fltProcess 1) filters)) ∧
      exec (.fltReset 1) filters = .next (after (exec (.fltReset 1) filters)) := ⟨rfl, rfl, rfl⟩

/-- A flat filter with gain 0.5. -/
def flatFilter (z1 zout1 : Word) : Filter :=
  { b0 := 0x3F000000, b1 := 0, a1 := 0, z1 := z1, zout1 := zout1, configured := true }

/-- V-FLT-2 and both outcomes of the product -0.0. -/
theorem witness_FlatPathIsPlainGain :
    ((flatFilter 0xBF800000 0).b1 = 0 ∧ (flatFilter 0xBF800000 0).a1 = 0 ∧
      isFinite32 (flatFilter 0xBF800000 0).z1 = true ∧ isFinite32 (flatFilter 0xBF800000 0).zout1 = true) ∧
      filterOutput (flatFilter 0xBF800000 0) 0xC0400000 = 0xBFC00000 ∧
      filterOutput (flatFilter 0xBF800000 0) 0x80000000 = 0x80000000 ∧
      filterOutput (flatFilter 0x3DCCCCCD 0x3D4CCCCD) 0x80000000 = 0 := by decide +kernel

/-- V-FLT-8. -/
theorem witness_NonFiniteOutputPersists :
    isFinite32 0x7F800000 = false ∧ filterOutput (flatFilter 0 0) 0x7F800000 = 0x7F800000 ∧
      isFinite32 (flatFilter 0x7F800000 0x7F800000).zout1 = false ∧ (flatFilter 0x7F800000 0x7F800000).a1 = 0 ∧
      filterOutput (flatFilter 0x7F800000 0x7F800000) 0x3F800000 = 0x7FC00000 := by decide +kernel

/-- V-FLT-3. -/
theorem witness_ZeroCrossoverIsFlatAtGainHigh :
    isFinite32 0x3F4CCCCD = true ∧ isFinite32 0x3ECCCCCD = true ∧ lt32 0 (abs32 0x3ECCCCCD) = true ∧
      isFinite32 0x473B8000 = true ∧ lt32 0 0x473B8000 = true ∧ flatGains 0x3F4CCCCD 0x3ECCCCCD = false ∧
      designCoefficients .correctlyRounded 0x3F4CCCCD 0x3ECCCCCD 0 0x473B8000 =
        { b0 := 0x3ECCCCCD, b1 := 0xBECCCCCD, a1 := 0xBF800000 } := by decide +kernel

/-! Generation -/

theorem witness_GenerationResult :
    tinyGen.params.Legal ∧
      validate tinyGen.params (tinyGen.regs.srHi ++ tinyGen.regs.srLo) (tinyGen.regs.durHi ++ tinyGen.regs.durLo)
        (tinyGen.regs.densHi ++ tinyGen.regs.densLo) tinyGen.regs.maxblk = none ∧
      validate tinyGen.params (tinyGen.regs.srHi ++ tinyGen.regs.srLo) 0x403E000000000000 0x409F400000000000
        tinyGen.regs.maxblk = none := by decide +kernel

/-- The seven conditions as the statement writes them. -/
abbrev cond1 (s : State) : Prop := isFinite64 (s.regs.srHi ++ s.regs.srLo) = true ∧ gt64 (s.regs.srHi ++ s.regs.srLo) 0 = true
abbrev cond2 (s : State) : Prop := isFinite64 (s.regs.durHi ++ s.regs.durLo) = true ∧ gt64 (s.regs.durHi ++ s.regs.durLo) 0 = true
abbrev cond3 (s : State) : Prop :=
  isFinite64 (s.regs.densHi ++ s.regs.densLo) = true ∧ gt64 (s.regs.densHi ++ s.regs.densLo) 0 = true
abbrev cond4 (s : State) : Prop := 1 ≤ s.regs.maxblk.toNat ∧ s.regs.maxblk.toNat ≤ s.params.blockMax
def lr (s : State) : DWord :=
  div64 (mul64 (s.regs.srHi ++ s.regs.srLo) (s.regs.durHi ++ s.regs.durLo)) 0x408F400000000000
def gr (s : State) : DWord := div64 (s.regs.srHi ++ s.regs.srLo) (s.regs.densHi ++ s.regs.densLo)
abbrev cond5 (s : State) : Prop := isFinite64 (lr s) = true ∧ rha (lr s) ≤ (s.params.ringMax : Int) - 256
abbrev cond6 (s : State) : Prop := isFinite64 (gr s) = true ∧ rha (gr s) ≤ 2 ^ 31 - 1
abbrev cond7 (s : State) : Prop := (rha (lr s)).toNat / (max 1 (rha (gr s))).toNat ≤ s.params.pulseMax

theorem witness_GenerationRefused_1 :
    let s := operands 0 0x403E000000000000 0x409F400000000000 1 8
    ¬cond1 s := by decide +kernel
theorem witness_GenerationRefused_2 :
    let s := operands 0x4062C00000000000 0 0x409F400000000000 1 8
    cond1 s ∧ ¬cond2 s := by decide +kernel
theorem witness_GenerationRefused_3 :
    let s := operands 0x4062C00000000000 0x403E000000000000 0 1 8
    cond1 s ∧ cond2 s ∧ ¬cond3 s := by decide +kernel

/-- MAXBLK one beyond BLOCK_MAX. -/
theorem witness_GenerationRefused_4 :
    let s := operands 0x4062C00000000000 0x403E000000000000 0x409F400000000000 1 9
    cond1 s ∧ cond2 s ∧ cond3 s ∧ ¬cond4 s := by decide +kernel

/-- SR = 1500: 45 samples, one beyond RING_MAX - 256. -/
theorem witness_GenerationRefused_5 :
    let s := operands 0x4097700000000000 0x403E000000000000 0x409F400000000000 1 8
    cond1 s ∧ cond2 s ∧ cond3 s ∧ cond4 s ∧ ¬cond5 s := by decide +kernel

/-- DENS = 1e-8: a grid of 1.5e10. -/
theorem witness_GenerationRefused_6 :
    let s := operands 0x4062C00000000000 0x403E000000000000 0x3E45798EE2308C3A 1 8
    cond1 s ∧ cond2 s ∧ cond3 s ∧ cond4 s ∧ cond5 s ∧ ¬cond6 s := by decide +kernel

/-- SR = 300: 9 pulses, one beyond PULSE_MAX. -/
theorem witness_GenerationRefused_7 :
    let s := operands 0x4072C00000000000 0x403E000000000000 0x409F400000000000 1 8
    cond1 s ∧ cond2 s ∧ cond3 s ∧ cond4 s ∧ cond5 s ∧ cond6 s ∧ ¬cond7 s := by decide +kernel

/-- What the statements about an accepted generation assume. -/
theorem witness_accepted :
    tinyGen.params.Legal ∧ GenerationAccepted tinyGen .generate ∧
      exec .generate tinyGen = .next (after (exec .generate tinyGen)) :=
  ⟨by decide, .inl ⟨rfl, by decide +kernel⟩, exec_next _ _⟩
theorem witness_PulsesLieInTheirCells : (after (exec .generate tinyGen)).gen.npulses = 5 := by decide +kernel
theorem witness_PulsesComeFromTheirDraws : GenerationAccepted tinyGen .prepare := .inr ⟨rfl, by decide +kernel⟩
theorem witness_JitterParity :
    evenGen.params.Legal ∧ GenerationAccepted evenGen .generate ∧
      exec .generate evenGen = .next (after (exec .generate evenGen)) ∧
      (after (exec .generate evenGen)).gen.grid.toNat % 2 = 0 ∧ 1 < (after (exec .generate evenGen)).gen.npulses.toNat :=
  ⟨by decide, .inl ⟨rfl, by decide +kernel⟩, exec_next _ _, by decide +kernel, by decide +kernel⟩

/-- A second state that agrees with the first on the generation's operands and differs elsewhere. -/
def otherGen : State := { tinyGen with fOut := 1, mem := [], regs := { tinyGen.regs with gain := 0x3F800000, nsamp := 3 } }
theorem witness_GenerationIsDeterministic :
    GenerationAccepted tinyGen .generate ∧ otherGen ≠ tinyGen ∧ otherGen.params = tinyGen.params ∧
      otherGen.regs.srLo = tinyGen.regs.srLo ∧ otherGen.regs.srHi = tinyGen.regs.srHi ∧
      otherGen.regs.durLo = tinyGen.regs.durLo ∧ otherGen.regs.durHi = tinyGen.regs.durHi ∧
      otherGen.regs.densLo = tinyGen.regs.densLo ∧ otherGen.regs.densHi = tinyGen.regs.densHi ∧
      otherGen.regs.seed = tinyGen.regs.seed ∧ otherGen.regs.maxblk = tinyGen.regs.maxblk :=
  ⟨.inl ⟨rfl, by decide +kernel⟩, by decide +kernel, rfl, rfl, rfl, rfl, rfl, rfl, rfl, rfl, rfl⟩
theorem witness_NoPulsesUnitGain :
    noPulseGen.params.Legal ∧ GenerationAccepted noPulseGen .generate ∧
      exec .generate noPulseGen = .next (after (exec .generate noPulseGen)) ∧
      (after (exec .generate noPulseGen)).gen.seqlen.toNat < (after (exec .generate noPulseGen)).gen.grid.toNat :=
  ⟨by decide, .inl ⟨rfl, by decide +kernel⟩, exec_next _ _, by decide +kernel⟩
theorem witness_GenerationStartsFreshStream : (after (exec .generate tinyGen)).gen.ringcap = 261 := by decide +kernel

/-! Convolution -/

theorem witness_ConvolveRefused :
    blank.prepared = false ∧ ready.prepared = true ∧
      ({ ready with regs := { ready.regs with nsamp := 9 } } : State).gen.actMaxblk.toNat <
        ({ ready with regs := { ready.regs with nsamp := 9 } } : State).regs.nsamp.toNat := by decide
theorem witness_ConvolveResult :
    ready.Inv ∧ ready.prepared = true ∧ ready.regs.nsamp.toNat ≤ ready.gen.actMaxblk.toNat :=
  ⟨readyState_inv, by decide, by decide⟩
theorem ready_history : HoldsHistory ready [] := by
  unfold HoldsHistory
  decide +kernel
theorem ready_exact : ExactBlock ready 8 := by
  unfold ExactBlock
  decide +kernel
theorem witness_ConvolveIsExactFir :
    ready.Inv ∧ ready.prepared = true ∧ ready.regs.nsamp.toNat ≤ ready.gen.actMaxblk.toNat ∧
      HoldsHistory ready [] ∧ ExactBlock ready ready.regs.nsamp.toNat :=
  ⟨readyState_inv, by decide, by decide, ready_history, ready_exact⟩

/-- The prepared block with NSAMP = 2, the first half block run, and INBUF written with the second half. -/
def whole : State := { ready with regs := { ready.regs with nsamp := 2 } }
def half : State := after (exec .convolve { whole with regs := { whole.regs with nsamp := 1 } })
def halfMem : Memory := half.mem.writeWord (inbufAddr 0) (whole.inbuf 1)
theorem witness_BlockBoundaryIndependence :
    whole.Inv ∧ whole.prepared = true ∧ whole.regs.nsamp.toNat = 1 + 1 ∧ 1 + 1 ≤ whole.gen.actMaxblk.toNat ∧
      ExactBlock whole (1 + 1) ∧ exec .convolve whole = .next (after (exec .convolve whole)) ∧
      exec .convolve { whole with regs := { whole.regs with nsamp := BitVec.ofNat 32 1 } } = .next half ∧
      (∀ n, n < 1 → halfMem.readWord (inbufAddr n) = whole.inbuf (1 + n)) ∧
      (∀ o, 0x30000 ≤ o → halfMem.readByte o = half.mem.readByte o) ∧
      exec .convolve { half with mem := halfMem, regs := { half.regs with nsamp := BitVec.ofNat 32 1 } } =
        .next (after (exec .convolve { half with mem := halfMem, regs := { half.regs with nsamp := BitVec.ofNat 32 1 } })) := by
  refine ⟨ready_inv 2 0x3F000000 ready.mem ready_mem_wf rfl, by decide, by decide, by decide, ?_, rfl, rfl, by decide +kernel, ?_, rfl⟩
  · unfold ExactBlock
    decide +kernel
  · intro o ho
    exact Memory.readByte_writeWord_of_ne _ _ _ _ (.inr (by unfold inbufAddr; omega))
theorem witness_EmptyBlockChangesNothing :
    ({ ready with regs := { ready.regs with nsamp := 0 } } : State).prepared = true ∧
      ({ ready with regs := { ready.regs with nsamp := 0 } } : State).gen.wptr.toNat <
        ({ ready with regs := { ready.regs with nsamp := 0 } } : State).gen.ringcap.toNat ∧
      ({ ready with regs := { ready.regs with nsamp := 0 } } : State).regs.nsamp = 0 := by decide

/-- The prepared block with zeros of both signs in INBUF. -/
def silent : State := { ready with mem := ready.mem.writeWords 0x10000 [0, 0x80000000, 0, 0, 0x80000000, 0, 0, 0] }
theorem witness_SilenceInSilenceOut :
    silent.Inv ∧ silent.prepared = true ∧ silent.regs.nsamp.toNat ≤ silent.gen.actMaxblk.toNat ∧
      exec .convolve silent = .next (after (exec .convolve silent)) ∧
      (∀ k, k < silent.gen.npulses.toNat → isFinite32 (silent.pulseCoeff k) = true) ∧
      (∀ n, n < silent.regs.nsamp.toNat → abs32 (silent.inbuf n) = 0) ∧
      (∀ j, j < silent.gen.ringcap.toNat → abs32 (silent.ring j) = 0) :=
  ⟨ready_inv 8 0x3F000000 _ (Memory.wf_writeWords _ ready_mem_wf _) (by decide +kernel), by decide, by decide, rfl,
    by decide +kernel, by decide +kernel, by decide +kernel⟩

/-- The other disjunct: a prepared block with no pulses, the tables of V-GEN-8. -/
def pulseless : State :=
  { ready with
    gen :=
      { seqlen := 19, grid := 24, npulses := 0, ringcap := 275, wptr := 0, normgain := 0x3F800000,
        decay := 0xBFD744AA9C435E01, lcgstate := 1, actMaxblk := 8 } }
theorem witness_SilenceInSilenceOut_pulseless :
    pulseless.Inv ∧ pulseless.prepared = true ∧ pulseless.regs.nsamp.toNat ≤ pulseless.gen.actMaxblk.toNat ∧
      pulseless.gen.npulses = 0 :=
  ⟨{ legal := by decide
     filters := by decide
     memory := ready_mem_wf
     unprepared := fun h => absurd h (by decide)
     prepared := fun _ =>
       ⟨by decide, by decide, by decide, by decide, by decide, by decide, by decide, by decide,
         fun k hk => absurd hk (Nat.not_lt_zero k), fun k hk => absurd hk (Nat.not_lt_zero _)⟩ },
    by decide, by decide, by decide⟩
theorem witness_ZeroAndNanGain :
    ({ ready with regs := { ready.regs with gain := 0x80000000 } } : State).Inv ∧ abs32 0x80000000 = 0 ∧
      isFinite32 ready.gen.normgain = true ∧ (∀ k, k < ready.gen.npulses.toNat → isFinite32 (ready.env k) = true) ∧
      ({ ready with regs := { ready.regs with gain := 0x7FC00000 } } : State).Inv ∧ val32 0x7FC00000 = .nan ∧
      ready.gen.npulses ≠ 0 ∧ ready.regs.nsamp.toNat ≤ ready.gen.actMaxblk.toNat :=
  ⟨ready_inv 8 0x80000000 ready.mem ready_mem_wf rfl, by decide, by decide +kernel, by decide +kernel,
    ready_inv 8 0x7FC00000 ready.mem ready_mem_wf rfl, by decide +kernel, by decide, by decide⟩

/-- R204: CULL32 itself is not culled, its predecessor and zeros are. -/
theorem witness_CullTestIsExact :
    culled 0x2EDBE6FF = false ∧ culled 0x2EDBE6FE = true ∧ culled 0x80000000 = true ∧ culled 0x7FC00000 = false := by
  decide +kernel

/-! The whole machine -/

theorem witness_InstanceFixedAndPreparedSticky :
    ready.prepared = true ∧ step (about (.write .word 0x004 2) ready) = .next (after (step (about (.write .word 0x004 2) ready))) ∧
      (about (.write .word 0x004 1) tinyGen).prepared = false ∧
      step (about (.write .word 0x004 1) tinyGen) = .next (after (step (about (.write .word 0x004 1) tinyGen))) ∧
      (after (step (about (.write .word 0x004 1) tinyGen))).prepared = true :=
  ⟨by decide, step_command_next _ _, by decide, step_command_next _ _, by decide +kernel⟩
theorem witness_CommandsKeepOperandsAndInput :
    ready.Inv ∧ exec .convolve ready = .next (after (exec .convolve ready)) ∧ 7 < ready.params.blockMax :=
  ⟨readyState_inv, rfl, by decide⟩
theorem witness_TablesChangeOnlyByGeneration :
    ready.Inv ∧ step ready = .next (after (step ready)) ∧ tinyGen.Inv ∧ 7 < ready.params.pulseMax :=
  ⟨readyState_inv, rfl, tinyGen_inv, by decide⟩
theorem witness_FilterBankChangesOnlyByFilterCommands :
    step (about (.write .word 0x004 0x105) filters) = .next (after (step (about (.write .word 0x004 0x105) filters))) ∧
      (after (step (about (.write .word 0x004 0x105) filters))).filter 1 ≠ (about (.write .word 0x004 0x105) filters).filter 1 :=
  ⟨rfl, by decide +kernel⟩
theorem witness_ResetState : Params.recommended.Legal ∧ 15 < Params.recommended.nfilt := by decide
theorem witness_InvariantAtReset : tiny.Legal ∧ State.reset.Inv := ⟨by decide, reset_inv⟩
theorem witness_InvariantKeptByStep : filters.Inv ∧ step filters = .next (after (step filters)) := ⟨filters_inv, rfl⟩

/-! Arithmetic -/

theorem witness_QuotientAndRootAreCorrectlyRounded :
    isFinite64 0x3FF0000000000000 = true ∧ isFinite64 0xC008000000000000 = true ∧
      (val64 0xC008000000000000).toRat ≠ 0 ∧ 0 < (val64 0x4000000000000000).toRat ∧ 0 ≤ (val64 0x8000000000000000).toRat := by
  refine ⟨by decide +kernel, by decide +kernel, ?_, ?_, ?_⟩
  · rw [show val64 0xC008000000000000 = .fin true 6755399441055744 (-51) by decide +kernel]
    norm_num [FloatVal.toRat]
  · rw [show val64 0x4000000000000000 = .fin false 4503599627370496 (-51) by decide +kernel]
    norm_num [FloatVal.toRat]
  · rw [show val64 0x8000000000000000 = .fin true 0 (-1074) by decide +kernel]
    norm_num [FloatVal.toRat]
theorem witness_SumAndProductAreCorrectlyRounded :
    isFinite32 0x3F800000 = true ∧ isFinite32 0x7F7FFFFF = true ∧
      (val32 0x3F800000).toRat + (val32 0x7F7FFFFF).toRat ≠ 0 := by
  refine ⟨by decide +kernel, by decide +kernel, ?_⟩
  rw [show val32 0x3F800000 = .fin false 8388608 (-23) by decide +kernel,
    show val32 0x7F7FFFFF = .fin false 16777215 104 by decide +kernel]
  norm_num [FloatVal.toRat]
theorem witness_NanResultsAreCanonical : val32 (round32 .nan) = .nan ∧ val64 (round64 .nan) = .nan := by decide +kernel

/-- 2.5 lies at a half. -/
theorem witness_RhaRoundsHalvesAway :
    isFinite64 0x4004000000000000 = true ∧ |((rha 0x4004000000000000 : ℚ) - (val64 0x4004000000000000).toRat)| = 1 / 2 := by
  refine ⟨by decide +kernel, ?_⟩
  rw [show rha 0x4004000000000000 = 3 by decide +kernel,
    show val64 0x4004000000000000 = .fin false 5629499534213120 (-51) by decide +kernel]
  norm_num [FloatVal.toRat]

/-- Each clause: -2048.0, beyond the cutoff; 1.0, whose exponential is the binary64 of 2.718281828459045; the infinities; a NaN. -/
theorem witness_ExpIsCorrectlyRounded :
    isFinite64 0xC0A0000000000000 = true ∧ isFinite64 0x3FF0000000000000 = true ∧
      exp64 .correctlyRounded 0x3FF0000000000000 = 0x4005BF0A8B145769 ∧
      val64 0xFFF0000000000000 = .inf true ∧ val64 0x7FF0000000000000 = .inf false ∧
      val64 0x7FF0000000000001 = .nan := by decide +kernel

/-- Each clause: a zero; 1.0, whose tangent is the binary64 of 1.5574077246549022; an infinity and a NaN. -/
theorem witness_TanIsCorrectlyRounded :
    isFinite64 0 = true ∧ isFinite64 0x3FF0000000000000 = true ∧ (val64 0x3FF0000000000000).toRat ≠ 0 ∧
      tan64 .correctlyRounded 0x3FF0000000000000 = f64lit { neg := false, digits := 15574077246549022, exp10 := -16 } ∧
      isFinite64 0x7FF0000000000000 = false ∧ isFinite64 0x7FF0000000000001 = false := by
  refine ⟨by decide +kernel, by decide +kernel, ?_, by decide +kernel, by decide +kernel, by decide +kernel⟩
  rw [show val64 0x3FF0000000000000 = .fin false 4503599627370496 (-52) by decide +kernel]
  norm_num [FloatVal.toRat]

end Sys2Proof.Tests
end

section
/-! SUPPORT. Proofs of the statements about arithmetic (spec/00_scope.md R18 to R24) and about the step that runs a command (R9, R131,
spec/10_state.md R62). -/

namespace Sys2Proof.Machine

/-! ### The step that runs a command -/

/-- A step with an access pending carries it out, the host moved past it. -/
theorem step_of_pending {s : State} {a : Access} {rest : List Access} (h : s.host.pending = a :: rest) :
    step s = performAccess a (moved s rest) := by
  unfold step fetchAccess
  rw [h]
  rfl

/-- A word write to CMD executes the word (R131). -/
theorem busWrite_cmd (w : Word) (s : State) : busWrite .word 0x004 w s = executeCommand w s := by
  unfold busWrite
  rw [targetAt_eq_cmd.2 rfl]
  rfl

theorem executeCommand_of_decode {w : Word} {i : Instr} (h : decode w = .ok i) (s : State) :
    executeCommand w s = exec i s := by
  unfold executeCommand
  rw [h]

/-- Settles O4: the pending write reaches CMD, and CMD executes the command of its word. -/
theorem stepRunsDecodedCommand : Obligations.StepRunsDecodedCommand := by
  intro s w rest i hpending hdecode
  calc step s = busWrite .word 0x004 w (moved s rest) := step_of_pending hpending
    _ = exec i (moved s rest) := by rw [busWrite_cmd, executeCommand_of_decode hdecode]

/-! ### One rounding of an exact value (R18) -/

/-- Every exact magnitude rounds to a nearest one. -/
theorem roundMag_nearest {f : FloatFormat} (hf : f.Wide) (m : Nat) (e : ℤ) :
    NearestMag f ((m : ℝ) * 2 ^ e) (f.roundMag m e) := by
  by_cases hm : m = 0
  · subst hm
    simpa [FloatFormat.roundMag] using nearestMag_zero hf
  · exact roundMag_of_standsFor hf e (standsFor_self m) hm (.inl rfl)

/-- Settles O54: the rounding lemma at the two formats. -/
theorem roundingIsNearestEven : Obligations.RoundingIsNearestEven := fun m e =>
  ⟨roundMag_nearest binary32_wide m e, roundMag_nearest binary64_wide m e⟩

/-! ### Sums and products (R19) -/

theorem FloatVal.abs_toRat_fin_real (neg : Bool) (m : Nat) (e : ℤ) :
    |((FloatVal.fin neg m e).toRat : ℝ)| = (m : ℝ) * 2 ^ e := by
  rw [← Rat.cast_abs, FloatVal.abs_toRat_fin]
  push_cast
  rfl

/-- A binary32 pattern holds a number rounded once: its magnitude is nearest, and it has the number's sign where that is not zero. -/
def CorrectlyRounded32 (q : ℚ) (w : Word) : Prop :=
  NearestMag binary32 |(q : ℝ)| (w.toNat % 2 ^ 31) ∧ (q ≠ 0 → (w.getLsbD 31 = true ↔ q < 0))

theorem round32_correctlyRounded {v : FloatVal} (hv : v.isFinite = true) : CorrectlyRounded32 v.toRat (round32 v) := by
  obtain ⟨neg, m, e, rfl⟩ := FloatVal.isFinite_iff.1 hv
  refine ⟨?_, fun h => ?_⟩
  · rw [FloatVal.abs_toRat_fin_real, round32_fin_mag]
    exact roundMag_nearest binary32_wide m e
  · rw [round32_fin_sign]
    exact FloatVal.neg_iff h

/-- Sums, negations and products of finite values are finite and exact. -/
theorem FloatVal.add_exact {a b : FloatVal} (ha : a.isFinite = true) (hb : b.isFinite = true) :
    (a.add b).isFinite = true ∧ (a.add b).toRat = a.toRat + b.toRat := by
  obtain ⟨_, _, _, rfl⟩ := FloatVal.isFinite_iff.1 ha
  obtain ⟨_, _, _, rfl⟩ := FloatVal.isFinite_iff.1 hb
  obtain ⟨neg, k, c, heq, hval, -⟩ := FloatVal.add_fin _ _ _ _ _ _
  rw [heq]
  exact ⟨rfl, hval⟩

theorem FloatVal.negate_isFinite {a : FloatVal} (ha : a.isFinite = true) : a.negate.isFinite = true := by
  obtain ⟨_, _, _, rfl⟩ := FloatVal.isFinite_iff.1 ha
  rfl

theorem FloatVal.mul_exact {a b : FloatVal} (ha : a.isFinite = true) (hb : b.isFinite = true) :
    (a.mul b).isFinite = true ∧ (a.mul b).toRat = a.toRat * b.toRat := by
  obtain ⟨_, _, _, rfl⟩ := FloatVal.isFinite_iff.1 ha
  obtain ⟨_, _, _, rfl⟩ := FloatVal.isFinite_iff.1 hb
  exact ⟨rfl, FloatVal.mul_fin_toRat _ _ _ _ _ _⟩

theorem add32_correctlyRounded {a b : Word} (ha : isFinite32 a = true) (hb : isFinite32 b = true) :
    CorrectlyRounded32 ((val32 a).toRat + (val32 b).toRat) (add32 a b) := by
  obtain ⟨hfin, hval⟩ := FloatVal.add_exact ha hb
  exact hval ▸ round32_correctlyRounded hfin

theorem sub32_correctlyRounded {a b : Word} (ha : isFinite32 a = true) (hb : isFinite32 b = true) :
    CorrectlyRounded32 ((val32 a).toRat - (val32 b).toRat) (sub32 a b) := by
  obtain ⟨hfin, hval⟩ := FloatVal.add_exact ha (FloatVal.negate_isFinite hb)
  rw [FloatVal.negate_toRat, ← sub_eq_add_neg] at hval
  exact hval ▸ round32_correctlyRounded hfin

theorem mul32_correctlyRounded {a b : Word} (ha : isFinite32 a = true) (hb : isFinite32 b = true) :
    CorrectlyRounded32 ((val32 a).toRat * (val32 b).toRat) (mul32 a b) := by
  obtain ⟨hfin, hval⟩ := FloatVal.mul_exact ha hb
  exact hval ▸ round32_correctlyRounded hfin

/-- Settles O56: each operation rounds an exact value once. -/
theorem sumAndProductAreCorrectlyRounded : Obligations.SumAndProductAreCorrectlyRounded := fun _ _ ha hb =>
  ⟨add32_correctlyRounded ha hb, sub32_correctlyRounded ha hb, mul32_correctlyRounded ha hb⟩

/-! ### Quotients and roots (R19, R23) -/

/-- The quotient of finite values, before its rounding: its sign is the product of the signs, and its magnitude rounds to a nearest one. -/
theorem FloatVal.div_fin {f : FloatFormat} (hf : f.Wide) (a : Bool) (m : Nat) (e : ℤ) (b : Bool) {n : Nat} (d : ℤ) (hn : n ≠ 0) :
    ∃ s c, (FloatVal.fin a m e).div f.prec (.fin b n d) = .fin (a != b) s c ∧
      NearestMag f ((m : ℝ) * 2 ^ e / (n * 2 ^ d)) (f.roundMag s c) := by
  refine ⟨(quotientSticky f.prec m n).1, e - d - (quotientSticky f.prec m n).2, by simp [FloatVal.div, hn], ?_⟩
  by_cases hm : m = 0
  · subst hm
    simpa [quotientSticky, sticky, FloatFormat.roundMag] using nearestMag_zero hf
  · obtain ⟨hstands, hbits⟩ := quotientSticky_standsFor f.prec hm hn
    have hpos := Nat.two_pow_pos (f.prec + 1)
    have hround := roundMag_of_standsFor hf (e - d - (quotientSticky f.prec m n).2) hstands (by omega) (.inr hbits)
    have hval : (m : ℝ) / n * 2 ^ (quotientSticky f.prec m n).2 * 2 ^ (e - d - ((quotientSticky f.prec m n).2 : ℤ)) =
        m * 2 ^ e / (n * 2 ^ d) := by
      rw [mul_assoc, ← zpow_natCast, ← zpow_add₀ two_ne_zero, add_sub_cancel, zpow_sub₀ two_ne_zero, div_mul_div_comm]
    rwa [hval] at hround

/-- A root with an even exponent taken out of the radicand. -/
theorem sqrt_mul_two_zpow (x : ℝ) (c : ℤ) : Real.sqrt (x * 2 ^ (2 * c)) = Real.sqrt x * 2 ^ c := by
  have h : (2 : ℝ) ^ (2 * c) = (2 ^ c) ^ 2 := by rw [mul_comm, zpow_mul, zpow_ofNat]
  rw [h, Real.sqrt_mul' x (sq_nonneg _), Real.sqrt_sq (by positivity)]

theorem le_isqrt {n p : Nat} (h : 2 ^ (2 * p) ≤ n) : 2 ^ p ≤ isqrt n := by
  by_contra hlt
  have hle : (isqrt n + 1) * (isqrt n + 1) ≤ 2 ^ p * 2 ^ p := Nat.mul_le_mul (by omega) (by omega)
  rw [← pow_add, ← two_mul] at hle
  exact absurd (isqrt_spec n).2 (by omega)

/-- The root of a positive value, before its rounding. -/
theorem FloatVal.sqrt_fin {f : FloatFormat} (hf : f.Wide) {m : Nat} (e : ℤ) (hm : m ≠ 0) :
    ∃ s c, (FloatVal.fin false m e).sqrt f.prec = .fin false s c ∧
      NearestMag f (Real.sqrt (m * 2 ^ e)) (f.roundMag s c) := by
  set k : Nat := 2 * (f.prec + 2) + (e % 2).toNat with hk
  set n := m * 2 ^ k with hn
  refine ⟨sticky (isqrt n) (n - isqrt n * isqrt n), (e - k) / 2 - 1, by simp [FloatVal.sqrt, hm, ← hk, ← hn], ?_⟩
  have hroot : 2 ^ (f.prec + 2) ≤ isqrt n := le_isqrt <|
    calc 2 ^ (2 * (f.prec + 2)) ≤ 2 ^ k := Nat.pow_le_pow_right two_pos (by omega)
      _ ≤ n := Nat.le_mul_of_pos_left _ (Nat.pos_of_ne_zero hm)
  have hbits : 2 ^ (f.prec + 1) ≤ sticky (isqrt n) (n - isqrt n * isqrt n) := by
    rw [pow_succ] at hroot
    unfold sticky
    omega
  have hpos := Nat.two_pow_pos (f.prec + 1)
  have hround := roundMag_of_standsFor hf ((e - k) / 2 - 1) (isqrt_standsFor n) (by omega) (.inr hbits)
  have heven : e = k + 2 * ((e - k) / 2) := by omega
  have hval : 2 * Real.sqrt n * 2 ^ ((e - k) / 2 - 1) = Real.sqrt (m * 2 ^ e) := by
    have hrad : (m : ℝ) * 2 ^ e = n * 2 ^ (2 * ((e - k) / 2)) := by
      conv_lhs => rw [heven, zpow_add₀ two_ne_zero, zpow_natCast, ← mul_assoc]
      rw [hn]
      push_cast
      rfl
    rw [hrad, sqrt_mul_two_zpow, zpow_sub_one₀ two_ne_zero]
    ring
  rwa [hval] at hround

theorem div64_correctlyRounded {a b : DWord} (ha : isFinite64 a = true) (hb : isFinite64 b = true)
    (hb0 : (val64 b).toRat ≠ 0) :
    NearestMag binary64 |(((val64 a).toRat / (val64 b).toRat : ℚ) : ℝ)| ((div64 a b).toNat % 2 ^ 63) ∧
      (div64 a b).getLsbD 63 = (a.getLsbD 63 != b.getLsbD 63) := by
  obtain ⟨sa, m, e, hva⟩ := FloatVal.isFinite_iff.1 ha
  obtain ⟨sb, n, d, hvb⟩ := FloatVal.isFinite_iff.1 hb
  have hn : n ≠ 0 := by
    rintro rfl
    exact hb0 (by simp [hvb, FloatVal.toRat_fin])
  obtain ⟨s, c, hdiv, hnear⟩ := FloatVal.div_fin binary64_wide sa m e sb d hn
  have hres : div64 a b = round64 (.fin (sa != sb) s c) := by
    unfold div64
    rw [hva, hvb]
    exact congrArg round64 hdiv
  have habs : |(((val64 a).toRat / (val64 b).toRat : ℚ) : ℝ)| = (m : ℝ) * 2 ^ e / (n * 2 ^ d) := by
    rw [Rat.cast_div, abs_div, hva, hvb, FloatVal.abs_toRat_fin_real, FloatVal.abs_toRat_fin_real]
  rw [habs, hres, round64_fin_mag, round64_fin_sign, val64_sign hva, val64_sign hvb]
  exact ⟨hnear, rfl⟩

theorem sqrt64_correctlyRounded {a : DWord} (ha : isFinite64 a = true) (h0 : 0 ≤ (val64 a).toRat) :
    NearestMag binary64 (Real.sqrt ((val64 a).toRat : ℝ)) ((sqrt64 a).toNat % 2 ^ 63) ∧
      (0 < (val64 a).toRat → (sqrt64 a).getLsbD 63 = false) := by
  obtain ⟨neg, m, e, hva⟩ := FloatVal.isFinite_iff.1 ha
  unfold sqrt64
  rw [hva] at h0 ⊢
  by_cases hm : m = 0
  · subst hm
    have hzero : (FloatVal.fin neg 0 e).toRat = 0 := by simp [FloatVal.toRat_fin]
    have hroot : (FloatVal.fin neg 0 e).sqrt 53 = .fin neg 0 e := by simp [FloatVal.sqrt]
    rw [hzero, hroot, round64_fin_mag]
    exact ⟨by simpa [FloatFormat.roundMag] using nearestMag_zero binary64_wide, fun h => absurd h (lt_irrefl _)⟩
  · have hne : (FloatVal.fin neg m e).toRat ≠ 0 := by
      rw [← abs_pos, FloatVal.abs_toRat_fin]
      positivity
    have hneg : neg = false := by
      by_contra h
      exact absurd ((FloatVal.neg_iff hne).1 (by simpa using h)) (not_lt.2 h0)
    subst hneg
    obtain ⟨s, c, hsqrt, hnear⟩ := FloatVal.sqrt_fin binary64_wide e hm
    rw [show (FloatVal.fin false m e).sqrt 53 = .fin false s c from hsqrt, round64_fin_mag, round64_fin_sign]
    refine ⟨?_, fun _ => rfl⟩
    simpa [FloatVal.toRat_fin] using hnear

/-- Settles O55: what is rounded stands for the exact quotient or root. -/
theorem quotientAndRootAreCorrectlyRounded : Obligations.QuotientAndRootAreCorrectlyRounded :=
  ⟨fun _ _ ha hb hb0 => div64_correctlyRounded ha hb hb0, fun _ ha h0 => sqrt64_correctlyRounded ha h0⟩

/-! ### NaN results (R20) -/

/-- The bits below the sign are the fraction and the exponent field. -/
theorem FloatFormat.mod_signUnit (f : FloatFormat) (bits : Nat) :
    bits % f.signUnit = bits % f.expUnit + f.expUnit * (bits / f.expUnit % 2 ^ f.ebits) := by
  rw [← Nat.mod_mul]
  unfold FloatFormat.signUnit FloatFormat.expUnit
  rw [pow_add]

/-- A pattern of a NaN lies above infinity. -/
theorem FloatFormat.infBits_lt_of_unpack_nan {f : FloatFormat} {bits : Nat} (h : f.unpack bits = .nan) :
    f.infBits < bits % f.signUnit := by
  unfold FloatFormat.unpack at h
  simp only [] at h
  split at h
  · rename_i hex
    split at h
    · cases h
    · rename_i hfrac
      rw [f.mod_signUnit, hex, mul_comm]
      exact Nat.lt_add_of_pos_left (Nat.pos_of_ne_zero hfrac)
  · split at h <;> cases h

/-- No other value rounds to a pattern above infinity. -/
theorem FloatFormat.pack_mod_signUnit_le (f : FloatFormat) {v : FloatVal} (hv : v ≠ .nan) :
    f.pack v % f.signUnit ≤ f.infBits := by
  have hmod : ∀ (neg : Bool) {z : Nat}, z ≤ f.infBits → ((if neg then f.signUnit else 0) + z) % f.signUnit ≤ f.infBits := by
    intro neg z hz
    cases neg
    · simpa using le_trans (Nat.mod_le _ _) hz
    · simpa using le_trans (Nat.mod_le _ _) hz
  cases v with
  | nan => exact absurd rfl hv
  | inf neg => exact hmod neg le_rfl
  | fin neg m e => exact hmod neg (f.roundMag_le m e)

theorem eq_nan_of_unpack_pack {f : FloatFormat} {v : FloatVal} {bits : Nat}
    (hbits : bits % f.signUnit = f.pack v % f.signUnit) (h : f.unpack bits = .nan) : v = .nan := by
  by_contra hv
  have hlt := FloatFormat.infBits_lt_of_unpack_nan h
  have hle := f.pack_mod_signUnit_le hv
  omega

/-- Only a NaN rounds to a NaN. -/
theorem eq_nan_of_val32_round32 {v : FloatVal} (h : val32 (round32 v) = .nan) : v = .nan := by
  refine eq_nan_of_unpack_pack ?_ h
  unfold round32
  rw [BitVec.toNat_ofNat, binary32_signUnit]
  exact Nat.mod_mod_of_dvd _ (by decide)

theorem eq_nan_of_val64_round64 {v : FloatVal} (h : val64 (round64 v) = .nan) : v = .nan := by
  refine eq_nan_of_unpack_pack ?_ h
  unfold round64
  rw [BitVec.toNat_ofNat, binary64_signUnit]
  exact Nat.mod_mod_of_dvd _ (by decide)

/-- Settles O57: only a NaN rounds to a NaN, and it rounds to the canonical one. -/
theorem nanResultsAreCanonical : Obligations.NanResultsAreCanonical := by
  intro v
  constructor
  · intro h
    rw [eq_nan_of_val32_round32 h]
    decide
  · intro h
    rw [eq_nan_of_val64_round64 h]
    decide

/-! ### rha (R21) -/

/-- A nearest integer, at a half the one farther from zero. -/
def RoundsHalfAway (x : ℚ) (n : ℤ) : Prop :=
  |(n : ℚ) - x| ≤ 1 / 2 ∧ (|(n : ℚ) - x| = 1 / 2 → |x| < |(n : ℚ)|)

theorem RoundsHalfAway.neg {x : ℚ} {n : ℤ} (h : RoundsHalfAway x n) : RoundsHalfAway (-x) (-n) := by
  have hdist : |((-n : ℤ) : ℚ) - -x| = |(n : ℚ) - x| := by
    rw [← abs_neg]
    congr 1
    push_cast
    ring
  unfold RoundsHalfAway
  rw [hdist, Int.cast_neg, abs_neg, abs_neg]
  exact h

theorem roundsHalfAway_self (n : ℤ) : RoundsHalfAway n n := by
  unfold RoundsHalfAway
  norm_num

/-- A quotient of naturals, rounded up from a half on. -/
theorem roundsHalfAway_div (m : Nat) {d : Nat} (hd : 0 < d) :
    RoundsHalfAway ((m : ℚ) / d) ((m / d + (if d ≤ 2 * (m % d) then 1 else 0) : Nat) : ℤ) := by
  have hdq : (0 : ℚ) < d := by exact_mod_cast hd
  have hx : (m : ℚ) / d = (m / d : Nat) + (m % d : Nat) / d := by
    rw [div_eq_iff hdq.ne', add_mul, div_mul_cancel₀ _ hdq.ne']
    exact_mod_cast (Nat.div_add_mod' m d).symm
  have hr1 : ((m % d : Nat) : ℚ) / d < 1 := by
    rw [div_lt_one hdq]
    exact_mod_cast Nat.mod_lt m hd
  have hr0 : (0 : ℚ) ≤ ((m % d : Nat) : ℚ) / d := by positivity
  have hq0 : (0 : ℚ) ≤ (m / d : Nat) := Nat.cast_nonneg _
  unfold RoundsHalfAway
  rw [hx, Int.cast_natCast, Nat.cast_add, abs_of_nonneg (add_nonneg hq0 hr0)]
  split
  · rename_i hhalf
    have hhalf' : (1 : ℚ) / 2 ≤ ((m % d : Nat) : ℚ) / d := by
      rw [div_le_div_iff₀ two_pos hdq]
      exact_mod_cast (by omega : 1 * d ≤ m % d * 2)
    rw [Nat.cast_one, abs_of_nonneg (by linarith), abs_of_nonneg (by linarith)]
    exact ⟨by linarith, fun _ => by linarith⟩
  · rename_i hhalf
    have hhalf' : ((m % d : Nat) : ℚ) / d < 1 / 2 := by
      rw [div_lt_div_iff₀ hdq two_pos]
      exact_mod_cast (by omega : m % d * 2 < 1 * d)
    rw [Nat.cast_zero, add_zero, sub_add_cancel_left, abs_neg, abs_of_nonneg hr0]
    exact ⟨hhalf'.le, fun h => absurd h hhalf'.ne⟩

theorem FloatVal.roundHalfAway_fin_true (m : Nat) (e : ℤ) :
    (FloatVal.fin true m e).roundHalfAway = -(FloatVal.fin false m e).roundHalfAway := rfl

/-- A value that is not negative: an integer stays, and a fraction is a quotient by a power of two. -/
theorem FloatVal.roundHalfAway_fin_false (m : Nat) (e : ℤ) :
    RoundsHalfAway (m * 2 ^ e) (FloatVal.fin false m e).roundHalfAway := by
  simp only [FloatVal.roundHalfAway, Bool.false_eq_true, if_false]
  split
  · rename_i he
    have hval : (m : ℚ) * 2 ^ e = (((m * 2 ^ e.toNat : Nat) : ℤ) : ℚ) := by
      push_cast
      rw [← zpow_natCast, Int.toNat_of_nonneg he]
    rw [hval]
    exact roundsHalfAway_self _
  · rename_i he
    have hval : (m : ℚ) * 2 ^ e = m / ((2 ^ (-e).toNat : Nat) : ℚ) := by
      push_cast
      rw [← zpow_natCast, Int.toNat_of_nonneg (by omega), zpow_neg, div_inv_eq_mul]
    rw [hval]
    exact roundsHalfAway_div m (Nat.two_pow_pos _)

/-- Settles O58: negative values round as their magnitudes do. -/
theorem rhaRoundsHalvesAway : Obligations.RhaRoundsHalvesAway := by
  intro a ha
  obtain ⟨neg, m, e, hva⟩ := FloatVal.isFinite_iff.1 ha
  change RoundsHalfAway (val64 a).toRat (val64 a).roundHalfAway
  rw [hva, FloatVal.toRat_fin]
  cases neg with
  | false => simpa using FloatVal.roundHalfAway_fin_false m e
  | true => simpa [FloatVal.roundHalfAway_fin_true] using (FloatVal.roundHalfAway_fin_false m e).neg

/-! ### exp64 (R24) -/

/-- A magnitude of binary64 fits below the sign bit. -/
theorem NearestMag.lt_two_pow_63 {x : ℝ} {mag : Nat} (h : NearestMag binary64 x mag) : mag < 2 ^ 63 := by
  have := h.le_inf
  rw [binary64_infBits] at this
  omega

theorem NearestMag.toNat_ofNat {x : ℝ} {mag : Nat} (h : NearestMag binary64 x mag) : (BitVec.ofNat 64 mag).toNat = mag := by
  have := h.lt_two_pow_63
  rw [BitVec.toNat_ofNat]
  omega

theorem two_pow_le_exp {n : Nat} {x : ℝ} (h : (n : ℝ) ≤ x) : (2 : ℝ) ^ n ≤ Real.exp x :=
  calc (2 : ℝ) ^ n ≤ Real.exp 1 ^ n := by
        gcongr
        linarith [Real.add_one_le_exp 1]
    _ = Real.exp n := by rw [← Real.exp_nat_mul, mul_one]
    _ ≤ Real.exp x := Real.exp_le_exp.2 h

/-- From the cutoff of exp64 on, the operand is at least 2048. -/
theorem le_of_log2_ge {mant : Nat} {exp : ℤ} (hm : mant ≠ 0) (h : 11 ≤ (mant.log2 : ℤ) + exp) :
    ((2048 : Nat) : ℝ) ≤ mant * 2 ^ exp :=
  calc ((2048 : Nat) : ℝ) = 2 ^ (11 : ℤ) := by norm_num
    _ ≤ 2 ^ ((mant.log2 : ℤ) + exp) := zpow_le_zpow_right₀ one_le_two h
    _ = ((2 ^ mant.log2 : Nat) : ℝ) * 2 ^ exp := by rw [zpow_add₀ two_ne_zero, zpow_natCast]; push_cast; rfl
    _ ≤ mant * 2 ^ exp := by
      gcongr
      exact Nat.log2_self_le hm

/-- From 2048 on, e^x overflows. -/
theorem nearestMag_exp_large {x : ℝ} (h : ((2048 : Nat) : ℝ) ≤ x) : NearestMag binary64 (Real.exp x) binary64.infBits := by
  refine nearestMag_infBits (le_trans ?_ (two_pow_le_exp h))
  have hq : binary64.overflowAt ≤ 2 ^ 1024 := by
    calc binary64.overflowAt = (2 ^ 54 - 1) * 2 ^ (970 : ℤ) := rfl
      _ ≤ 2 ^ 54 * 2 ^ (970 : ℤ) := by gcongr; norm_num
      _ = 2 ^ 1024 := by rw [zpow_ofNat, ← pow_add]
  calc (binary64.overflowAt : ℝ) ≤ 2 ^ 1024 := by exact_mod_cast hq
    _ ≤ 2 ^ 2048 := pow_le_pow_right₀ one_le_two (by norm_num)

/-- From -2048 on down, e^x rounds to zero. -/
theorem nearestMag_exp_small {x : ℝ} (h : ((2048 : Nat) : ℝ) ≤ x) : NearestMag binary64 (Real.exp (-x)) 0 := by
  refine nearestMag_zero_of_le binary64_wide (Real.exp_pos _).le ?_
  have hmin : binary64.minExp - 1 = -((1075 : Nat) : ℤ) := by decide
  rw [Real.exp_neg, hmin, zpow_neg, zpow_natCast]
  gcongr
  exact le_trans (pow_le_pow_right₀ one_le_two (by norm_num)) (two_pow_le_exp h)

theorem nearestMag_one : NearestMag binary64 1 one64.toNat := by
  have hround : binary64.roundMag 1 0 = one64.toNat := by decide
  simpa [hround] using roundMag_nearest binary64_wide 1 0

/-- The real value of a finite datum. -/
theorem FloatVal.toRat_fin_real (neg : Bool) (m : Nat) (e : ℤ) :
    ((FloatVal.fin neg m e).toRat : ℝ) = if neg then -((m : ℝ) * 2 ^ e) else m * 2 ^ e := by
  rw [FloatVal.toRat_fin]
  cases neg <;> simp

section
variable {src : MathSource} {v : DWord} {neg : Bool} {mant : Nat} {exp : ℤ}

theorem exp64_nan (h : val64 v = .nan) : exp64 src v = nan64 := by
  unfold exp64
  rw [h]

theorem exp64_inf (h : val64 v = .inf neg) : exp64 src v = if neg then zero64 else inf64 := by
  unfold exp64
  rw [h]

theorem exp64_zero (h : val64 v = .fin neg 0 exp) : exp64 src v = one64 := by
  unfold exp64
  rw [h]
  rfl

theorem exp64_cutoff (h : val64 v = .fin neg mant exp) (hm : mant ≠ 0) (hcut : 11 ≤ (mant.log2 : ℤ) + exp) :
    exp64 .correctlyRounded v = if neg then zero64 else inf64 := by
  unfold exp64
  rw [h]
  simp only [if_neg hm, if_pos hcut]

theorem exp64_search (h : val64 v = .fin neg mant exp) (hm : mant ≠ 0) (hcut : ¬11 ≤ (mant.log2 : ℤ) + exp) :
    exp64 .correctlyRounded v = BitVec.ofNat 64 (expNearest neg mant exp) := by
  unfold exp64
  rw [h]
  simp only [if_neg hm, if_neg hcut]

end

/-- What the search for e^v gives, for either sign. -/
theorem expNearest_spec (neg : Bool) {mant : Nat} (exp : ℤ) (hm : mant ≠ 0) :
    NearestMag binary64 (Real.exp ((FloatVal.fin neg mant exp).toRat : ℝ)) (expNearest neg mant exp) := by
  rw [FloatVal.toRat_fin_real]
  cases neg with
  | false => exact expNearest_pos exp hm
  | true => exact expNearest_neg exp hm

/-- The paths of exp64 for a finite operand: zero, overflow and underflow, and the search. -/
theorem exp64_nearest {v : DWord} (hv : isFinite64 v = true) :
    NearestMag binary64 (Real.exp ((val64 v).toRat : ℝ)) (exp64 .correctlyRounded v).toNat := by
  obtain ⟨neg, mant, exp, hval⟩ := FloatVal.isFinite_iff.1 hv
  by_cases hm : mant = 0
  · subst hm
    rw [exp64_zero hval, hval]
    simpa [FloatVal.toRat_fin] using nearestMag_one
  by_cases hcut : 11 ≤ (mant.log2 : ℤ) + exp
  · rw [exp64_cutoff hval hm hcut, hval, FloatVal.toRat_fin_real]
    cases neg with
    | false => exact nearestMag_exp_large (le_of_log2_ge hm hcut)
    | true => exact nearestMag_exp_small (le_of_log2_ge hm hcut)
  · have hnear := expNearest_spec neg exp hm
    rw [exp64_search hval hm hcut, hnear.toNat_ofNat, hval]
    exact hnear

theorem val64_nan64 : val64 nan64 = .nan := by decide

/-- Settles O59: the finite operands, then the special cases. -/
theorem expIsCorrectlyRounded : Obligations.ExpIsCorrectlyRounded := fun _ =>
  ⟨exp64_nearest, exp64_inf, exp64_inf, fun h => by rw [exp64_nan h, val64_nan64]⟩

/-! ### tan64 (R24) -/

/-- The magnitude bits of a zero are zero. -/
theorem FloatFormat.mod_signUnit_of_unpack_zero {f : FloatFormat} {bits : Nat} {neg : Bool} {e : ℤ}
    (h : f.unpack bits = .fin neg 0 e) : bits % f.signUnit = 0 := by
  unfold FloatFormat.unpack at h
  simp only [] at h
  split at h
  · split at h <;> cases h
  · split at h
    · rename_i hex
      injection h with _ hfrac _
      rw [f.mod_signUnit, hex, hfrac, mul_zero, add_zero]
    · injection h with _ hsig _
      have := f.expUnit_pos
      omega

theorem neg64_toNat_mod (w : DWord) : (neg64 w).toNat % 2 ^ 63 = w.toNat % 2 ^ 63 := by
  unfold neg64
  rw [BitVec.toNat_xor, Nat.xor_mod_two_pow]
  simp

theorem neg64_sign (w : DWord) : (neg64 w).getLsbD 63 = !w.getLsbD 63 := by
  simp [neg64]

/-- A magnitude with its sign, as tan64 puts them together. -/
def signedBits (sign : Bool) (mag : Nat) : DWord :=
  if sign then neg64 (BitVec.ofNat 64 mag) else BitVec.ofNat 64 mag

theorem signedBits_parts {x : ℝ} {mag : Nat} (h : NearestMag binary64 x mag) (sign : Bool) :
    (signedBits sign mag).toNat % 2 ^ 63 = mag ∧ (signedBits sign mag).getLsbD 63 = sign := by
  have hlt := h.lt_two_pow_63
  have hmag : (BitVec.ofNat 64 mag).toNat % 2 ^ 63 = mag := by rw [h.toNat_ofNat, Nat.mod_eq_of_lt hlt]
  have hsign : (BitVec.ofNat 64 mag).getLsbD 63 = false := by
    rw [BitVec.getLsbD, h.toNat_ofNat]
    exact Nat.testBit_lt_two_pow hlt
  cases sign with
  | false => exact ⟨hmag, hsign⟩
  | true =>
    simp only [signedBits, if_true, neg64_toNat_mod, neg64_sign, hsign]
    exact ⟨hmag, rfl⟩

theorem tan_ne_zero {mant : Nat} (exp : ℤ) (hm : mant ≠ 0) : Real.tan (mant * 2 ^ exp) ≠ 0 := by
  have h0 : (mant * 2 ^ exp : ℚ) ≠ 0 := mul_ne_zero (Nat.cast_ne_zero.2 hm) (zpow_ne_zero _ two_ne_zero)
  simpa using (irrational_tan_rat h0).ne_zero

/-- The tangent of an operand with its sign: the sign bits are added. -/
theorem NearestTan.signed {x : ℝ} {t : Bool × Nat} (h : NearestTan x t) (h0 : Real.tan x ≠ 0) (neg : Bool) :
    NearestTan (if neg then -x else x) (neg != t.1, t.2) := by
  obtain ⟨hmag, hsign⟩ := h
  cases neg with
  | false => exact ⟨hmag, by simpa using hsign⟩
  | true =>
    unfold NearestTan
    simp only [if_true, Real.tan_neg, abs_neg, Left.neg_neg_iff]
    refine ⟨hmag, ?_⟩
    have hpos : 0 < Real.tan x ↔ ¬Real.tan x < 0 := ⟨fun h => not_lt.2 h.le, fun h => lt_of_le_of_ne (not_lt.1 h) h0.symm⟩
    rw [hpos, ← hsign]
    simp

section
variable {src : MathSource} {v : DWord} {neg : Bool} {mant : Nat} {exp : ℤ}

theorem tan64_of_not_finite (h : isFinite64 v = false) : tan64 src v = nan64 := by
  unfold tan64
  unfold isFinite64 at h
  cases hval : val64 v with
  | nan => rfl
  | inf neg => rfl
  | fin neg mant exp =>
    rw [hval] at h
    cases h

theorem tan64_zero (h : val64 v = .fin neg 0 exp) : tan64 .correctlyRounded v = v := by
  unfold tan64
  rw [h]
  rfl

theorem tan64_search (h : val64 v = .fin neg mant exp) (hm : mant ≠ 0) :
    tan64 .correctlyRounded v = signedBits (neg != (tanNearest mant exp).1) (tanNearest mant exp).2 := by
  unfold tan64 signedBits
  rw [h]
  simp only [if_neg hm]

end

/-- The paths of tan64 for a finite operand: a zero, and the search. -/
theorem tan64_nearest {v : DWord} (hv : isFinite64 v = true) :
    NearestMag binary64 |Real.tan ((val64 v).toRat : ℝ)| ((tan64 .correctlyRounded v).toNat % 2 ^ 63) ∧
      ((val64 v).toRat ≠ 0 →
        ((tan64 .correctlyRounded v).getLsbD 63 = true ↔ Real.tan ((val64 v).toRat : ℝ) < 0)) := by
  obtain ⟨neg, mant, exp, hval⟩ := FloatVal.isFinite_iff.1 hv
  by_cases hm : mant = 0
  · subst hm
    have hbits : v.toNat % 2 ^ 63 = 0 := FloatFormat.mod_signUnit_of_unpack_zero hval
    have hzero : (val64 v).toRat = 0 := by simp [hval, FloatVal.toRat_fin]
    rw [tan64_zero hval, hbits, hzero]
    exact ⟨by simpa using nearestMag_zero binary64_wide, fun h => absurd rfl h⟩
  · obtain ⟨hmag, hsign⟩ := (tanNearest_spec exp hm).signed (tan_ne_zero exp hm) neg
    obtain ⟨hbits, htop⟩ := signedBits_parts hmag (neg != (tanNearest mant exp).1)
    rw [tan64_search hval hm, hbits, htop, hval, FloatVal.toRat_fin_real]
    exact ⟨hmag, fun _ => hsign⟩

/-- Settles O60: the finite operands, then the special cases. -/
theorem tanIsCorrectlyRounded : Obligations.TanIsCorrectlyRounded := fun _ =>
  ⟨tan64_nearest, fun h => by rw [tan64_of_not_finite h, val64_nan64]⟩

end Sys2Proof.Machine
end

section
/-! SUPPORT. Proofs of the statements about the block's state (spec/10_state.md R30 to R65): what its registers read as, what a write
stores, and what every step keeps. Everything a step can do is said once, in `step_effects` and `exec_effects`; the statements about all
steps are read off from there. -/

namespace Sys2Proof.Machine

/-! ### A decoded word is the word of its command (R121, R124) -/

/-- A word put together from its three fields. -/
theorem fields_append (w : Word) : rsvField w ++ fidxField w ++ opField w = w := by
  apply BitVec.eq_of_toNat_eq
  unfold rsvField fidxField opField
  simp only [BitVec.toNat_append, BitVec.extractLsb'_toNat, Nat.shiftRight_eq_div_pow, Nat.shiftLeft_eq]
  rw [Nat.mul_comm _ (2 ^ 8), Nat.mul_comm _ (2 ^ 8), ← Nat.two_pow_add_eq_or_of_lt (by omega),
    ← Nat.two_pow_add_eq_or_of_lt (by omega)]
  have := w.isLt
  omega

theorem plainCommand_eq_ok {fidx : BitVec 8} {i j : Instr} (h : plainCommand fidx i = .ok j) : fidx = 0 ∧ i = j := by
  unfold plainCommand at h
  split at h
  · rename_i hf
    exact ⟨hf, by injection h⟩
  · cases h

/-- The fields of a word that decodes are those of its command. -/
theorem decode_fields {w : Word} {i : Instr} (h : decode w = .ok i) :
    rsvField w = 0 ∧ fidxField w = indexOf i ∧ opField w = opcodeOf i := by
  unfold decode at h
  split at h
  · cases h
  split at h
  · cases h
  rename_i hrsv
  refine ⟨not_not.1 hrsv, ?_⟩
  split at h
  case h_4 hop | h_5 hop | h_6 hop =>
    injection h with h
    subst h
    exact ⟨rfl, BitVec.eq_of_toNat_eq hop⟩
  case h_9 => cases h
  all_goals
    rename_i hop
    obtain ⟨hfidx, rfl⟩ := plainCommand_eq_ok h
    exact ⟨hfidx, BitVec.eq_of_toNat_eq hop⟩

theorem eq_encode_of_decode {w : Word} {i : Instr} (h : decode w = .ok i) : w = encode i := by
  obtain ⟨hrsv, hfidx, hop⟩ := decode_fields h
  rw [← fields_append w, hrsv, hfidx, hop]
  rfl

/-- The word of a command, as a number: the opcode, and the index above it. -/
theorem encode_toNat (i : Instr) : (encode i).toNat = (opcodeOf i).toNat + 2 ^ 8 * (indexOf i).toNat := by
  unfold encode
  rw [BitVec.toNat_append, BitVec.toNat_append, Nat.shiftLeft_eq, Nat.shiftLeft_eq, Nat.mul_comm _ (2 ^ 8),
    ← Nat.two_pow_add_eq_or_of_lt (opcodeOf i).isLt]
  simp [Nat.add_comm]

/-- OP and FIDX of a command's word, by division. -/
theorem encode_fields (i : Instr) :
    (encode i).toNat / 2 ^ 8 = (indexOf i).toNat ∧ (encode i).toNat % 2 ^ 8 = (opcodeOf i).toNat := by
  have hop := (opcodeOf i).isLt
  rw [encode_toNat]
  omega

/-! ### Everything a step can do -/

/-- FLT_PROCESS on a configured filter (R232). -/
theorem processSample_of_configured (w : Word) {i : Nat} {s : State} (h : (s.filter i).configured = true) :
    processSample w i s =
      { s.setFilter i { s.filter i with z1 := s.regs.fIn, zout1 := filterOutput (s.filter i) s.regs.fIn } with
        fOut := filterOutput (s.filter i) s.regs.fIn } := by
  unfold processSample
  rw [if_neg (by simp [h])]

/-- A command records at most an error, or is a generation, a block, or a change of the filter it names. -/
theorem exec_effects {i : Instr} {s t : State} (h : exec i s = .next t) :
    (∃ e, t = { s with err := e }) ∨
    ((i = .generate ∨ i = .prepare) ∧ ∃ dur dens, validate s.params s.sampleRate dur dens s.regs.maxblk = none ∧
      t = buildTables s.sampleRate dur dens s) ∨
    (s.prepared = true ∧ s.regs.nsamp.toNat ≤ s.gen.actMaxblk.toNat ∧ t = s.convolveBlock s.regs.nsamp.toNat) ∨
    ∃ (f : BitVec 8) (g : Filter) (y : Word), (i = .fltSetcoef f ∨ i = .fltProcess f ∨ i = .fltReset f) ∧
      t = { s.setFilter f.toNat g with fOut := y } := by
  rcases exec_cases h with ⟨c, -, rfl⟩ | ⟨-, rfl⟩ | hgen | ⟨-, hblock⟩ | ⟨f, -, hfilter⟩
  · exact .inl ⟨_, rfl⟩
  · exact .inl ⟨_, rfl⟩
  · exact .inr (.inl hgen)
  · exact .inr (.inr (.inl hblock))
  · refine .inr (.inr (.inr ⟨f, ?_⟩))
    rcases hfilter with ⟨hi, rfl⟩ | ⟨hi, hconf, rfl⟩ | ⟨hi, rfl⟩
    · exact ⟨_, s.fOut, .inl hi, rfl⟩
    · exact ⟨_, _, .inr (.inl hi), processSample_of_configured _ hconf⟩
    · exact ⟨_, s.fOut, .inr (.inr hi), rfl⟩

/-- An access changes at most registers and the error record, or stores an entry of INBUF, or runs a command. -/
theorem performAccess_effects {a : Access} {s t : State} (h : performAccess a s = .next t) :
    (∃ regs err host, t = { s with regs := regs, err := err, host := host }) ∨
    (∃ i v, i < s.params.blockMax ∧ t = { s with mem := s.mem.writeWord (inbufAddr i) v }) ∨
    ∃ i, a = .write .word 0x004 (encode i) ∧ exec i s = .next t := by
  cases a with
  | read size off =>
    injection h with h
    subst h
    rcases busRead_cases size off s with hread | hread
    · rw [hread]
      exact .inl ⟨s.regs, s.err, _, rfl⟩
    · rw [hread]
      exact .inl ⟨s.regs, _, _, rfl⟩
  | write size off v =>
    rcases busWrite_cases h with rfl | ⟨r, rfl⟩ | ⟨i, hi, rfl⟩ | rfl | ⟨rfl, rfl, hcmd⟩
    · exact .inl ⟨s.regs, _, s.host, rfl⟩
    · exact .inl ⟨_, s.err, s.host, rfl⟩
    · exact .inr (.inl ⟨i, v, hi, rfl⟩)
    · exact .inl ⟨s.regs, _, s.host, rfl⟩
    · rcases hcmd with ⟨i, hi, hexec⟩ | ⟨-, rfl⟩
      · exact .inr (.inr ⟨i, by rw [eq_encode_of_decode hi], hexec⟩)
      · exact .inl ⟨s.regs, _, s.host, rfl⟩

/-- The same for a step, which moves the host on first (R62). -/
theorem step_effects {s t : State} (h : step s = .next t) :
    (∃ regs err host, t = { s with regs := regs, err := err, host := host }) ∨
    (∃ i v host, i < s.params.blockMax ∧ t = { s with mem := s.mem.writeWord (inbufAddr i) v, host := host }) ∨
    ∃ i rest, s.host.pending = .write .word 0x004 (encode i) :: rest ∧ exec i (moved s rest) = .next t := by
  rcases step_cases h with ⟨-, rfl⟩ | ⟨a, rest, hpending, haccess⟩
  · exact .inl ⟨t.regs, t.err, t.host, rfl⟩
  · rcases performAccess_effects haccess with ⟨regs, err, host, rfl⟩ | ⟨i, v, hi, rfl⟩ | ⟨i, rfl, hexec⟩
    · exact .inl ⟨regs, err, host, rfl⟩
    · exact .inr (.inl ⟨i, v, _, hi, rfl⟩)
    · exact .inr (.inr ⟨i, rest, hpending, hexec⟩)

/-! ### The windows that each effect leaves -/

/-- An accepted generation, as `exec_effects` gives it. -/
theorem buildTables_generated {sr dur dens : DWord} {s : State} (hp : s.params.Legal)
    (hv : validate s.params sr dur dens s.regs.maxblk = none) :
    Generated s (buildTables sr dur dens s) (seqLength sr dur) (gridSize sr dens) (decayRate (seqLength sr dur)) := by
  have hgen := runGeneration_accepted (w := 0) hp hv
  unfold runGeneration at hgen
  rwa [hv] at hgen

/-- A write to INBUF stays below the other windows. -/
theorem readWord_writeWord_inbuf {p : Params} (hp : p.Legal) {i : Nat} (hi : i < p.blockMax) (m : Memory) (v : Word) {a : Nat}
    (ha : 0x20000 ≤ a) : (m.writeWord (inbufAddr i) v).readWord a = m.readWord a := by
  obtain ⟨-, ⟨-, hblock⟩, -⟩ := hp
  exact Memory.readWord_writeWord_of_ne _ _ _ _ (by rw [inbufAddr_eq]; omega)

/-- A generation leaves INBUF. -/
theorem Generated.inbuf {s t : State} {L G : Nat} {decay : DWord} (h : Generated s t L G decay) {n : Nat} (hn : n < 0x4000) :
    t.inbuf n = s.inbuf n := by
  refine Memory.readWord_congr fun b h1 h2 => ?_
  rw [inbufAddr_eq] at h1 h2
  exact h.other b (by omega) (by omega) (by omega)

/-! ### The invariant (R65) -/

/-- Nothing is generated at reset, and no byte is listed. -/
theorem resetOf_inv {p : Params} (hp : p.Legal) : (State.resetOf p).Inv where
  legal := hp
  filters := List.length_replicate
  memory := Memory.wf_nil
  unprepared := fun _ => ⟨rfl, rfl, rfl, rfl, rfl, rfl⟩
  prepared := fun h => nomatch h

/-- Settles O52: the recommended parameters are legal ones. -/
theorem invariantAtReset : Obligations.InvariantAtReset :=
  ⟨fun _ => resetOf_inv, resetOf_inv (by decide)⟩

/-- An accepted generation establishes the invariant's relations afresh. -/
theorem State.Inv.buildTables {s : State} (h : s.Inv) {sr dur dens : DWord}
    (hv : validate s.params sr dur dens s.regs.maxblk = none) : (buildTables sr dur dens s).Inv := by
  have hgen := buildTables_generated h.legal hv
  obtain ⟨hmaxblk, hL, ⟨hG, -⟩, hP⟩ := validate_sizes h.legal hv
  obtain ⟨-, -, ⟨-, hring⟩, -⟩ := h.legal
  exact
    { legal := by rw [hgen.params]; exact h.legal
      filters := by rw [hgen.fb, hgen.params]; exact h.filters
      memory := hgen.mem_wf h.memory
      unprepared := fun hu => absurd (hu.symm.trans hgen.prepared) Bool.false_ne_true
      prepared := fun _ => hgen.valid hG hL hring hP hmaxblk }

theorem State.convolveBlock_wf {s : State} (h : s.mem.wf = true) (N : Nat) : (s.convolveBlock N).mem.wf = true := by
  rw [State.convolveBlock_mem]
  exact Memory.wf_writeWords _ (wf_writeInputs _ _ _ _ h) _

/-- A block moves the write pointer inside the ring and leaves the tables. -/
theorem State.Inv.convolveBlock_valid {s : State} (h : s.Inv) (hp : s.prepared = true) {N : Nat}
    (hN : N ≤ s.gen.actMaxblk.toNat) : TablesValid (s.convolveBlock N) := by
  have ht := h.prepared hp
  obtain ⟨hC, -, hP, hmaxblk, -⟩ := h.sizes hp
  have hpulse : ∀ k, k < s.gen.npulses.toNat → (s.convolveBlock N).pulse k = s.pulse k := fun k hk => by
    rw [State.pulse, State.pulseWord_convolveBlock s hC (by omega) (by omega)]
    rfl
  refine { ht with wptr_lt := ?_, pos_lt := fun k hk => ?_, pos_rising := fun k hk => ?_ }
  · rw [State.convolveBlock_gen, BitVec.toNat_ofNat]
    exact lt_of_le_of_lt (Nat.mod_le _ _) (Nat.mod_lt _ hC)
  · rw [hpulse k hk]
    exact ht.pos_lt k hk
  · rw [hpulse k (Nat.lt_of_succ_lt hk), hpulse (k + 1) hk]
    exact ht.pos_rising k hk

theorem State.Inv.convolveBlock {s : State} (h : s.Inv) (hp : s.prepared = true) {N : Nat}
    (hN : N ≤ s.gen.actMaxblk.toNat) : (s.convolveBlock N).Inv where
  legal := h.legal
  filters := h.filters
  memory := State.convolveBlock_wf h.memory N
  unprepared := fun hu => absurd (hu.symm.trans hp) Bool.false_ne_true
  prepared := fun _ => h.convolveBlock_valid hp hN

/-- The invariant does not speak of the operand registers, the error record and the host. -/
theorem State.Inv.setOther {s : State} (h : s.Inv) (regs : OperandRegs) (err : ErrorRecord) (host : HostAgent) :
    State.Inv { s with regs := regs, err := err, host := host } :=
  h.congr rfl rfl h.memory rfl rfl fun _ _ _ => rfl

theorem State.Inv.setFilter {s : State} (h : s.Inv) (i : Nat) (g : Filter) (y : Word) :
    State.Inv { s.setFilter i g with fOut := y } :=
  h.congr rfl List.length_set h.memory rfl rfl fun _ _ _ => rfl

/-- A write to INBUF leaves the pulse table. -/
theorem State.Inv.writeInbuf {s : State} (h : s.Inv) {i : Nat} (hi : i < s.params.blockMax) (v : Word) (host : HostAgent) :
    State.Inv { s with mem := s.mem.writeWord (inbufAddr i) v, host := host } := by
  refine h.congr rfl rfl (Memory.wf_writeWord h.memory _ _) rfl rfl fun k _ _ => ?_
  exact congrArg pulseOfWord (readWord_writeWord_inbuf h.legal hi _ _ (by rw [pulseAddr_eq]; omega))

theorem exec_keeps_inv {i : Instr} {s t : State} (h : s.Inv) (hexec : exec i s = .next t) : t.Inv := by
  rcases exec_effects hexec with ⟨e, rfl⟩ | ⟨-, dur, dens, hv, rfl⟩ | ⟨hp, hn, rfl⟩ | ⟨f, g, y, -, rfl⟩
  · exact h.setOther s.regs e s.host
  · exact h.buildTables hv
  · exact h.convolveBlock hp hn
  · exact h.setFilter f.toNat g y

/-- Settles O53: effect by effect. -/
theorem invariantKeptByStep : Obligations.InvariantKeptByStep := by
  intro s t h hstep
  rcases step_effects hstep with ⟨regs, err, host, rfl⟩ | ⟨i, v, host, hi, rfl⟩ | ⟨i, rest, -, hexec⟩
  · exact h.setOther regs err host
  · exact h.writeInbuf hi v host
  · exact exec_keeps_inv (h.setOther s.regs s.err (moved s rest).host) hexec

/-! ### What only some commands change -/

/-- GENERATE and PREPARE are one word each (R124). -/
theorem pending_generation {pending : List Access} {i : Instr} {rest : List Access} (hi : i = .generate ∨ i = .prepare)
    (h : pending = .write .word 0x004 (encode i) :: rest) :
    ∃ rest, pending = Access.write .word 0x004 0x00000001 :: rest ∨ pending = Access.write .word 0x004 0x00000006 :: rest := by
  rcases hi with rfl | rfl
  · exact ⟨rest, .inl h⟩
  · exact ⟨rest, .inr h⟩

/-- A command keeps the parameters, and PREPARED unless it is a generation, which sets it (R63). -/
theorem exec_params_prepared {i : Instr} {s t : State} (h : exec i s = .next t) :
    t.params = s.params ∧ (t.prepared = s.prepared ∨ ((i = .generate ∨ i = .prepare) ∧ t.prepared = true)) := by
  rcases exec_effects h with ⟨e, rfl⟩ | ⟨hi, dur, dens, -, rfl⟩ | ⟨-, -, rfl⟩ | ⟨f, g, y, -, rfl⟩
  · exact ⟨rfl, .inl rfl⟩
  · exact ⟨rfl, .inr ⟨hi, rfl⟩⟩
  · exact ⟨rfl, .inl rfl⟩
  · exact ⟨rfl, .inl rfl⟩

/-- Settles O47: no access but a command touches PREPARED, and of the commands only a generation. -/
theorem instanceFixedAndPreparedSticky : Obligations.InstanceFixedAndPreparedSticky := by
  intro s t hstep
  rcases step_effects hstep with ⟨regs, err, host, rfl⟩ | ⟨i, v, host, -, rfl⟩ | ⟨i, rest, hpending, hexec⟩
  · exact ⟨rfl, id, fun h0 h1 => absurd (h0.symm.trans h1) Bool.false_ne_true⟩
  · exact ⟨rfl, id, fun h0 h1 => absurd (h0.symm.trans h1) Bool.false_ne_true⟩
  · obtain ⟨hparams, hkept | ⟨hi, hset⟩⟩ := exec_params_prepared hexec
    · exact ⟨hparams, hkept.trans, fun h0 h1 => absurd (h0.symm.trans (hkept.symm.trans h1)) Bool.false_ne_true⟩
    · exact ⟨hparams, fun _ => hset, fun _ _ => pending_generation hi hpending⟩

/-- Settles O48: a generation writes its tables and the ring, a block the ring and OUTBUF. -/
theorem commandsKeepOperandsAndInput : Obligations.CommandsKeepOperandsAndInput := by
  intro i s t hinv hexec
  obtain ⟨-, ⟨-, hblock⟩, -⟩ := hinv.legal
  rcases exec_effects hexec with ⟨e, rfl⟩ | ⟨-, dur, dens, hv, rfl⟩ | ⟨hp, -, rfl⟩ | ⟨f, g, y, -, rfl⟩
  · exact ⟨rfl, fun _ _ => rfl⟩
  · have hgen := buildTables_generated hinv.legal hv
    exact ⟨hgen.regs, fun n hn => hgen.inbuf (by omega)⟩
  · obtain ⟨hC, -⟩ := hinv.sizes hp
    exact ⟨rfl, fun n hn => s.inbuf_convolveBlock hC (by omega)⟩
  · exact ⟨rfl, fun _ _ => rfl⟩

/-- What a state keeps of the generated tables: their counts and their entries (R39 to R41, R56, R57). -/
structure SameTables (s t : State) : Prop where
  npulses : t.gen.npulses = s.gen.npulses
  seqlen : t.gen.seqlen = s.gen.seqlen
  grid : t.gen.grid = s.gen.grid
  entries : ∀ k, k < s.params.pulseMax → t.pulseWord k = s.pulseWord k ∧ t.env k = s.env k

theorem SameTables.of_eq {s t : State} (hgen : t.gen = s.gen) (hmem : t.mem = s.mem) : SameTables s t where
  npulses := by rw [hgen]
  seqlen := by rw [hgen]
  grid := by rw [hgen]
  entries := fun k _ => ⟨congrArg (Memory.readWord · (pulseAddr k)) hmem, State.env_congr hmem k⟩

/-- Only a generation changes the tables. -/
theorem exec_sameTables {i : Instr} {s t : State} (hinv : s.Inv) (h : exec i s = .next t) :
    (i = .generate ∨ i = .prepare) ∨ SameTables s t := by
  rcases exec_effects h with ⟨e, rfl⟩ | ⟨hi, -⟩ | ⟨hp, hn, rfl⟩ | ⟨f, g, y, -, rfl⟩
  · exact .inr (.of_eq rfl rfl)
  · exact .inl hi
  · obtain ⟨hC, -, -, hmaxblk, -⟩ := hinv.sizes hp
    obtain ⟨-, -, -, ⟨-, hpulseMax⟩, -⟩ := hinv.legal
    exact .inr ⟨rfl, rfl, rfl, fun k hk =>
      ⟨s.pulseWord_convolveBlock hC (by omega) (by omega), s.env_convolveBlock hC (by omega) (by omega)⟩⟩
  · exact .inr (.of_eq rfl rfl)

/-- The same for a step: the other accesses write at most INBUF. -/
theorem step_sameTables {s t : State} (hinv : s.Inv) (h : step s = .next t) :
    (∃ i rest, (i = .generate ∨ i = .prepare) ∧ s.host.pending = .write .word 0x004 (encode i) :: rest) ∨ SameTables s t := by
  rcases step_effects h with ⟨regs, err, host, rfl⟩ | ⟨i, v, host, hi, rfl⟩ | ⟨i, rest, hpending, hexec⟩
  · exact .inr (.of_eq rfl rfl)
  · refine .inr ⟨rfl, rfl, rfl, fun k _ => ⟨?_, ?_⟩⟩
    · exact readWord_writeWord_inbuf hinv.legal hi _ _ (by rw [pulseAddr_eq]; omega)
    · exact readWord_writeWord_inbuf hinv.legal hi _ _ (by rw [envAddr_eq]; omega)
  · rcases exec_sameTables (hinv.setOther s.regs s.err (moved s rest).host) hexec with hi | hsame
    · exact .inl ⟨i, rest, hi, hpending⟩
    · exact .inr ⟨hsame.npulses, hsame.seqlen, hsame.grid, hsame.entries⟩

/-- Settles O49: a step that issues no generation keeps the tables. -/
theorem tablesChangeOnlyByGeneration : Obligations.TablesChangeOnlyByGeneration := by
  intro s t hinv hstep
  rcases step_sameTables hinv hstep with ⟨i, rest, hi, hpending⟩ | hsame
  · exact .inl (pending_generation hi hpending)
  · exact .inr ⟨hsame.npulses, hsame.seqlen, hsame.grid, hsame.entries⟩

/-- A command that changes a filter is a filter command that names it. -/
theorem exec_changed_filter {i : Instr} {s t : State} (h : exec i s = .next t) {j : Nat} (hne : t.filter j ≠ s.filter j) :
    ∃ f : BitVec 8, f.toNat = j ∧ (i = .fltSetcoef f ∨ i = .fltProcess f ∨ i = .fltReset f) := by
  rcases exec_effects h with ⟨e, rfl⟩ | ⟨-, dur, dens, -, rfl⟩ | ⟨-, -, rfl⟩ | ⟨f, g, y, hi, rfl⟩
  · exact absurd rfl hne
  · exact absurd rfl hne
  · exact absurd rfl hne
  · refine ⟨f, ?_, hi⟩
    by_contra hfj
    exact hne (s.filter_setFilter_of_ne f.toNat j g (Ne.symm hfj))

/-- The word of a filter command: FIDX above one of three opcodes (R124). -/
theorem encode_filter_fields {i : Instr} {f : BitVec 8} (hi : i = .fltSetcoef f ∨ i = .fltProcess f ∨ i = .fltReset f) :
    (encode i).toNat / 2 ^ 8 = f.toNat ∧
      ((encode i).toNat % 2 ^ 8 = 3 ∨ (encode i).toNat % 2 ^ 8 = 4 ∨ (encode i).toNat % 2 ^ 8 = 5) := by
  obtain ⟨hindex, hopcode⟩ := encode_fields i
  rw [hindex, hopcode]
  rcases hi with rfl | rfl | rfl
  · exact ⟨rfl, .inl rfl⟩
  · exact ⟨rfl, .inr (.inl rfl)⟩
  · exact ⟨rfl, .inr (.inr rfl)⟩

/-- Settles O50: the pending word is the word of the filter command that ran. -/
theorem filterBankChangesOnlyByFilterCommands : Obligations.FilterBankChangesOnlyByFilterCommands := by
  intro s t hstep j hne
  rcases step_effects hstep with ⟨regs, err, host, rfl⟩ | ⟨i, v, host, -, rfl⟩ | ⟨i, rest, hpending, hexec⟩
  · exact absurd rfl hne
  · exact absurd rfl hne
  · obtain ⟨f, rfl, hi⟩ := exec_changed_filter hexec hne
    exact ⟨rest, encode i, hpending, encode_filter_fields hi⟩

/-! ### Reads of the register page (R83, R85) -/

/-- A word read of a register, by the name it has on the register page. -/
theorem busRead_register (s : State) (r : RegName) : busRead .word (registerOffset r) s = (s.readTarget r.target, s) := by
  unfold busRead
  rw [registerOffset_target]

/-- STATUS as a number: PREPARED in bit 0, the error bits in 13:8 (R35). -/
theorem State.statusWord_toNat (s : State) : s.statusWord.toNat = s.prepared.toNat + 2 ^ 8 * s.err.bits.toNat := by
  have hb := s.err.bits.isLt
  unfold State.statusWord
  simp only [BitVec.toNat_append, Nat.shiftLeft_eq, BitVec.toNat_ofBool]
  have hp : s.prepared.toNat < 2 ^ 1 := by cases s.prepared <;> decide
  rw [Nat.mul_comm _ (2 ^ 1), ← Nat.two_pow_add_eq_or_of_lt hp]
  simp
  omega

/-- Settles O8: the register page entry by entry, then STATUS. -/
theorem registerPageReads : Obligations.RegisterPageReads := by
  intro s
  have read := busRead_register s
  have lo : s.gen.decay.extractLsb' 0 32 = s.gen.decay.truncate 32 := by ext; simp
  have hi : s.gen.decay.extractLsb' 32 32 = (s.gen.decay >>> 32).truncate 32 := by ext; simp
  refine ⟨read (.readOnly .id), read .cmd, read (.readOnly .errcode), read (.readOnly .errinfo),
    read (.operand .srLo), read (.operand .srHi), read (.operand .durLo), read (.operand .durHi),
    read (.operand .densLo), read (.operand .densHi), read (.operand .seed), read (.operand .maxblk),
    read (.operand .nsamp), read (.operand .gain), read (.operand .fGlow), read (.operand .fGhigh),
    read (.operand .fFc), read (.operand .fSr), read (.operand .fIn), read (.readOnly .fOut),
    read (.readOnly .seqlen), read (.readOnly .grid), read (.readOnly .npulses), read (.readOnly .ringcap),
    read (.readOnly .wptr), read (.readOnly .normgain), ?_, ?_, read (.readOnly .lcgstate), read (.readOnly .actMaxblk),
    read (.readOnly .capNfilt), read (.readOnly .capBlockMax), read (.readOnly .capRingMax), read (.readOnly .capPulseMax),
    congrArg Prod.snd (read .status), ?_⟩
  · rw [← lo]
    exact read (.readOnly .decayLo)
  · rw [← hi]
    exact read (.readOnly .decayHi)
  · rw [show (0x008 : Offset) = registerOffset .status from rfl, read .status]
    exact s.statusWord_toNat

/-! ### Writes (R31, R35, R60) -/

/-- A word write to a mapped offset is the write of what stands there. -/
theorem busWrite_target {s : State} {off : Offset} {tgt : Target} (h : targetAt s.params off = some tgt) (v : Word) :
    busWrite .word off v s = writeTarget tgt off v s := by
  unfold busWrite
  rw [h]

/-- Settles O13: an operand register and its offset, then the rule of reads after a write. -/
theorem operandWriteReadsBack : Obligations.OperandWriteReadsBack := by
  intro s r v
  have read : ∀ q, busRead .word (operandOffset q) { s with regs := s.regs.set r v } =
      (if q = r then v else s.regs.get q, { s with regs := s.regs.set r v }) := fun q => by
    rw [← OperandRegs.get_set]
    exact busRead_register _ (.operand q)
  exact ⟨{ s with regs := s.regs.set r v }, busWrite_target (registerOffset_target s.params (.operand r)) v,
    by rw [read r, if_pos rfl], fun q hq => by rw [read q, if_neg hq], rfl⟩

theorem Memory.readByte_writeWord (m : Memory) (a : Nat) (w : Word) {k : Nat} (hk : k < 4) :
    (m.writeWord a w).readByte (a + k) = byteLane w k := by
  unfold Memory.writeWord
  simp only [Memory.readByte_writeByte]
  interval_cases k <;> simp

theorem byteLane_eq_truncate (w : Word) (k : Nat) : byteLane w k = (w >>> (8 * k)).truncate 8 := by
  unfold byteLane
  ext
  simp

/-- Settles O14: the rules of a stored word. -/
theorem inbufWriteReadsBack : Obligations.InbufWriteReadsBack := by
  intro s i v hp hi
  refine ⟨{ s with mem := s.mem.writeWord (inbufAddr i) v }, busWrite_target (targetAt_inbuf hp hi) v,
    Memory.readWord_writeWord _ _ _, fun k hk => ?_, fun a ha => Memory.readByte_writeWord_of_ne _ _ _ _ ha, rfl⟩
  rw [← byteLane_eq_truncate]
  exact Memory.readByte_writeWord _ _ _ hk

/-- Settles O15: a STATUS write is the acknowledgement. -/
theorem statusWriteClearsErrorBits : Obligations.StatusWriteClearsErrorBits := by
  intro s v
  refine ⟨s.clearErrors v, busWrite_target (registerOffset_target s.params .status) v, fun c hc => ?_, rfl⟩
  simp [hc]

end Sys2Proof.Machine
end

section
/-! SUPPORT. Proofs of the statements about the bus (spec/20_memory.md R80 to R95): which offset a bus address has, which offsets
reach nothing, what a mapped word read returns, and what a refused access records. -/

namespace Sys2Proof.Machine

/-! ### Bus addresses (R80) -/

/-- Settles O16: inside the block's window subtracting BASE and adding it undo each other; outside it no sum lies. -/
theorem busAddressMapsToOffset : Obligations.BusAddressMapsToOffset := by
  intro p off addr
  have hoff := off.isLt
  unfold offsetOfAddress busAddress
  split
  · next hin =>
    rw [Option.some_inj, ← BitVec.toNat_inj, ofNat_offset (by omega)]
    omega
  · next hout =>
    simp only [reduceCtorEq, false_iff]
    omega

/-! ### Unmapped offsets (R82, R83, R89, R95) -/

theorem lookup_registerPage_eq_none {off : Nat} :
    registerPage.lookup off = none ↔ off ∉ registerPage.map Prod.fst := by
  simp only [List.lookup_eq_none_iff, bne_iff_ne, List.mem_map, not_exists, not_and]
  exact forall₂_congr fun _ _ => ne_comm

/-- FBANK reaches nothing outside the bank, and in it at the two unused words of a filter (R82). -/
theorem fbankTarget_eq_none_iff {nfilt off : Nat} :
    fbankTarget nfilt off = none ↔ ¬(0x08000 ≤ off ∧ off < 0x08000 + 32 * nfilt ∧ off / 4 % 8 ≤ 5) := by
  unfold fbankTarget
  split
  · next w hw =>
    obtain ⟨hlo, hhi, hindex⟩ := windowIndex_eq_some.1 hw
    rw [ite_eq_right_iff]
    simp only [reduceCtorEq, imp_false]
    omega
  · next hw =>
    have hout := windowIndex_eq_none.1 hw
    simp only [true_iff]
    omega

/-- A window of words reaches nothing exactly outside it, whatever stands at its entries. -/
theorem map_windowIndex_eq_none {start size off : Nat} {f : Nat → Target} :
    (windowIndex start size off).map f = none ↔ ¬(start ≤ off ∧ off < start + 4 * size) := by
  rw [Option.map_eq_none_iff, windowIndex_eq_none]
  omega

theorem windowTarget_eq_none {p : Params} {off : Nat} :
    windowTarget p off = none ↔
      ¬(0x08000 ≤ off ∧ off < 0x08000 + 32 * p.nfilt ∧ off / 4 % 8 ≤ 5) ∧
      ¬(0x10000 ≤ off ∧ off < 0x10000 + 4 * p.blockMax) ∧
      ¬(0x20000 ≤ off ∧ off < 0x20000 + 4 * p.blockMax) ∧
      ¬(0x30000 ≤ off ∧ off < 0x30000 + 4 * p.pulseMax) ∧
      ¬(0x40000 ≤ off ∧ off < 0x40000 + 4 * p.pulseMax) ∧
      ¬(0x80000 ≤ off ∧ off < 0x80000 + 4 * p.ringMax) := by
  rw [windowTarget, Option.or_eq_none_iff, Option.or_eq_none_iff, Option.or_eq_none_iff, Option.or_eq_none_iff,
    Option.or_eq_none_iff, fbankTarget_eq_none_iff, map_windowIndex_eq_none, map_windowIndex_eq_none,
    map_windowIndex_eq_none, map_windowIndex_eq_none, map_windowIndex_eq_none]

theorem targetAt_eq_none {p : Params} {off : Offset} :
    targetAt p off = none ↔
      off.toNat % 4 ≠ 0 ∨ (off.toNat ∉ registerPage.map Prod.fst ∧ windowTarget p off.toNat = none) := by
  unfold targetAt
  split
  · next hmisaligned => exact iff_of_true rfl (.inl hmisaligned)
  · next haligned => rw [Option.or_eq_none_iff, lookup_registerPage_eq_none, or_iff_right haligned]

/-- Settles O10: misaligned, or neither on the register page nor in a window. -/
theorem unmappedOffsetsExactly : Obligations.UnmappedOffsetsExactly := by
  intro p off
  rw [targetAt_eq_none, windowTarget_eq_none]
  rfl

/-! ### Mapped reads (R85, R91, R94) -/

/-- A word read of a mapped offset returns what stands there and leaves the state. -/
theorem busRead_target {s : State} {off : Offset} {tgt : Target} (h : targetAt s.params off = some tgt) :
    busRead .word off s = (s.readTarget tgt, s) := by
  unfold busRead
  rw [h]

/-- No location shows the host's own progress. -/
theorem readTarget_moved (s : State) (rest : List Access) (tgt : Target) :
    (moved s rest).readTarget tgt = s.readTarget tgt := rfl

/-- Settles O7: the pending read is carried out on the moved state, which reads as before. -/
theorem mappedReadHasNoSideEffect : Obligations.MappedReadHasNoSideEffect := by
  intro s off rest tgt hpending htarget
  have hread : busRead .word off (moved s rest) = (s.readTarget tgt, moved s rest) := by
    rw [busRead_target (s := moved s rest) htarget, readTarget_moved]
  calc step s = performAccess (.read .word off) (moved s rest) := step_of_pending hpending
    _ = .next ((moved s rest).logRead (s.readTarget tgt)) := by rw [performAccess, hread]

/-- The six mapped words of a filter, numbered in the order of R130. -/
theorem busRead_fbank {s : State} (hp : s.params.Legal) {i j : Nat} (hi : i < s.params.nfilt) (hj : j ≤ 5) :
    busRead .word (BitVec.ofNat 20 (0x08000 + 32 * i + 4 * j)) s = (s.fbankWord i j, s) :=
  busRead_target (targetAt_fbank hp hi hj)

/-- Settles O9: each window's entries reach their targets, and a mapped read returns what stands there. -/
theorem windowReads : Obligations.WindowReads := by
  intro s hp
  refine ⟨fun i hi => ?_, fun i hi => busRead_target (targetAt_inbuf hp hi),
    fun i hi => busRead_target (targetAt_outbuf hp hi), fun k hk => busRead_target (targetAt_pulse hp hk),
    fun k hk => busRead_target (targetAt_env hp hk), fun i hi => busRead_target (targetAt_ring hp hi)⟩
  have field {j : Nat} (hj : j ≤ 5) := busRead_fbank hp hi hj
  exact ⟨field (j := 0) (by decide), field (j := 1) (by decide), field (j := 2) (by decide), field (j := 3) (by decide),
    field (j := 4) (by decide), field (j := 5) (by decide)⟩

/-! ### Bus errors (R85, R93, R291) -/

/-- What E_BUS leaves: bit 13 of STATUS set, ERRCODE = 6 and ERRINFO = the offset. -/
theorem State.busError_eq (s : State) (off : Offset) :
    s.busError off = { s with err := { bits := s.err.bits ||| 32, code := 6, info := off.zeroExtend 32 } } := rfl

/-- A read that is no word read of a mapped offset. -/
theorem busRead_of_bad {s : State} {size : AccessSize} {off : Offset}
    (h : size ≠ .word ∨ targetAt s.params off = none) : busRead size off s = (0, s.busError off) := by
  unfold busRead
  split
  · next htarget => simp [htarget] at h
  · rfl

/-- A write that is no word write to a mapped offset. -/
theorem busWrite_of_bad {s : State} {size : AccessSize} {off : Offset}
    (h : size ≠ .word ∨ targetAt s.params off = none) (v : Word) : busWrite size off v s = .next (s.busError off) := by
  unfold busWrite
  split
  · next htarget => simp [htarget] at h
  · rfl

/-- Settles O11: both kinds of access end in the bus error. -/
theorem badAccessRecordsBusError : Obligations.BadAccessRecordsBusError := by
  intro s size off v h
  rw [← State.busError_eq]
  exact ⟨busRead_of_bad h, busWrite_of_bad h v⟩

/-- What takes a write is CMD, STATUS, an operand register or an INBUF entry; anything else refuses it (R93). -/
theorem writeTarget_readOnly {tgt : Target} (hcmd : tgt ≠ .cmd) (hstatus : tgt ≠ .status)
    (hoperand : ∀ r, tgt ≠ .operand r) (hinbuf : ∀ i, tgt ≠ .inbuf i) (off : Offset) (v : Word) (s : State) :
    writeTarget tgt off v s = .next (s.busError off) := by
  cases tgt with
  | cmd => exact absurd rfl hcmd
  | status => exact absurd rfl hstatus
  | operand r => exact absurd rfl (hoperand r)
  | inbuf i => exact absurd rfl (hinbuf i)
  | readOnly _ | fbank _ _ | outbuf _ | pulse _ | env _ | ring _ => rfl

/-- Settles O12: the write reaches a location that refuses it. -/
theorem readOnlyWriteIsBusError : Obligations.ReadOnlyWriteIsBusError := by
  intro s off v tgt htarget hcmd hstatus hoperand hinbuf
  rw [busWrite_target htarget, writeTarget_readOnly hcmd hstatus hoperand hinbuf, State.busError_eq]

end Sys2Proof.Machine
end

section
/-! SUPPORT. Proofs of the statements about the command words (spec/30_encoding.md R120 to R131): the decoder inverts the encoder, and
rejects exactly the words outside the opcode map. That a decoded word is the word of its command is `eq_encode_of_decode`. -/

namespace Sys2Proof.Machine

/-! ### The fields of a word, and the decoder over them (R121, R131) -/

/-- OP by division. -/
theorem opField_toNat (w : Word) : (opField w).toNat = w.toNat % 2 ^ 8 := by
  simp [opField]

/-- FIDX by division. -/
theorem fidxField_toNat (w : Word) : (fidxField w).toNat = w.toNat / 2 ^ 8 % 2 ^ 8 := by
  simp [fidxField, Nat.shiftRight_eq_div_pow]

/-- RSV by division; nothing stands above it. -/
theorem rsvField_toNat (w : Word) : (rsvField w).toNat = w.toNat / 2 ^ 16 := by
  have := w.isLt
  simp only [rsvField, BitVec.extractLsb'_toNat, Nat.shiftRight_eq_div_pow]
  omega

/-- Every command's word has its three fields, whichever command it is. -/
theorem encodingFields (i : Instr) : Laws.EncodingFields.Statement i := by
  cases i with
  | nop => exact Laws.EncodingFields.nop
  | generate => exact Laws.EncodingFields.generate
  | convolve => exact Laws.EncodingFields.convolve
  | fltSetcoef fidx => exact Laws.EncodingFields.fltSetcoef fidx
  | fltProcess fidx => exact Laws.EncodingFields.fltProcess fidx
  | fltReset fidx => exact Laws.EncodingFields.fltReset fidx
  | prepare => exact Laws.EncodingFields.prepare
  | erReset => exact Laws.EncodingFields.erReset

/-- A word with RSV = 0 and a command's index and opcode decodes to that command. -/
theorem decode_of_fields {w : Word} {i : Instr} (hrsv : rsvField w = 0) (hfidx : fidxField w = indexOf i)
    (hop : opField w = opcodeOf i) : decode w = .ok i := by
  unfold decode
  rw [hrsv, hfidx, hop]
  cases i <;> rfl

/-- Encoding and then decoding gives the command back. -/
theorem decode_encode (i : Instr) : decode (encode i) = .ok i := by
  obtain ⟨hop, hfidx, hrsv, -⟩ := encodingFields i
  exact decode_of_fields hrsv hfidx hop

/-- Settles O1: the decoder and the encoder are inverse to each other. -/
theorem decodeEncodeAgree : Obligations.DecodeEncodeAgree := by
  intro w i
  constructor
  · exact eq_encode_of_decode
  · rintro rfl
    exact decode_encode i

/-! ### The illegal words (R126) -/

/-- Outside the filter class the decoder rejects exactly the words with an index. -/
theorem plainCommand_error_iff (fidx : BitVec 8) (i : Instr) :
    (∃ e, plainCommand fidx i = .error e) ↔ fidx ≠ 0 := by
  unfold plainCommand
  split <;> simp_all

/-- R126 over the fields: the two checks of R131, then the index check of the commands that are no filter commands. -/
theorem decode_error_iff (w : Word) :
    (∃ e, decode w = .error e) ↔
      8 ≤ (opField w).toNat ∨ rsvField w ≠ 0 ∨
        (fidxField w ≠ 0 ∧ (opField w).toNat ≠ 3 ∧ (opField w).toNat ≠ 4 ∧ (opField w).toNat ≠ 5) := by
  unfold decode
  split
  case isTrue hop => exact ⟨fun _ => .inl hop, fun _ => ⟨_, rfl⟩⟩
  case isFalse hop =>
    split
    case isTrue hrsv => exact ⟨fun _ => .inr (.inl hrsv), fun _ => ⟨_, rfl⟩⟩
    case isFalse hrsv =>
      rw [or_iff_right hop, or_iff_right hrsv]
      split
      case h_4 hop | h_5 hop | h_6 hop => simp [hop]
      -- no opcode below 8 is left for the default branch
      case h_9 => grind
      all_goals
        rename_i hop
        simp [plainCommand_error_iff, hop]

/-- Settles O2: the fields of R126 read off the word by division. -/
theorem illegalWordsExactly : Obligations.IllegalWordsExactly := by
  intro w
  have hrsv : rsvField w ≠ 0 ↔ w.toNat / 2 ^ 16 ≠ 0 := by rw [← rsvField_toNat, ne_eq, BitVec.toNat_eq]; rfl
  have hfidx : fidxField w ≠ 0 ↔ w.toNat / 2 ^ 8 % 2 ^ 8 ≠ 0 := by rw [← fidxField_toNat, ne_eq, BitVec.toNat_eq]; rfl
  rw [decode_error_iff, hrsv, hfidx, opField_toNat]

/-! ### The opcode map (R124) -/

/-- Settles O3: each word is its command's encoding. -/
theorem opcodeMapWordsDecode : Obligations.OpcodeMapWordsDecode :=
  ⟨decode_encode .nop, decode_encode .generate, decode_encode .convolve, decode_encode (.fltSetcoef 1),
    decode_encode (.fltProcess 7), decode_encode (.fltReset 16), decode_encode .prepare, decode_encode .erReset⟩

end Sys2Proof.Machine
end

section
/-! SUPPORT. Proofs of the statements about the generator (spec/40_generator.md R160 to R183). What an accepted generation leaves is
`Generated`; the statements about its pulses are read off from there, pulse by pulse. -/

namespace Sys2Proof.Machine

/-! ### The command (R163, R164, R260) -/

/-- The duration and the density a generation command works with (R163, R260). -/
def TakesOperands (s : State) (i : Instr) (dur dens : DWord) : Prop :=
  i = .generate ∧ dur = s.duration ∧ dens = s.density ∨ i = .prepare ∧ dur = policyDuration ∧ dens = policyDensity

theorem exec_of_takesOperands {s : State} {i : Instr} {dur dens : DWord} (h : TakesOperands s i dur dens) :
    exec i s = .next (runGeneration (encode i) s.sampleRate dur dens s) := by
  rcases h with ⟨rfl, rfl, rfl⟩ | ⟨rfl, rfl, rfl⟩ <;> rfl

theorem runGeneration_of_none {w : Word} {sr dur dens : DWord} {s : State}
    (h : validate s.params sr dur dens s.regs.maxblk = none) :
    runGeneration w sr dur dens s = buildTables sr dur dens s := by
  unfold runGeneration
  rw [h]

theorem runGeneration_of_some {w : Word} {sr dur dens : DWord} {s : State} {sub : BitVec 8}
    (h : validate s.params sr dur dens s.regs.maxblk = some sub) :
    runGeneration w sr dur dens s = s.raise (.config sub) w := by
  unfold runGeneration
  rw [h]

theorem positiveFinite_iff {v : DWord} : positiveFinite v = true ↔ isFinite64 v = true ∧ gt64 v 0 = true :=
  Bool.and_eq_true_iff

/-- E_CONFIG: STATUS bit 9, and CODE = 2 below the sub-cause (R281, R285). -/
theorem State.raise_config (s : State) (sub : BitVec 8) (w : Word) :
    s.raise (.config sub) w =
      { s with err := { bits := s.err.bits ||| 2, code := sub ++ (2 : BitVec 8), info := w } } := rfl

/-- Settles O31: the checks before the failing one are passed, in the order of R164. -/
theorem generationRefused : Obligations.GenerationRefused := by
  intro s i dur dens hi sr Lr Gr c1 c2 c3 c4 c5 c6 c7 n hn
  have hvalidate : validate s.params s.sampleRate dur dens s.regs.maxblk = some n := by
    unfold validate
    simp only [positiveFinite_iff]
    rcases hn with ⟨rfl, h1⟩ | ⟨rfl, h1, h2⟩ | ⟨rfl, h1, h2, h3⟩ | ⟨rfl, h1, h2, h3, h4⟩ | ⟨rfl, h1, h2, h3, h4, h5⟩ |
      ⟨rfl, h1, h2, h3, h4, h5, h6⟩ | ⟨rfl, h1, h2, h3, h4, h5, h6, h7⟩
    · exact if_pos h1
    all_goals refine (if_neg (not_not.2 h1)).trans ?_
    · exact if_pos h2
    all_goals refine (if_neg (not_not.2 h2)).trans ?_
    · exact if_pos h3
    all_goals refine (if_neg (not_not.2 h3)).trans ?_
    · exact if_pos h4
    all_goals refine (if_neg (not_not.2 h4)).trans ?_
    · exact if_pos h5
    all_goals refine (if_neg (not_not.2 h5)).trans ?_
    · exact if_pos h6
    · exact (if_neg (not_not.2 h6)).trans (if_pos h7)
  rw [exec_of_takesOperands hi, runGeneration_of_some hvalidate, State.raise_config]

/-! ### What an accepted generation commits (R173) -/

/-- Two functions that agree below n list the same. -/
theorem map_range_congr {α : Type} {f g : Nat → α} {n : Nat} (h : ∀ k, k < n → f k = g k) :
    (List.range n).map f = (List.range n).map g :=
  List.map_congr_left fun k hk => h k (List.mem_range.1 hk)

/-- Settles O30: `Generated` with the pulse list of R168 in place of its cells. -/
theorem generationResult : Obligations.GenerationResult := by
  intro s i dur dens hp hi hvalidate sr L G placed decay env sum norm
  have h : Generated s (buildTables sr dur dens s) L G decay := buildTables_generated hp hvalidate
  obtain ⟨-, -, ⟨hG, -⟩, -⟩ := validate_sizes hp hvalidate
  have hplaced : placed = ((List.range (L / G)).map (cellPulse G 0 s.regs.seed), lcgIter (2 * (L / G)) s.regs.seed) :=
    placed_eq L hG s.regs.seed
  have hpulses : placed.1 = (List.range (L / G)).map (cellPulse G 0 s.regs.seed) := by rw [hplaced]
  have hlen : placed.1.length = L / G := by rw [hpulses, List.length_map, List.length_range]
  have hnorm : norm = normGain (envelopes s.params.exp64 decay ((List.range (L / G)).map (cellPulse G 0 s.regs.seed))) := by
    rw [← hpulses]
    rfl
  refine ⟨buildTables sr dur dens s, ?_, h.seqlen, h.grid, h.npulses.trans hlen.symm, h.ringcap, h.wptr,
    h.normgain.trans hnorm.symm, h.decay_eq, ?_, h.maxblk, h.prepared, ?_, ?_, ?_, h.ring, ?_, h.params, h.regs, h.err,
    h.fOut, h.fb, h.host⟩
  case refine_1 => rw [exec_of_takesOperands hi]; exact congrArg _ (runGeneration_of_none hvalidate)
  case refine_2 => rw [h.lcgstate, hplaced]
  case refine_3 =>
    rw [hlen, hpulses, List.map_map]
    exact map_range_congr fun k hk => by rw [h.pulseWord k hk, pulseToWord_toNat]; rfl
  case refine_4 =>
    rw [hlen, hpulses]
    exact map_range_congr h.pulse
  case refine_5 =>
    show _ = placed.1.map _
    rw [hlen, hpulses, List.map_map]
    exact map_range_congr h.env
  case refine_6 =>
    rw [hlen]
    exact h.other

/-! ### The pulses (R175 to R178, R183) -/

/-- What an accepted command leaves: its tables are those of its sizes, within the bounds of R164. -/
theorem exec_generated {s t : State} {i : Instr} (hp : s.params.Legal) (ha : GenerationAccepted s i)
    (hexec : exec i s = .next t) :
    ∃ L G decay, 1 ≤ G ∧ L ≤ 2 ^ 31 ∧ TablesValid t ∧ Generated s t L G decay := by
  obtain ⟨dur, dens, hvalidate, hrun, -⟩ := exec_accepted ha
  rw [hexec, runGeneration_of_none hvalidate] at hrun
  injection hrun with ht
  subst ht
  have h := buildTables_generated hp hvalidate
  obtain ⟨hmaxblk, hL, ⟨hG, -⟩, hP⟩ := validate_sizes hp hvalidate
  obtain ⟨-, -, ⟨-, hring⟩, -⟩ := hp
  exact ⟨_, _, _, hG, by omega, h.valid hG hL hring hP hmaxblk, h⟩

/-- The position of pulse m: the start of its cell, and the jitter of draw 2m + 1 (R162). -/
theorem Generated.pulse_pos {s t : State} {L G : Nat} {decay : DWord} (h : Generated s t L G decay) (hG : 1 ≤ G)
    (hL : L ≤ 2 ^ 31) {m : Nat} (hm : m < t.gen.npulses.toNat) :
    (t.pulse m).pos.toNat = m * t.gen.grid.toNat + (lcgIter (2 * m + 1) s.regs.seed).toNat % t.gen.grid.toNat := by
  rw [h.npulses] at hm
  have hcell : (0 + m + 1) * G ≤ L := by
    rw [Nat.zero_add]
    exact le_trans (Nat.mul_le_mul_right _ hm) (Nat.div_mul_le_self L G)
  rw [h.grid, h.pulse m hm, cellPulse_pos hG _ hcell hL, Nat.zero_add]

/-- Settles O32: a jitter is below GRID, and the rest is R65's validity of the tables. -/
theorem pulsesLieInTheirCells : Obligations.PulsesLieInTheirCells := by
  intro s t i hp ha hexec
  obtain ⟨L, G, decay, hG, hL, hvalid, h⟩ := exec_generated hp ha hexec
  refine ⟨hvalid.npulses_eq, fun m hm => ⟨?_, ?_, hvalid.pos_lt m hm⟩, hvalid.pos_rising⟩
  · rw [h.pulse_pos hG hL hm]
    exact Nat.le_add_right _ _
  · rw [h.pulse_pos hG hL hm, Nat.add_one_mul m]
    exact Nat.add_lt_add_left (Nat.mod_lt _ hvalid.grid_pos) _

/-- Settles O33: the two draws of a cell are its jitter and its sign. -/
theorem pulsesComeFromTheirDraws : Obligations.PulsesComeFromTheirDraws := by
  intro s t i hp ha hexec
  obtain ⟨L, G, decay, hG, hL, -, h⟩ := exec_generated hp ha hexec
  refine ⟨fun m hm => ⟨h.pulse_pos hG hL hm, ?_⟩, by rw [h.lcgstate, h.npulses]⟩
  rw [h.pulse m (h.npulses ▸ hm)]
  exact (lcgIter (2 * m + 2) s.regs.seed).msb_eq_getLsbD_last

/-- Settles O34: an even grid keeps the low bit of the draw, and an odd number of draws flips that of the seed. -/
theorem jitterParity : Obligations.JitterParity := by
  intro s t i hp ha hexec heven m hm
  obtain ⟨L, G, decay, hG, hL, -, h⟩ := exec_generated hp ha hexec
  calc ((t.pulse m).pos.toNat - m * t.gen.grid.toNat) % 2
      = (lcgIter (2 * m + 1) s.regs.seed).toNat % t.gen.grid.toNat % 2 := by
        rw [h.pulse_pos hG hL hm, Nat.add_sub_cancel_left]
    _ = (lcgIter (2 * m + 1) s.regs.seed).toNat % 2 := Nat.mod_mod_of_dvd _ (Nat.dvd_of_mod_eq_zero heven)
    _ = (s.regs.seed.toNat + (2 * m + 1)) % 2 := lcgIter_parity _ _
    _ = 1 - s.regs.seed.toNat % 2 := by omega

/-! ### The same operands, the same tables (R181) -/

/-- The result registers depend on the operands, the seed, MAXBLK and the parameters (R181). -/
theorem buildTables_gen_congr {s s' : State} (sr dur dens : DWord) (hparams : s'.params = s.params)
    (hseed : s'.regs.seed = s.regs.seed) (hmaxblk : s'.regs.maxblk = s.regs.maxblk) :
    (buildTables sr dur dens s').gen = (buildTables sr dur dens s).gen := by
  unfold buildTables
  rw [commit_gen, commit_gen, hparams, hseed, hmaxblk]

/-- So do the tables and the ring. -/
theorem Generated.tables_congr {s t s' t' : State} {L G : Nat} {decay : DWord} (h : Generated s t L G decay)
    (h' : Generated s' t' L G decay) (hparams : s'.params = s.params) (hseed : s'.regs.seed = s.regs.seed) :
    (∀ k, k < t.gen.npulses.toNat → t'.pulse k = t.pulse k ∧ t'.env k = t.env k) ∧
      ∀ j, j < t.gen.ringcap.toNat → t'.ring j = t.ring j := by
  rw [h.npulses, h.ringcap]
  refine ⟨fun k hk => ⟨?_, ?_⟩, fun j hj => ?_⟩
  · rw [h.pulse k hk, h'.pulse k hk, hseed]
  · rw [h.env k hk, h'.env k hk, hseed, hparams]
  · rw [h.ring j hj, h'.ring j hj]

/-- Settles O35: both states run the same generation. -/
theorem generationIsDeterministic : Obligations.GenerationIsDeterministic := by
  intro s s' t i hp ha hparams hsrLo hsrHi hdurLo hdurHi hdensLo hdensHi hseed hmaxblk hexec
  obtain ⟨dur, dens, hvalidate, hrun, htakes⟩ := exec_accepted ha
  rw [hexec, runGeneration_of_none hvalidate] at hrun
  injection hrun with ht
  subst ht
  have hsr : s'.sampleRate = s.sampleRate := by rw [State.sampleRate, hsrHi, hsrLo]; rfl
  have hdur : s'.duration = s.duration := by rw [State.duration, hdurHi, hdurLo]; rfl
  have hdens : s'.density = s.density := by rw [State.density, hdensHi, hdensLo]; rfl
  have htakes' : TakesOperands s' i dur dens := by rwa [TakesOperands, hdur, hdens]
  have hvalidate' : validate s'.params s.sampleRate dur dens s'.regs.maxblk = none := by rwa [hparams, hmaxblk]
  have h' := buildTables_generated (hparams.symm ▸ hp) hvalidate'
  refine ⟨buildTables s.sampleRate dur dens s', ?_, buildTables_gen_congr _ _ _ hparams hseed hmaxblk, h'.prepared,
    (buildTables_generated hp hvalidate).tables_congr h' hparams hseed⟩
  rw [exec_of_takesOperands htakes', hsr, runGeneration_of_none hvalidate']

/-! ### No pulses (R172) -/

/-- The energy of no pulses is 0, below NEG_EPS64. -/
theorem normGain_nil : normGain [] = one32 := by
  have hlow : lt64 (energySum []) negEpsConst = true := by decide +kernel
  unfold normGain
  rw [if_pos hlow]

/-- Settles O36: a sequence shorter than the grid has no cell. -/
theorem noPulsesUnitGain : Obligations.NoPulsesUnitGain := by
  intro s t i hp ha hexec hlt
  obtain ⟨L, G, decay, -, -, -, h⟩ := exec_generated hp ha hexec
  rw [h.seqlen, h.grid] at hlt
  have hnone : L / G = 0 := Nat.div_eq_of_lt hlt
  refine ⟨BitVec.eq_of_toNat_eq (h.npulses.trans hnone), ?_, ?_⟩
  · rw [h.normgain, hnone]
    exact normGain_nil
  · rw [h.lcgstate, hnone]
    rfl

/-! ### The envelope of position 0 (R170, R171) -/

/-- A pattern below infinity is finite. -/
theorem FloatFormat.unpack_isFinite {f : FloatFormat} {bits : Nat} (h : bits % f.signUnit < f.infBits) :
    (f.unpack bits).isFinite = true := by
  have hex : bits / f.expUnit % 2 ^ f.ebits ≠ f.expMask := by
    intro hex
    rw [f.mod_signUnit, hex, mul_comm] at h
    exact absurd h (not_lt.2 (Nat.le_add_left _ _))
  unfold FloatFormat.unpack
  simp only [if_neg hex]
  split <;> rfl

theorem isFinite64_of_mag_lt {a : DWord} (h : a.toNat % 2 ^ 63 < binary64.infBits) : isFinite64 a = true :=
  FloatFormat.unpack_isFinite (binary64_signUnit.symm ▸ h)

/-- Below the least magnitude that overflows, a magnitude rounds to a finite one. -/
theorem NearestMag.lt_infBits {f : FloatFormat} {x : ℝ} {mag : Nat} (h : NearestMag f x mag) (hx : x < f.overflowAt) :
    mag < f.infBits :=
  lt_of_le_of_ne h.le_inf fun hinf => not_le.2 hx (h.overflow.2 hinf)

/-- A magnitude of at least 1 does not round below 1. -/
theorem NearestMag.one_le {x : ℝ} {mag : Nat} (h : NearestMag binary64 x mag) (hx : 1 ≤ x) (hmag : mag < binary64.infBits) :
    1 ≤ binary64.value mag := by
  have hone : binary64.value one64.toNat = 1 := by decide +kernel
  have hnear := h.nearest hmag one64.toNat (by decide)
  rw [hone, Rat.cast_one, abs_sub_comm 1 x, abs_of_nonneg (sub_nonneg.2 hx)] at hnear
  have hle := neg_le_of_abs_le hnear
  have : (1 : ℝ) ≤ binary64.value mag := by linarith
  exact_mod_cast this

/-- The value of a natural number's pattern is +infinity, or at least 1 where the number is. -/
theorem i2d_cases {n : Nat} (hn : 1 ≤ n) :
    val64 (i2d n) = .inf false ∨ isFinite64 (i2d n) = true ∧ 1 ≤ (val64 (i2d n)).toRat := by
  have hnear := roundMag_nearest binary64_wide n 0
  rw [zpow_zero, mul_one] at hnear
  have hbits : (i2d n).toNat = binary64.roundMag n 0 := by
    unfold i2d
    rw [round64_fin_toNat]
    simp
  rcases hnear.le_inf.eq_or_lt with hinf | hlt
  · left
    unfold val64
    rw [hbits, hinf]
    decide
  · right
    refine ⟨isFinite64_of_mag_lt (lt_of_le_of_lt (Nat.mod_le _ _) (hbits ▸ hlt)), ?_⟩
    have := hnear.one_le (by exact_mod_cast hn) hlt
    rwa [← hbits] at this

theorem neg3Ln10Const_finite : isFinite64 neg3Ln10Const = true := by decide

theorem abs_neg3Ln10Const_lt : |(val64 neg3Ln10Const).toRat| < binary64.overflowAt := by decide +kernel

/-- DECAY is finite for every sequence length: a quotient of -3 ln 10 by a number of at least 1, or by infinity. -/
theorem decayRate_finite (L : Nat) : isFinite64 (decayRate L) = true := by
  apply isFinite64_of_mag_lt
  rcases i2d_cases (le_max_left 1 L) with hinf | ⟨hfin, hone⟩
  · obtain ⟨neg, m, e, hval⟩ := FloatVal.isFinite_iff.1 neg3Ln10Const_finite
    unfold decayRate div64
    rw [hinf, hval]
    show (round64 (.fin (neg != false) 0 0)).toNat % 2 ^ 63 < _
    rw [round64_fin_mag]
    decide
  · obtain ⟨hnear, -⟩ := div64_correctlyRounded neg3Ln10Const_finite hfin (by linarith)
    refine hnear.lt_infBits (Rat.cast_abs (K := ℝ) _ ▸ Rat.cast_lt.2 (lt_of_le_of_lt ?_ abs_neg3Ln10Const_lt))
    rw [abs_div]
    exact div_le_self (abs_nonneg _) (le_trans hone (le_abs_self _))

/-- A zero rounds to a zero of its sign. -/
theorem val64_round64_zero (neg : Bool) (e : ℤ) : val64 (round64 (.fin neg 0 e)) = .fin neg 0 binary64.minExp := by
  have hbits : (round64 (.fin neg 0 e)).toNat = if neg then 2 ^ 63 else 0 := by rw [round64_fin_toNat]; rfl
  unfold val64
  rw [hbits]
  cases neg <;> decide

/-- Settles O37: a finite decay rate times zero is a zero, and e^0 is 1.0. -/
theorem envelopeAtZeroIsOne : Obligations.EnvelopeAtZeroIsOne := by
  intro src L
  obtain ⟨neg, m, e, hval⟩ := FloatVal.isFinite_iff.1 (decayRate_finite L)
  have hzero : val64 (i2d (0 : Nat)) = .fin false 0 binary64.minExp := val64_round64_zero false 0
  have hprod : val64 (mul64 (decayRate L) (i2d (0 : Nat))) = .fin (neg != false) 0 binary64.minExp := by
    unfold mul64
    rw [hval, hzero, FloatVal.mul_fin, Nat.mul_zero, val64_round64_zero]
  unfold envelope
  rw [exp64_zero hprod]
  decide

end Sys2Proof.Machine
end

section
/-! SUPPORT. Proofs of the statements about the convolver (spec/41_convolver.md R200 to R214). The ring after a block is read off slot by
slot; that it holds the stream so far is the one fact behind R209, and R210 follows from R209 by applying it to each block. -/

namespace Sys2Proof.Machine

/-! ### The command (R201, R208) -/

theorem exec_convolve (s : State) : exec .convolve s = .next (runConvolve 2 s) := rfl

theorem exec_convolve_accepted {s : State} (hp : s.prepared = true) (hn : s.regs.nsamp.toNat ≤ s.gen.actMaxblk.toNat) :
    exec .convolve s = .next (s.convolveBlock s.regs.nsamp.toNat) := by
  rw [exec_convolve, runConvolve_accepted hp hn]

/-- E_NOTREADY: STATUS bit 10 and CODE = 3; E_BLOCK: STATUS bit 11 and CODE = 4 (R281, R285). -/
theorem State.raise_notReady (s : State) (w : Word) :
    s.raise .notReady w = { s with err := { bits := s.err.bits ||| 4, code := 3, info := w } } := rfl

theorem State.raise_block (s : State) (w : Word) :
    s.raise .block w = { s with err := { bits := s.err.bits ||| 8, code := 4, info := w } } := rfl

/-- Settles O38: the two checks exclude the other outcomes of the command. -/
theorem convolveRefused : Obligations.ConvolveRefused := by
  intro s
  rw [exec_convolve, ← State.raise_notReady, ← State.raise_block]
  rcases runConvolve_cases 2 s with ⟨hp, hrun⟩ | ⟨hp, hn, hrun⟩ | ⟨hp, hn, -⟩
  · exact ⟨fun _ => congrArg _ hrun, fun hp' => absurd (hp.symm.trans hp') Bool.false_ne_true⟩
  · exact ⟨fun hp' => absurd (hp'.symm.trans hp) Bool.false_ne_true, fun _ _ => congrArg _ hrun⟩
  · exact ⟨fun hp' => absurd (hp'.symm.trans hp) Bool.false_ne_true, fun _ hn' => absurd hn (not_le.2 hn')⟩

/-- A block of no samples writes nothing, and a reduced write pointer stays. -/
theorem State.convolveBlock_zero {s : State} (h : s.gen.wptr.toNat < s.gen.ringcap.toNat) : s.convolveBlock 0 = s := by
  have hwptr : BitVec.ofNat 32 ((s.gen.wptr.toNat + 0) % s.gen.ringcap.toNat) = s.gen.wptr := by
    rw [Nat.add_zero, Nat.mod_eq_of_lt h, BitVec.ofNat_toNat, BitVec.setWidth_eq]
  unfold State.convolveBlock
  simp only [hwptr]
  rfl

/-- Settles O43: NSAMP = 0 passes both checks. -/
theorem emptyBlockChangesNothing : Obligations.EmptyBlockChangesNothing := by
  intro s hp hwptr hn
  have hzero : s.regs.nsamp.toNat = 0 := by rw [hn]; rfl
  rw [exec_convolve_accepted hp (hzero.symm ▸ Nat.zero_le _), hzero, State.convolveBlock_zero hwptr]

/-! ### The sizes of a block -/

/-- The sizes R65 and R201 give a block of N samples on a prepared block: the windows in use do not overlap. -/
structure BlockFits (s : State) (N : Nat) : Prop where
  ring_pos : 0 < s.gen.ringcap.toNat
  ring_le : s.gen.ringcap.toNat ≤ 0x10000
  pulses_le : s.gen.npulses.toNat ≤ 0x4000
  samples_le : N ≤ 0x4000

theorem State.Inv.blockFits {s : State} (h : s.Inv) (hp : s.prepared = true) {N : Nat} (hN : N ≤ s.gen.actMaxblk.toNat) :
    BlockFits s N := by
  obtain ⟨hC, hC', hP, hmaxblk, -⟩ := h.sizes hp
  exact ⟨hC, hC', hP, hN.trans hmaxblk⟩

/-- Below a bound, a property that holds somewhere holds at a last place. -/
theorem exists_last {p : Nat → Prop} {n N : Nat} (hn : n < N) (hp : p n) :
    ∃ k, k < N ∧ p k ∧ ∀ k', k < k' → k' < N → ¬p k' := by
  classical
  obtain ⟨hlt, hk⟩ := Nat.findGreatest_spec (P := fun k => k < N ∧ p k) hn.le ⟨hn, hp⟩
  exact ⟨_, hlt, hk, fun k' h1 h2 hk' => Nat.findGreatest_is_greatest h1 h2.le ⟨h2, hk'⟩⟩

section
variable {s : State} {N : Nat} (h : BlockFits s N)
include h

theorem BlockFits.wptr_convolveBlock :
    (s.convolveBlock N).gen.wptr.toNat = (s.gen.wptr.toNat + N) % s.gen.ringcap.toNat := by
  have := Nat.mod_lt (s.gen.wptr.toNat + N) h.ring_pos
  have := h.ring_le
  rw [State.convolveBlock_gen, BitVec.toNat_ofNat, Nat.mod_eq_of_lt (by omega)]

/-! ### The ring after a block (R202) -/

/-- A slot holds the last sample written to it. -/
theorem BlockFits.ring_last {n : Nat} (hn : n < N)
    (hlast : ∀ n', n < n' → n' < N →
      (s.gen.wptr.toNat + n') % s.gen.ringcap.toNat ≠ (s.gen.wptr.toNat + n) % s.gen.ringcap.toNat) :
    (s.convolveBlock N).ring ((s.gen.wptr.toNat + n) % s.gen.ringcap.toNat) = s.inbuf n := by
  have hN := h.samples_le
  rw [s.ring_convolveBlock (by omega)]
  exact ring_writeInputs _ N 0 s.mem n (by omega) (by omega) (by omega) fun n' h1 h2 => hlast n' h1 (by omega)

/-- A slot no sample is written to keeps its value. -/
theorem BlockFits.ring_kept {j : Nat} (hj : ∀ n, n < N → (s.gen.wptr.toNat + n) % s.gen.ringcap.toNat ≠ j) :
    (s.convolveBlock N).ring j = s.ring j := by
  have hN := h.samples_le
  rw [s.ring_convolveBlock (by omega)]
  exact ring_writeInputs_of_ne _ j N 0 s.mem fun n _ h2 => hj n (by omega)

/-- A slot holds an input sample, the last of those that fall into it, or its old value. -/
theorem BlockFits.ring_cases (j : Nat) :
    (∃ n, n < N ∧ (s.convolveBlock N).ring j = s.inbuf n) ∨ (s.convolveBlock N).ring j = s.ring j := by
  by_cases hhit : ∃ n, n < N ∧ (s.gen.wptr.toNat + n) % s.gen.ringcap.toNat = j
  · obtain ⟨n, hn, hslot⟩ := hhit
    obtain ⟨k, hk, rfl, hlast⟩ :=
      exists_last (p := fun n => (s.gen.wptr.toNat + n) % s.gen.ringcap.toNat = j) hn hslot
    exact .inl ⟨k, hk, h.ring_last hk hlast⟩
  · exact .inr (h.ring_kept fun n hn hslot => hhit ⟨n, hn, hslot⟩)

end

/-- Settles O39: the slots one by one, the fold of R205, and the frame byte by byte. -/
theorem convolveResult : Obligations.ConvolveResult := by
  intro s hinv hp hn N C wp0
  have hfit : BlockFits s N := hinv.blockFits hp hn
  refine ⟨s.convolveBlock N, exec_convolve_accepted hp hn, fun n => hfit.ring_last, fun j _ => hfit.ring_kept, ?_, rfl,
    s.readByte_convolveBlock hfit.ring_pos, rfl, rfl, rfl, rfl, rfl, rfl, rfl⟩
  intro n hn
  rw [s.outbuf_convolveBlock hn hfit.samples_le hfit.ring_pos hfit.pulses_le]
  rfl

/-! ### The stream (R209) -/

theorem streamAt_append_of_lt (x y : List Word) {i : ℤ} (h : i < x.length) : streamAt (x ++ y) i = streamAt x i := by
  unfold streamAt
  split
  · rfl
  · rw [List.getD_append _ _ _ _ (by omega)]

theorem streamAt_append_right (x y : List Word) (n : Nat) : streamAt (x ++ y) ((x.length : ℤ) + n) = y.getD n zero32 := by
  unfold streamAt
  rw [if_neg (by omega), show ((x.length : ℤ) + n).toNat = x.length + n by omega,
    List.getD_append_right _ _ _ _ (Nat.le_add_right _ _), Nat.add_sub_cancel_left]

theorem State.inputs_length (s : State) (N : Nat) : (s.inputs N).length = N := by
  rw [State.inputs, List.length_map, List.length_range]

theorem State.inputs_getD (s : State) {N n : Nat} (hn : n < N) : (s.inputs N).getD n zero32 = s.inbuf n := by
  simp [State.inputs, hn]

/-- Slots are taken modulo the capacity. -/
theorem ringSlot_of_le_add {C wp0 n pos : Nat} (h : pos ≤ C + n) : ringSlot C wp0 n pos = (wp0 + (C + n - pos)) % C := by
  have hwrap : ringSlot C wp0 n pos = ringSlot C wp0 (C + n) pos := by
    unfold ringSlot
    rw [show (wp0 : ℤ) + (C + n : Nat) - pos = wp0 + n - pos + C by push_cast; ring, Int.add_emod_right]
  rw [hwrap, ringSlot_of_le h]

/-- What a block leaves, in slots counted from the write pointer it found. -/
theorem BlockFits.holdsHistory_iff {s : State} {N : Nat} (h : BlockFits s N) (y : List Word) :
    HoldsHistory (s.convolveBlock N) y ↔ ∀ d, d < s.gen.ringcap.toNat →
      (s.convolveBlock N).ring (ringSlot s.gen.ringcap.toNat s.gen.wptr.toNat N (d + 1)) = streamAt y ((y.length : ℤ) - 1 - d) := by
  have hslot : ∀ pos, ringSlot s.gen.ringcap.toNat (s.convolveBlock N).gen.wptr.toNat 0 pos =
      ringSlot s.gen.ringcap.toNat s.gen.wptr.toNat N pos := fun pos => by
    rw [h.wptr_convolveBlock, ringSlot_shift, Nat.add_zero]
  simp only [← hslot]
  rfl

/-- A block no longer than the ring leaves the ring holding the longer stream: the newest N slots were written by the block, the older
ones were not. -/
theorem BlockFits.holdsHistory {s : State} {N : Nat} (h : BlockFits s N) (hN : N ≤ s.gen.ringcap.toNat) {x : List Word}
    (hx : HoldsHistory s x) : HoldsHistory (s.convolveBlock N) (x ++ s.inputs N) := by
  refine (h.holdsHistory_iff _).2 fun d hd => ?_
  rw [List.length_append, s.inputs_length]
  by_cases hdN : d < N
  case pos =>
    have hindex : ((x.length + N : Nat) : ℤ) - 1 - d = x.length + (N - (d + 1) : Nat) := by omega
    rw [hindex, streamAt_append_right, s.inputs_getD (by omega), ringSlot_of_le hdN]
    exact h.ring_last (by omega) fun n' h1 h2 => mod_ne_of_lt h1 (by omega)
  case neg =>
    have hindex : ((x.length + N : Nat) : ℤ) - 1 - d = x.length - 1 - (d - N : Nat) := by omega
    have hslot : ringSlot s.gen.ringcap.toNat s.gen.wptr.toNat 0 (d - N + 1) =
        ringSlot s.gen.ringcap.toNat s.gen.wptr.toNat N (d + 1) := ringSlot_congr _ _ (by omega)
    rw [hindex, streamAt_append_of_lt _ _ (by omega), ← hx _ (by omega), hslot]
    refine h.ring_kept fun n hn => ?_
    rw [ringSlot_of_le_add (by omega)]
    exact (mod_ne_of_lt (by omega) (by omega)).symm

/-- R209: under the exactness premise every slot that output n reads holds the sample of the stream that the response asks for. -/
theorem BlockFits.outbuf_eq_firOutput {s : State} {N : Nat} (h : BlockFits s N) (hexact : ExactBlock s N) {x : List Word}
    (hx : HoldsHistory s x) {n : Nat} (hn : n < N) :
    (s.convolveBlock N).outbuf n = s.firOutput (x ++ s.inputs N) ((x.length : ℤ) + n) := by
  obtain ⟨hN, hpos⟩ := hexact
  have hnew := (h.holdsHistory_iff _).1 (h.holdsHistory hN hx)
  rw [s.outbuf_convolveBlock hn h.samples_le h.ring_pos h.pulses_le]
  unfold State.firOutput
  refine List.foldl_ext _ _ _ fun acc k hk => ?_
  have hread := hpos k (List.mem_range.1 hk)
  have hsample := hnew (N - 1 - n + (s.pulse k).pos.toNat) (by omega)
  have hslot : ringSlot s.gen.ringcap.toNat s.gen.wptr.toNat N (N - 1 - n + (s.pulse k).pos.toNat + 1) =
      ringSlot s.gen.ringcap.toNat s.gen.wptr.toNat n (s.pulse k).pos.toNat := ringSlot_congr _ _ (by omega)
  have hindex : ((x.length + N : Nat) : ℤ) - 1 - (N - 1 - n + (s.pulse k).pos.toNat : Nat) =
      x.length + n - (s.pulse k).pos.toNat := by omega
  rw [hslot, List.length_append, s.inputs_length, hindex] at hsample
  rw [hsample]

/-- Settles O40. -/
theorem convolveIsExactFir : Obligations.ConvolveIsExactFir := by
  intro s x hinv hp hn hx hexact
  have hfit := hinv.blockFits hp hn
  exact ⟨_, exec_convolve_accepted hp hn, hfit.holdsHistory hexact.1 hx, fun n => hfit.outbuf_eq_firOutput hexact hx⟩

/-! ### One block in two (R210) -/

/-- The samples the ring holds, oldest first. -/
def State.ringStream (s : State) : List Word :=
  (List.range s.gen.ringcap.toNat).map fun i =>
    s.ring (ringSlot s.gen.ringcap.toNat s.gen.wptr.toNat 0 (s.gen.ringcap.toNat - i))

/-- Whatever the ring holds, it is the history of some stream. -/
theorem State.holdsHistory_ringStream (s : State) : HoldsHistory s s.ringStream := by
  intro d hd
  have hlen : s.ringStream.length = s.gen.ringcap.toNat := by rw [State.ringStream, List.length_map, List.length_range]
  have hindex : ((s.gen.ringcap.toNat : ℤ) - 1 - d).toNat = s.gen.ringcap.toNat - (d + 1) := by omega
  rw [hlen, streamAt, if_neg (by omega), hindex, List.getD_eq_getElem _ _ (by omega)]
  simp only [State.ringStream, List.getElem_map, List.getElem_range]
  rw [show s.gen.ringcap.toNat - (s.gen.ringcap.toNat - (d + 1)) = d + 1 by omega]

/-- Every slot is some number of samples before the write pointer. -/
theorem exists_ringSlot_eq {C j : Nat} (hj : j < C) (wp0 : Nat) : ∃ d, d < C ∧ ringSlot C wp0 0 (d + 1) = j := by
  have hpos : (0 : ℤ) < C := by omega
  have hnonneg := Int.emod_nonneg ((wp0 : ℤ) - 1 - j) hpos.ne'
  have hlt := Int.emod_lt_of_pos ((wp0 : ℤ) - 1 - j) hpos
  refine ⟨(((wp0 : ℤ) - 1 - j) % C).toNat, by omega, ?_⟩
  have hshift : ((wp0 : ℤ) + (0 : Nat) - ((((wp0 : ℤ) - 1 - j) % C).toNat + 1 : Nat)) = (wp0 - 1) - ((wp0 : ℤ) - 1 - j) % C := by
    omega
  unfold ringSlot
  rw [hshift, Int.sub_emod_emod, show (wp0 : ℤ) - 1 - (wp0 - 1 - j) = j by ring, Int.emod_eq_of_lt (by omega) (by omega),
    Int.toNat_natCast]

/-- The stream and the write pointer settle the ring. -/
theorem HoldsHistory.ring_eq {s t : State} {x : List Word} (hs : HoldsHistory s x) (ht : HoldsHistory t x)
    (hC : t.gen.ringcap = s.gen.ringcap) (hwptr : t.gen.wptr = s.gen.wptr) {j : Nat} (hj : j < s.gen.ringcap.toNat) :
    t.ring j = s.ring j := by
  obtain ⟨d, hd, rfl⟩ := exists_ringSlot_eq hj s.gen.wptr.toNat
  have htd := ht d (hC ▸ hd)
  rw [hC, hwptr] at htd
  rw [hs d hd, htd]

/-- What the fold of R205 takes from a state besides the ring: the gain and the generated tables. -/
structure SameTaps (s t : State) : Prop where
  gain : t.regs.gain = s.regs.gain
  normgain : t.gen.normgain = s.gen.normgain
  npulses : t.gen.npulses = s.gen.npulses
  entries : ∀ k, k < s.gen.npulses.toNat → t.pulseWord k = s.pulseWord k ∧ t.env k = s.env k

theorem SameTaps.trans {s t u : State} (h : SameTaps s t) (h' : SameTaps t u) : SameTaps s u where
  gain := h'.gain.trans h.gain
  normgain := h'.normgain.trans h.normgain
  npulses := h'.npulses.trans h.npulses
  entries := fun k hk =>
    have hk' : k < t.gen.npulses.toNat := by rwa [h.npulses]
    ⟨(h'.entries k hk').1.trans (h.entries k hk).1, (h'.entries k hk').2.trans (h.entries k hk).2⟩

section
variable {s t : State} (h : SameTaps s t)
include h

theorem SameTaps.pulse {k : Nat} (hk : k < s.gen.npulses.toNat) : t.pulse k = s.pulse k :=
  congrArg pulseOfWord (h.entries k hk).1

theorem SameTaps.pulseCoeff {k : Nat} (hk : k < s.gen.npulses.toNat) : t.pulseCoeff k = s.pulseCoeff k := by
  unfold State.pulseCoeff
  rw [h.pulse hk, h.gain, (h.entries k hk).2, h.normgain]

theorem SameTaps.exactBlock (hC : t.gen.ringcap = s.gen.ringcap) {N M : Nat} (hM : M ≤ N) (hexact : ExactBlock s N) :
    ExactBlock t M := by
  obtain ⟨hN, hpos⟩ := hexact
  refine ⟨hC ▸ hM.trans hN, fun k hk => ?_⟩
  rw [h.npulses] at hk
  rw [h.pulse hk, hC]
  exact le_trans (Nat.add_le_add_right hM _) (hpos k hk)

/-- A sample of the response reads the stream up to its own time only. -/
theorem SameTaps.firOutput {x y : List Word} {i : ℤ} (hxy : ∀ j, j ≤ i → streamAt y j = streamAt x j) :
    t.firOutput y i = s.firOutput x i := by
  unfold State.firOutput
  rw [h.npulses]
  refine List.foldl_ext _ _ _ fun acc k hk => ?_
  have hk := List.mem_range.1 hk
  rw [h.pulseCoeff hk, h.pulse hk, hxy _ (by omega)]

end

theorem BlockFits.sameTaps {s : State} {N : Nat} (h : BlockFits s N) : SameTaps s (s.convolveBlock N) where
  gain := rfl
  normgain := rfl
  npulses := rfl
  entries := fun _ hk =>
    have hk := hk.trans_le h.pulses_le
    ⟨s.pulseWord_convolveBlock h.ring_pos h.samples_le hk, s.env_convolveBlock h.ring_pos h.samples_le hk⟩

/-- The words behind PULSE, ENV and RING lie above INBUF and OUTBUF. -/
theorem readWord_eq_of_upper {m m' : Memory} (h : ∀ o, 0x30000 ≤ o → m.readByte o = m'.readByte o) {a : Nat} (ha : 0x30000 ≤ a) :
    m.readWord a = m'.readWord a :=
  Memory.readWord_congr fun b hb _ => h b (ha.trans hb)

theorem State.eq_convolveBlock {s t : State} {N : Nat} (hp : s.prepared = true) (hnsamp : s.regs.nsamp.toNat = N)
    (hN : N ≤ s.gen.actMaxblk.toNat) (h : exec .convolve s = .next t) : t = s.convolveBlock N := by
  rw [exec_convolve_accepted hp (hnsamp.trans_le hN), hnsamp] at h
  injection h with h
  exact h.symm

theorem State.inputs_add (s : State) (a b : Nat) : s.inputs (a + b) = s.inputs a ++ (List.range b).map fun n => s.inbuf (a + n) := by
  rw [State.inputs, State.inputs, List.range_add, List.map_append, List.map_map]
  rfl

/-- The host's part between two blocks: NSAMP, and the memory below PULSE, that is INBUF and OUTBUF. -/
def State.withBlock (s : State) (m : Memory) (n : Nat) : State :=
  { s with mem := m, regs := { s.regs with nsamp := BitVec.ofNat 32 n } }

section
variable {s : State} {m : Memory} (hm : ∀ o, 0x30000 ≤ o → m.readByte o = s.mem.readByte o) (n : Nat)
include hm

theorem State.withBlock_sameTaps : SameTaps s (s.withBlock m n) where
  gain := rfl
  normgain := rfl
  npulses := rfl
  entries := fun k _ =>
    ⟨readWord_eq_of_upper hm (by rw [pulseAddr_eq]; omega), readWord_eq_of_upper hm (by rw [envAddr_eq]; omega)⟩

theorem State.withBlock_holdsHistory {x : List Word} (hx : HoldsHistory s x) : HoldsHistory (s.withBlock m n) x := fun d hd =>
  (readWord_eq_of_upper hm (by rw [ringAddr_eq]; omega)).trans (hx d hd)

end

/-- The first `a` samples of a block on their own, and `b` more after the host has rewritten INBUF. -/
def State.firstPart (s : State) (a : Nat) : State := (s.withBlock s.mem a).convolveBlock a
def State.secondPart (s : State) (m : Memory) (a b : Nat) : State := ((s.firstPart a).withBlock m b).convolveBlock b

section
variable {s : State} {a b : Nat} (hfit : BlockFits s (a + b)) (hexact : ExactBlock s (a + b))

include hfit in
theorem firstPart_fits : BlockFits (s.withBlock s.mem a) a :=
  ⟨hfit.ring_pos, hfit.ring_le, hfit.pulses_le, Nat.le_of_add_right_le hfit.samples_le⟩

include hfit in
theorem secondPart_fits (m : Memory) : BlockFits ((s.firstPart a).withBlock m b) b :=
  ⟨hfit.ring_pos, hfit.ring_le, hfit.pulses_le, Nat.le_of_add_left_le hfit.samples_le⟩

theorem firstPart_inputs (s : State) (a : Nat) : (s.withBlock s.mem a).inputs a = s.inputs a := rfl

include hfit hexact

theorem firstPart_holdsHistory {x : List Word} (hx : HoldsHistory s x) : HoldsHistory (s.firstPart a) (x ++ s.inputs a) :=
  (firstPart_fits hfit).holdsHistory (Nat.le_of_add_right_le hexact.1) hx

/-- The samples of the second part are not read by the outputs of the first. -/
theorem firstPart_outbuf {n : Nat} (hn : n < a) : (s.firstPart a).outbuf n = (s.convolveBlock (a + b)).outbuf n := by
  have hx := s.holdsHistory_ringStream
  have htaps : SameTaps s (s.withBlock s.mem a) := State.withBlock_sameTaps (fun _ _ => rfl) a
  rw [hfit.outbuf_eq_firOutput hexact hx (by omega), State.firstPart,
    (firstPart_fits hfit).outbuf_eq_firOutput (htaps.exactBlock rfl (Nat.le_add_right a b) hexact) hx hn, firstPart_inputs]
  refine htaps.firOutput fun j hj => ?_
  rw [s.inputs_add, ← List.append_assoc, streamAt_append_of_lt _ (List.map _ _)]
  rw [List.length_append, s.inputs_length]
  omega

variable {m : Memory} (hm : ∀ o, 0x30000 ≤ o → m.readByte o = (s.firstPart a).mem.readByte o)
  (hin : ∀ n, n < b → m.readWord (inbufAddr n) = s.inbuf (a + n))

include hin in
omit hfit hexact in
theorem secondPart_inputs : s.inputs a ++ ((s.firstPart a).withBlock m b).inputs b = s.inputs (a + b) := by
  rw [s.inputs_add]
  exact congrArg _ (map_range_congr hin)

include hm hin

theorem secondPart_holdsHistory {x : List Word} (hx : HoldsHistory s x) :
    HoldsHistory (s.secondPart m a b) (x ++ s.inputs (a + b)) := by
  have hmid := State.withBlock_holdsHistory hm b (firstPart_holdsHistory hfit hexact hx)
  have hnew := (secondPart_fits hfit m).holdsHistory (Nat.le_of_add_left_le hexact.1) hmid
  rwa [List.append_assoc, secondPart_inputs hin] at hnew

theorem secondPart_outbuf {n : Nat} (hn : n < b) : (s.secondPart m a b).outbuf n = (s.convolveBlock (a + b)).outbuf (a + n) := by
  have hx := s.holdsHistory_ringStream
  have hmid := State.withBlock_holdsHistory hm b (firstPart_holdsHistory hfit hexact hx)
  have htaps : SameTaps s ((s.firstPart a).withBlock m b) :=
    (State.withBlock_sameTaps (fun _ _ => rfl) a).trans
      ((firstPart_fits hfit).sameTaps.trans (State.withBlock_sameTaps hm b))
  rw [hfit.outbuf_eq_firOutput hexact hx (by omega), State.secondPart,
    (secondPart_fits hfit m).outbuf_eq_firOutput (htaps.exactBlock rfl (Nat.le_add_left b a) hexact) hmid hn,
    List.append_assoc, secondPart_inputs hin, List.length_append, s.inputs_length, Nat.cast_add, Nat.cast_add, add_assoc]
  exact htaps.firOutput fun _ _ => rfl

omit hexact hm hin in
theorem secondPart_wptr : (s.secondPart m a b).gen.wptr = (s.convolveBlock (a + b)).gen.wptr := by
  apply BitVec.eq_of_toNat_eq
  have hmid : ((s.firstPart a).withBlock m b).gen.wptr.toNat = (s.gen.wptr.toNat + a) % s.gen.ringcap.toNat :=
    (firstPart_fits hfit).wptr_convolveBlock
  rw [hfit.wptr_convolveBlock, State.secondPart, (secondPart_fits hfit m).wptr_convolveBlock, hmid, ← Nat.add_assoc]
  exact Nat.mod_add_mod _ _ _

end

/-- Settles O42: each of the three blocks is the response of the stream it ends (R209), and both ways end the same stream. -/
theorem blockBoundaryIndependence : Obligations.BlockBoundaryIndependence := by
  intro s t t1 t2 m a b hinv hp hnsamp hmax hexact hexec hexec1 hin hm hexec2
  have hfit : BlockFits s (a + b) := hinv.blockFits hp hmax
  have hsmall := hfit.samples_le
  have hnum : ∀ n, n ≤ a + b → (BitVec.ofNat 32 n).toNat = n := fun n hn => by
    rw [BitVec.toNat_ofNat, Nat.mod_eq_of_lt (by omega)]
  have ht := State.eq_convolveBlock hp hnsamp hmax hexec
  have ht1 : t1 = s.firstPart a :=
    State.eq_convolveBlock (s := s.withBlock s.mem a) hp (hnum a (by omega)) (Nat.le_of_add_right_le hmax) hexec1
  subst ht ht1
  have ht2 : t2 = s.secondPart m a b :=
    State.eq_convolveBlock (s := (s.firstPart a).withBlock m b) hp (hnum b (by omega)) (Nat.le_of_add_left_le hmax) hexec2
  subst ht2
  have hx := s.holdsHistory_ringStream
  exact ⟨fun n hn => firstPart_outbuf hfit hexact hn, fun n hn => secondPart_outbuf hfit hexact hm hin hn,
    fun j hj => (hfit.holdsHistory hexact.1 hx).ring_eq (secondPart_holdsHistory hfit hexact hm hin hx) rfl
      (secondPart_wptr hfit) hj,
    secondPart_wptr hfit⟩

end Sys2Proof.Machine
end

section
/-! SUPPORT. Proofs of the statements about the convolver's arithmetic (spec/41_convolver.md R204, R211, R213, R214): zeros and NaNs
pass through products, sums and the fold, and the comparison of R204 is one of rational numbers. -/

namespace Sys2Proof.Machine

/-! ### Magnitudes (R19) -/

/-- The datum with its sign cleared. -/
def FloatVal.magnitude : FloatVal → FloatVal
  | .nan => .nan
  | .inf _ => .inf false
  | .fin _ m e => .fin false m e

theorem FloatFormat.signUnit_pos (f : FloatFormat) : 0 < f.signUnit := Nat.two_pow_pos _

/-- Without its sign bit a pattern stands for the magnitude. -/
theorem FloatFormat.unpack_mod_signUnit (f : FloatFormat) (bits : Nat) :
    f.unpack (bits % f.signUnit) = (f.unpack bits).magnitude := by
  have hfrac : bits % f.signUnit % f.expUnit = bits % f.expUnit := by
    rw [f.mod_signUnit, Nat.add_mul_mod_self_left, Nat.mod_mod]
  have hex : bits % f.signUnit / f.expUnit % 2 ^ f.ebits = bits / f.expUnit % 2 ^ f.ebits := by
    rw [f.mod_signUnit, Nat.add_mul_div_left _ _ f.expUnit_pos, Nat.div_eq_of_lt (Nat.mod_lt _ f.expUnit_pos), Nat.zero_add,
      Nat.mod_mod]
  have hsign : bits % f.signUnit / f.signUnit % 2 = 0 := by
    rw [Nat.div_eq_of_lt (Nat.mod_lt _ f.signUnit_pos), Nat.zero_mod]
  unfold FloatFormat.unpack
  simp only [hfrac, hex, hsign]
  split
  · split <;> rfl
  · split <;> rfl

theorem abs32_toNat (c : Word) : (abs32 c).toNat = c.toNat % 2 ^ 31 := by
  rw [abs32, BitVec.toNat_and]
  exact Nat.and_two_pow_sub_one_eq_mod c.toNat 31

theorem val32_abs32 (c : Word) : val32 (abs32 c) = (val32 c).magnitude := by
  rw [val32, abs32_toNat, ← binary32_signUnit, binary32.unpack_mod_signUnit, val32]

theorem FloatVal.magnitude_toRat (v : FloatVal) : v.magnitude.toRat = |v.toRat| := by
  cases v with
  | nan => rfl
  | inf neg => rfl
  | fin neg m e =>
    rw [FloatVal.abs_toRat_fin, FloatVal.magnitude, FloatVal.toRat_fin]
    exact one_mul _

/-! ### Zeros (R18, R211) -/

theorem val32_of_abs_zero {a : Word} (h : abs32 a = 0) : ∃ neg, val32 a = .fin neg 0 binary32.minExp := by
  have hmag : (val32 a).magnitude = .fin false 0 binary32.minExp := by
    rw [← val32_abs32, h]
    decide
  cases hval : val32 a with
  | nan => rw [hval] at hmag; cases hmag
  | inf neg => rw [hval] at hmag; cases hmag
  | fin neg m e =>
    rw [hval] at hmag
    injection hmag with _ hm he
    exact ⟨neg, by rw [hm, he]⟩

theorem abs32_round32_zero (neg : Bool) (e : ℤ) : abs32 (round32 (.fin neg 0 e)) = 0 := by
  apply BitVec.eq_of_toNat_eq
  rw [abs32_toNat, round32_fin_mag]
  rfl

/-- A zero times a finite value is a zero. -/
theorem abs32_mul32_zero_left {a b : Word} (ha : abs32 a = 0) (hb : isFinite32 b = true) : abs32 (mul32 a b) = 0 := by
  obtain ⟨neg, hza⟩ := val32_of_abs_zero ha
  obtain ⟨neg', m, e, hvb⟩ := FloatVal.isFinite_iff.1 hb
  rw [mul32, hza, hvb, FloatVal.mul_fin, Nat.zero_mul, abs32_round32_zero]

theorem abs32_mul32_zero_right {a b : Word} (ha : isFinite32 a = true) (hb : abs32 b = 0) : abs32 (mul32 a b) = 0 := by
  obtain ⟨neg, m, e, hva⟩ := FloatVal.isFinite_iff.1 ha
  obtain ⟨neg', hzb⟩ := val32_of_abs_zero hb
  rw [mul32, hva, hzb, FloatVal.mul_fin, Nat.mul_zero, abs32_round32_zero]

/-- +0.0 plus a zero of either sign is +0.0. -/
theorem add32_zero_zero {b : Word} (hb : abs32 b = 0) : add32 zero32 b = zero32 := by
  obtain ⟨neg, hzb⟩ := val32_of_abs_zero hb
  rw [add32, hzb]
  cases neg <;> decide

/-! ### NaNs (R20) -/

theorem round32_nan : round32 .nan = nan32 := by decide

theorem val32_nan32 : val32 nan32 = .nan := by decide

theorem mul32_nan_left {a : Word} (b : Word) (ha : val32 a = .nan) : mul32 a b = nan32 := by
  rw [mul32, ha, FloatVal.mul, round32_nan]

theorem FloatVal.mul_nan (v : FloatVal) : v.mul .nan = .nan := by cases v <;> rfl

theorem FloatVal.add_nan (v : FloatVal) : v.add .nan = .nan := by cases v <;> rfl

theorem mul32_nan_right (a : Word) {b : Word} (hb : val32 b = .nan) : mul32 a b = nan32 := by
  rw [mul32, hb, FloatVal.mul_nan, round32_nan]

theorem add32_nan_right (a : Word) {b : Word} (hb : val32 b = .nan) : add32 a b = nan32 := by
  rw [add32, hb, FloatVal.add_nan, round32_nan]

/-! ### The cull test (R204) -/

theorem culled_of_abs_zero {c : Word} (h : abs32 c = 0) : culled c = true := by
  rw [culled, h]
  decide

theorem culled_nan32 : culled nan32 = false := by decide

/-- The ordered comparison of finite values is that of the rational numbers (R19). -/
theorem FloatVal.lt_fin (a : Bool) (m : Nat) (e : ℤ) (b : Bool) (n : Nat) (d : ℤ) :
    (FloatVal.fin a m e).lt (.fin b n d) = true ↔ (FloatVal.fin a m e).toRat < (FloatVal.fin b n d).toRat := by
  have hpos : (0 : ℚ) < 2 ^ min e d := by positivity
  rw [← alignedInt_eq a m (min_le_left e d), ← alignedInt_eq b n (min_le_right e d), mul_lt_mul_iff_left₀ hpos, Int.cast_lt]
  exact decide_eq_true_iff

theorem FloatFormat.mant_lt {f : FloatFormat} {bits m : Nat} {neg : Bool} {e : ℤ} (h : f.unpack bits = .fin neg m e) :
    m < 2 * f.expUnit := by
  have hlt := Nat.mod_lt bits f.expUnit_pos
  unfold FloatFormat.unpack at h
  simp only [] at h
  split at h
  · split at h <;> cases h
  · split at h <;> cases h <;> omega

theorem val32_cullConst : val32 cullConst = .fin false 14411519 (-57) := by decide

/-- No significand below 2^24 gives a value from 1e-10 up to CULL32: 2^57 * 1e-10 lies between 14411518 and 14411519. -/
theorem lt_cull_iff {m : Nat} (hm : m < 2 ^ 24) (e : ℤ) :
    (m : ℚ) * 2 ^ e < 14411519 * 2 ^ (-57 : ℤ) ↔ (m : ℚ) * 2 ^ e < 1 / 10 ^ 10 := by
  constructor
  · intro h
    rcases le_or_gt (-57) e with he | he
    · obtain ⟨k, hk⟩ := Int.eq_ofNat_of_zero_le (show 0 ≤ e + 57 by omega)
      have hscaled : (m : ℚ) * 2 ^ e = (m * 2 ^ k : Nat) * 2 ^ (-57 : ℤ) := by
        rw [show e = k + -57 by omega, zpow_add₀ two_ne_zero, zpow_natCast]
        push_cast
        ring
      rw [hscaled] at h ⊢
      have hlt : m * 2 ^ k < 14411519 := by exact_mod_cast lt_of_mul_lt_mul_right h (by positivity)
      have hle : ((m * 2 ^ k : Nat) : ℚ) ≤ 14411518 := by exact_mod_cast Nat.le_of_lt_succ hlt
      calc ((m * 2 ^ k : Nat) : ℚ) * 2 ^ (-57 : ℤ) ≤ 14411518 * 2 ^ (-57 : ℤ) := mul_le_mul_of_nonneg_right hle (by positivity)
        _ < 1 / 10 ^ 10 := by norm_num
    · have hpow : (2 : ℚ) ^ e ≤ 2 ^ (-58 : ℤ) := zpow_le_zpow_right₀ one_le_two (by omega)
      have hm' : (m : ℚ) ≤ 2 ^ 24 := by exact_mod_cast hm.le
      calc (m : ℚ) * 2 ^ e ≤ 2 ^ 24 * 2 ^ (-58 : ℤ) := mul_le_mul hm' hpow (by positivity) (by positivity)
        _ < 1 / 10 ^ 10 := by norm_num
  · exact fun h => h.trans (by norm_num)

/-- Settles O46: neither a NaN nor an infinity compares below CULL32, and finite magnitudes compare as rational numbers. -/
theorem cullTestIsExact : Obligations.CullTestIsExact := by
  intro c
  rw [culled, lt32, isFinite32, ← FloatVal.magnitude_toRat, val32_abs32, val32_cullConst]
  cases hval : val32 c with
  | nan => exact iff_of_false Bool.false_ne_true fun h => Bool.false_ne_true h.1
  | inf neg => exact iff_of_false Bool.false_ne_true fun h => Bool.false_ne_true h.1
  | fin neg m e =>
    have hm : m < 2 ^ 24 := FloatFormat.mant_lt hval
    rw [FloatVal.magnitude, FloatVal.lt_fin, FloatVal.toRat_fin, FloatVal.toRat_fin]
    simpa [FloatVal.isFinite] using lt_cull_iff hm e

/-! ### Outputs of zeros and of NaNs (R211, R213, R214) -/

/-- An output whose terms are all culled or zero is +0.0. -/
theorem BlockFits.outbuf_eq_zero {s : State} {N : Nat} (h : BlockFits s N) {n : Nat} (hn : n < N)
    (hterm : ∀ k, k < s.gen.npulses.toNat → culled (s.pulseCoeff k) = true ∨
      ∀ j, j < s.gen.ringcap.toNat → abs32 (mul32 (s.pulseCoeff k) ((s.convolveBlock N).ring j)) = 0) :
    (s.convolveBlock N).outbuf n = 0 := by
  rw [s.outbuf_convolveBlock hn h.samples_le h.ring_pos h.pulses_le]
  refine List.foldlRecOn (motive := fun acc => acc = 0) _ _ rfl fun acc hacc k hk => ?_
  rw [hacc]
  rcases hterm k (List.mem_range.1 hk) with hcull | hzero
  · exact if_pos hcull
  · split
    · rfl
    · exact add32_zero_zero (hzero _ (ringSlot_lt h.ring_pos _ _ _))

/-- An output all of whose coefficients are the NaN is that NaN. -/
theorem BlockFits.outbuf_eq_nan {s : State} {N : Nat} (h : BlockFits s N) {n : Nat} (hn : n < N) (hP : s.gen.npulses.toNat ≠ 0)
    (hcoeff : ∀ k, s.pulseCoeff k = nan32) : (s.convolveBlock N).outbuf n = nan32 := by
  obtain ⟨p, hp⟩ := Nat.exists_eq_succ_of_ne_zero hP
  rw [s.outbuf_convolveBlock hn h.samples_le h.ring_pos h.pulses_le, hp, List.range_succ, List.foldl_append, List.foldl_cons,
    List.foldl_nil, hcoeff, culled_nan32, if_neg Bool.false_ne_true, mul32_nan_left _ val32_nan32, add32_nan_right _ val32_nan32]

/-- Settles O44: no terms at all, or the ring after step 1 holds zeros only. -/
theorem silenceInSilenceOut : Obligations.SilenceInSilenceOut := by
  intro s t hinv hp hn hexec hsilent n hlt
  obtain rfl := State.eq_convolveBlock hp rfl hn hexec
  have hfit := hinv.blockFits hp hn
  refine hfit.outbuf_eq_zero hlt fun k hk => ?_
  rcases hsilent with hnone | ⟨hcoeff, hin, hring⟩
  · rw [hnone] at hk
    exact absurd hk (Nat.not_lt_zero k)
  · refine .inr fun j hj => abs32_mul32_zero_right (hcoeff k hk) ?_
    rcases hfit.ring_cases j with ⟨i, hi, hnew⟩ | hold
    · rw [hnew, hin i hi]
    · rw [hold, hring j hj]

theorem pulseSign_finite (p : Pulse) : isFinite32 (pulseSign p) = true := by
  unfold pulseSign
  split <;> decide

theorem State.pulseCoeff_zero {s : State} {k : Nat} (hgain : abs32 s.regs.gain = 0) (henv : isFinite32 (s.env k) = true)
    (hnorm : isFinite32 s.gen.normgain = true) : abs32 (s.pulseCoeff k) = 0 :=
  abs32_mul32_zero_left (abs32_mul32_zero_left (abs32_mul32_zero_right (pulseSign_finite _) hgain) henv) hnorm

theorem State.pulseCoeff_nan {s : State} (hgain : val32 s.regs.gain = .nan) (k : Nat) : s.pulseCoeff k = nan32 := by
  rw [State.pulseCoeff, coeff, mul32_nan_right _ hgain, mul32_nan_left _ val32_nan32, mul32_nan_left _ val32_nan32]

/-- Settles O45: a zero gain makes every coefficient a zero, which is culled; a NaN gain makes every coefficient the NaN, which is not. -/
theorem zeroAndNanGain : Obligations.ZeroAndNanGain := by
  intro s t hinv hp hn hexec
  obtain rfl := State.eq_convolveBlock hp rfl hn hexec
  have hfit := hinv.blockFits hp hn
  constructor
  · intro hgain hnorm henv n hlt
    exact hfit.outbuf_eq_zero hlt fun k hk => .inl (culled_of_abs_zero (State.pulseCoeff_zero hgain (henv k hk) hnorm))
  · intro hgain hP n hlt
    exact hfit.outbuf_eq_nan hlt (fun h0 => hP (BitVec.eq_of_toNat_eq h0)) (State.pulseCoeff_nan hgain)

end Sys2Proof.Machine
end

section
/-! SUPPORT. Proofs of the statements about the filter commands (spec/42_filter.md R230 to R234, R241): each command, on a filter the
block has, is one update of that filter's record. -/

namespace Sys2Proof.Machine

/-! ### The commands on a filter the block has (R131) -/

theorem withFilter_of_lt {w : Word} {f : BitVec 8} {s : State} {body : Nat → State} (hf : f.toNat < s.params.nfilt) :
    withFilter w f s body = body f.toNat := if_neg (not_le.2 hf)

/-- E_FILTER, or the command on the filter its index names. -/
theorem withFilter_cases (w : Word) (f : BitVec 8) (s : State) (body : Nat → State) :
    withFilter w f s body = s.raise .filter w ∨ withFilter w f s body = body f.toNat := by
  rcases Nat.lt_or_ge f.toNat s.params.nfilt with hf | hf
  · exact .inr (withFilter_of_lt hf)
  · exact .inl (if_pos hf)

theorem exec_fltSetcoef (f : BitVec 8) (s : State) :
    exec (.fltSetcoef f) s = .next (withFilter (encode (.fltSetcoef f)) f s fun i => setCoefficients i s) := rfl

theorem exec_fltProcess (f : BitVec 8) (s : State) :
    exec (.fltProcess f) s =
      .next (withFilter (encode (.fltProcess f)) f s fun i => processSample (encode (.fltProcess f)) i s) := rfl

theorem exec_fltReset (f : BitVec 8) (s : State) :
    exec (.fltReset f) s = .next (withFilter (encode (.fltReset f)) f s fun i => resetFilter i s) := rfl

/-- The record written is the record read, where the block has the filter and the bank its records. -/
theorem State.filter_setFilter_self {s : State} {i : Nat} (hi : i < s.params.nfilt) (g : Filter)
    (hbank : s.fb.length = s.params.nfilt) : (s.setFilter i g).filter i = g := by
  rw [s.filter_setFilter i i g (hbank.symm ▸ hi), if_pos rfl]

theorem setCoefficients_of_flat {s : State} (i : Nat) (h : flatGains s.regs.fGlow s.regs.fGhigh = true) :
    setCoefficients i s =
      s.setFilter i { s.filter i with b0 := s.regs.fGlow, b1 := zero32, a1 := zero32, configured := true } := by
  unfold setCoefficients designCoefficients
  rw [if_pos h]

theorem setCoefficients_of_shelving {s : State} (i : Nat) (h : ¬flatGains s.regs.fGlow s.regs.fGhigh = true) :
    setCoefficients i s =
      let c := shelvingDesign s.regs.fGlow s.regs.fGhigh (tangent s.params.tan64 s.regs.fFc s.regs.fSr)
      s.setFilter i { s.filter i with b0 := c.b0, b1 := c.b1, a1 := c.a1, configured := true } := by
  unfold setCoefficients designCoefficients
  rw [if_neg h]

/-- Settles O23: the two paths of the design. -/
theorem fltSetcoefResult : Obligations.FltSetcoefResult := by
  intro s f hf gl gh t a1 p q b0 b1 g new
  have hset : setCoefficients f.toNat s = s.setFilter f.toNat new := by
    by_cases hflat : flatGains s.regs.fGlow s.regs.fGhigh = true
    · exact (setCoefficients_of_flat f.toNat hflat).trans (congrArg (s.setFilter f.toNat) (if_pos hflat).symm)
    · exact (setCoefficients_of_shelving f.toNat hflat).trans (congrArg (s.setFilter f.toNat) (if_neg hflat).symm)
  refine ⟨_, ?_, rfl, State.filter_setFilter_self hf new⟩
  rw [exec_fltSetcoef, withFilter_of_lt hf, hset]

theorem processSample_of_unconfigured (w : Word) {i : Nat} {s : State} (h : (s.filter i).configured = false) :
    processSample w i s = s.raise .notReady w :=
  if_pos (by simp [h])

/-- The word of FLT_PROCESS: its opcode, and FIDX above it (R121, R124). -/
theorem encode_fltProcess (f : BitVec 8) : encode (.fltProcess f) = 0x04 + 0x100 * f.zeroExtend 32 := by
  apply BitVec.eq_of_toNat_eq
  rw [encode_toNat]
  simp [opcodeOf, indexOf]
  omega

/-- Settles O24: the check of CONFIGURED, and the sample. -/
theorem fltProcessResult : Obligations.FltProcessResult := by
  intro s f hf g y new
  rw [exec_fltProcess, withFilter_of_lt hf]
  constructor
  · intro hconf
    refine ⟨_, ?_, rfl, State.filter_setFilter_self hf new⟩
    have hnew : { g with z1 := s.regs.fIn, zout1 := y } = new := by simp only [hconf, new]
    rw [processSample_of_configured _ hconf, ← hnew]
    rfl
  · intro hconf
    rw [processSample_of_unconfigured _ hconf, State.raise_notReady, encode_fltProcess]

/-- Settles O25: CONFIGURED is not looked at. -/
theorem fltResetResult : Obligations.FltResetResult := by
  intro s f hf g new
  refine ⟨_, ?_, rfl, State.filter_setFilter_self hf new⟩
  rw [exec_fltReset, withFilter_of_lt hf]
  rfl

/-! ### What the commands leave unchanged (R231, R241) -/

/-- A filter command records an error, or writes F_OUT and the record its index names: FLT_SETCOEF all of the record but Z1 and
ZOUT1, FLT_RESET those two. -/
theorem filterCommand_effects {i : Instr} {f : BitVec 8} {s t : State}
    (hi : i = .fltSetcoef f ∨ i = .fltProcess f ∨ i = .fltReset f) (h : exec i s = .next t) :
    (∃ e, t = { s with err := e }) ∨
    ∃ g y, t = { s.setFilter f.toNat g with fOut := y } ∧
      (i = .fltSetcoef f → g.z1 = (s.filter f.toNat).z1 ∧ g.zout1 = (s.filter f.toNat).zout1) ∧
      (i = .fltReset f → g.configured = (s.filter f.toNat).configured ∧ g.b0 = (s.filter f.toNat).b0 ∧
        g.b1 = (s.filter f.toNat).b1 ∧ g.a1 = (s.filter f.toNat).a1) := by
  rcases hi with rfl | rfl | rfl
  · injection h with h
    subst h
    rcases withFilter_cases (encode (.fltSetcoef f)) f s fun i => setCoefficients i s with hrun | hrun
    · exact .inl ⟨_, hrun⟩
    · exact .inr ⟨_, s.fOut, hrun, fun _ => ⟨rfl, rfl⟩, nofun⟩
  · injection h with h
    subst h
    rcases withFilter_cases (encode (.fltProcess f)) f s fun i => processSample (encode (.fltProcess f)) i s with hrun | hrun
    · exact .inl ⟨_, hrun⟩
    · cases hconf : (s.filter f.toNat).configured with
      | false => exact .inl ⟨_, hrun.trans (processSample_of_unconfigured _ hconf)⟩
      | true => exact .inr ⟨_, _, hrun.trans (processSample_of_configured _ hconf), nofun, nofun⟩
  · injection h with h
    subst h
    rcases withFilter_cases (encode (.fltReset f)) f s fun i => resetFilter i s with hrun | hrun
    · exact .inl ⟨_, hrun⟩
    · exact .inr ⟨_, s.fOut, hrun, nofun, fun _ => ⟨rfl, rfl, rfl, rfl⟩⟩

/-- What the written record has in common with the old one stays, also where the bank has no such record and the write is lost. -/
theorem State.filter_setFilter_keeps {α : Type} (field : Filter → α) {s : State} {i : Nat} {g : Filter}
    (h : field g = field (s.filter i)) : field ((s.setFilter i g).filter i) = field (s.filter i) := by
  rcases Nat.lt_or_ge i s.fb.length with hi | hi
  · rw [s.filter_setFilter i i g hi, if_pos rfl, h]
  · exact congrArg field (State.filter_congr (List.set_eq_of_length_le hi) i)

/-- Settles O26: one record and F_OUT are all that a filter command writes. -/
theorem filterCommandsAreIndependent : Obligations.FilterCommandsAreIndependent := by
  intro s t f i hi hexec
  rcases filterCommand_effects hi hexec with ⟨e, rfl⟩ | ⟨g, y, rfl, hset, hreset⟩
  · exact ⟨fun _ _ => rfl, rfl, rfl, rfl, rfl, rfl, fun _ => ⟨rfl, rfl⟩, fun _ => ⟨rfl, rfl, rfl, rfl⟩⟩
  · refine ⟨fun j hj => s.filter_setFilter_of_ne f.toNat j g hj, List.length_set, rfl, rfl, rfl, rfl,
      fun hi => ?_, fun hi => ?_⟩
    · obtain ⟨hz1, hzout1⟩ := hset hi
      exact ⟨State.filter_setFilter_keeps Filter.z1 hz1, State.filter_setFilter_keeps Filter.zout1 hzout1⟩
    · obtain ⟨hconf, hb0, hb1, ha1⟩ := hreset hi
      exact ⟨State.filter_setFilter_keeps Filter.configured hconf, State.filter_setFilter_keeps Filter.b0 hb0,
        State.filter_setFilter_keeps Filter.b1 hb1, State.filter_setFilter_keeps Filter.a1 ha1⟩

end Sys2Proof.Machine
end

section
/-! SUPPORT. Proofs of the statements about the filter's arithmetic (spec/42_filter.md R230, R232, R238 to R240). A number that is a
value of the format is rounded to itself; a datum that is not finite stays so. -/

namespace Sys2Proof.Machine

/-! ### Values of a format round to themselves (R18) -/

theorem FloatFormat.value_injOn {f : FloatFormat} {y z : Nat} (hy : y < f.infBits) (hz : z < f.infBits)
    (h : f.value y = f.value z) : y = z := by
  apply f.magVal_strictMono.injective
  rw [← f.value_eq_magVal hy, ← f.value_eq_magVal hz, h]

theorem FloatFormat.value_lt_overflowAt {f : FloatFormat} (hf : f.Wide) {z : Nat} (hz : z < f.infBits) :
    f.value z < f.overflowAt := by
  have hmono := f.magVal_strictMono
  have hle : f.magVal z ≤ f.magVal (f.infBits - 1) := hmono.monotone (by omega)
  have hlt : f.magVal (f.infBits - 1) < f.magVal f.infBits := hmono (by omega)
  have : (f.value z : ℝ) < f.overflowAt := by
    rw [f.value_eq_magVal hz, f.overflowAt_eq hf]
    linarith
  exact_mod_cast this

/-- A value of the format has one nearest pattern: its own. -/
theorem NearestMag.eq_of_value {f : FloatFormat} (hf : f.Wide) {mag z : Nat} (hz : z < f.infBits)
    (h : NearestMag f (f.value z : ℝ) mag) : mag = z := by
  have hlt : mag < f.infBits := h.lt_infBits (by exact_mod_cast f.value_lt_overflowAt hf hz)
  have hnear := h.nearest hlt z hz
  rw [sub_self, abs_zero, abs_nonpos_iff, sub_eq_zero] at hnear
  exact FloatFormat.value_injOn hlt hz (by exact_mod_cast hnear)

/-- The magnitude of a finite pattern is that of its value. -/
theorem FloatFormat.abs_toRat_unpack {f : FloatFormat} (bits : Nat) :
    |(f.unpack bits).toRat| = f.value (bits % f.signUnit) := by
  rw [FloatFormat.value, f.unpack_mod_signUnit, FloatVal.magnitude_toRat]

/-- A finite pattern lies below infinity. -/
theorem FloatFormat.lt_infBits_of_isFinite {f : FloatFormat} {bits : Nat} (h : (f.unpack bits).isFinite = true) :
    bits % f.signUnit < f.infBits := by
  have hex : bits / f.expUnit % 2 ^ f.ebits ≠ f.expMask := by
    intro hex
    unfold FloatFormat.unpack at h
    simp only [if_pos hex] at h
    split at h <;> cases h
  have hlt : bits / f.expUnit % 2 ^ f.ebits < f.expMask :=
    lt_of_le_of_ne (Nat.le_sub_one_of_lt (Nat.mod_lt _ (Nat.two_pow_pos _))) hex
  have hfrac := Nat.mod_lt bits f.expUnit_pos
  rw [f.mod_signUnit]
  calc bits % f.expUnit + f.expUnit * (bits / f.expUnit % 2 ^ f.ebits)
      < f.expUnit * (bits / f.expUnit % 2 ^ f.ebits + 1) := by rw [mul_add_one]; omega
    _ ≤ f.expUnit * f.expMask := Nat.mul_le_mul_left _ hlt
    _ = f.infBits := mul_comm _ _

/-- Two patterns with the same magnitude and the same sign are the same. -/
theorem eq_of_mag_sign {n : Nat} {a b : BitVec (n + 1)} (hmag : a.toNat % 2 ^ n = b.toNat % 2 ^ n)
    (hsign : a.getLsbD n = b.getLsbD n) : a = b := by
  refine BitVec.eq_of_getLsbD_eq fun i hi => ?_
  rcases (Nat.le_of_lt_succ hi).eq_or_lt with rfl | hlt
  · exact hsign
  · simpa [Nat.testBit_mod_two_pow, hlt, BitVec.getLsbD] using congrArg (Nat.testBit · i) hmag

/-- The magnitude to which the magnitude of a finite pattern rounds is its own. -/
theorem NearestMag.eq_of_isFinite {f : FloatFormat} (hf : f.Wide) {bits mag : Nat} (hfin : (f.unpack bits).isFinite = true)
    (h : NearestMag f |((f.unpack bits).toRat : ℝ)| mag) : mag = bits % f.signUnit := by
  rw [← Rat.cast_abs, FloatFormat.abs_toRat_unpack] at h
  exact h.eq_of_value hf (FloatFormat.lt_infBits_of_isFinite hfin)

/-- The sign of a finite pattern whose value is not zero. -/
theorem val32_sign_iff {a : Word} (hfin : isFinite32 a = true) (h0 : (val32 a).toRat ≠ 0) :
    a.getLsbD 31 = true ↔ (val32 a).toRat < 0 := by
  obtain ⟨neg, m, e, hval⟩ := FloatVal.isFinite_iff.1 hfin
  rw [← val32_sign hval]
  rw [hval] at h0 ⊢
  exact FloatVal.neg_iff h0

theorem val64_sign_iff {a : DWord} (hfin : isFinite64 a = true) (h0 : (val64 a).toRat ≠ 0) :
    a.getLsbD 63 = true ↔ (val64 a).toRat < 0 := by
  obtain ⟨neg, m, e, hval⟩ := FloatVal.isFinite_iff.1 hfin
  rw [← val64_sign hval]
  rw [hval] at h0 ⊢
  exact FloatVal.neg_iff h0

/-- The rounded value of a pattern other than zero is that pattern. -/
theorem CorrectlyRounded32.eq_of_toRat {q : ℚ} {w v : Word} (h : CorrectlyRounded32 q w) (hfin : isFinite32 v = true)
    (hval : (val32 v).toRat = q) (h0 : q ≠ 0) : w = v := by
  obtain ⟨hmag, hsign⟩ := h
  rw [← hval] at hmag
  exact eq_of_mag_sign (n := 31) (hmag.eq_of_isFinite binary32_wide hfin)
    (Bool.eq_iff_iff.2 ((hsign h0).trans (hval ▸ (val32_sign_iff hfin (hval.symm ▸ h0)).symm)))

/-! ### Rounding a second time changes nothing (R18, R20) -/

theorem FloatFormat.mag_of_unpack_inf {f : FloatFormat} {bits : Nat} {neg : Bool} (h : f.unpack bits = .inf neg) :
    bits % f.signUnit = f.infBits ∧ neg = decide (bits / f.signUnit % 2 = 1) := by
  unfold FloatFormat.unpack at h
  simp only [] at h
  split at h
  · rename_i hex
    split at h
    · rename_i hfrac
      injection h with hneg
      rw [f.mod_signUnit, hfrac, hex, Nat.zero_add, mul_comm]
      exact ⟨rfl, hneg.symm⟩
    · cases h
  · split at h <;> cases h

theorem round32_val32 {w : Word} (hw : val32 w ≠ .nan) : round32 (val32 w) = w := by
  cases hval : val32 w with
  | nan => exact absurd hval hw
  | inf neg =>
    obtain ⟨hmag, hneg⟩ := FloatFormat.mag_of_unpack_inf hval
    have hsign : w.getLsbD 31 = neg := by
      rw [BitVec.getLsbD, Nat.testBit_eq_decide_div_mod_eq, ← binary32_signUnit, hneg]
    refine eq_of_mag_sign (n := 31) (Eq.trans ?_ hmag.symm) (Eq.trans ?_ hsign.symm)
    · cases neg <;> decide
    · cases neg <;> decide
  | fin neg m e =>
    have hfin : isFinite32 w = true := FloatVal.isFinite_iff.2 ⟨neg, m, e, hval⟩
    have hnear := roundMag_nearest binary32_wide m e
    rw [← FloatVal.abs_toRat_fin_real neg, ← hval] at hnear
    refine eq_of_mag_sign (n := 31) ?_ ?_
    · rw [round32_fin_mag]
      exact hnear.eq_of_isFinite binary32_wide hfin
    · rw [round32_fin_sign, val32_sign hval]

theorem round32_val32_round32 (v : FloatVal) : round32 (val32 (round32 v)) = round32 v := by
  by_cases hnan : val32 (round32 v) = .nan
  · rw [hnan, eq_nan_of_val32_round32 hnan]
  · exact round32_val32 hnan

/-! ### Zeros (R18) -/

theorem val32_zero32 : val32 zero32 = .fin false 0 binary32.minExp := by decide

theorem val64_zero64 : val64 zero64 = .fin false 0 binary64.minExp := by decide

theorem round32_zero (neg : Bool) (e : ℤ) : round32 (.fin neg 0 e) = if neg then 0x80000000 else 0x00000000 := by
  apply BitVec.eq_of_toNat_eq
  rw [round32_fin_toNat]
  cases neg <;> rfl

theorem val32_round32_zero (neg : Bool) (e : ℤ) : val32 (round32 (.fin neg 0 e)) = .fin neg 0 binary32.minExp := by
  rw [round32_zero]
  cases neg <;> decide

theorem FloatVal.add_zero_zero (a : Bool) (e : ℤ) (b : Bool) (d : ℤ) :
    (FloatVal.fin a 0 e).add (.fin b 0 d) = .fin (a && b) 0 (min e d) := by
  simp [FloatVal.add, alignedInt]

theorem abs32_eq_zero_of_toRat {a : Word} (hfin : isFinite32 a = true) (h : (val32 a).toRat = 0) : abs32 a = 0 := by
  obtain ⟨neg, m, e, hval⟩ := FloatVal.isFinite_iff.1 hfin
  have hm : m = 0 := by
    have habs := FloatVal.abs_toRat_fin neg m e
    rw [← hval, h, abs_zero, eq_comm, mul_eq_zero_iff_right (zpow_ne_zero e two_ne_zero)] at habs
    exact_mod_cast habs
  subst hm
  apply BitVec.eq_of_toNat_eq
  rw [abs32_toNat]
  exact FloatFormat.mod_signUnit_of_unpack_zero hval

/-- A rounded result other than zero does not change when a zero is added. -/
theorem round32_add_zero {p : Word} (hp : round32 (val32 p) = p) (h0 : abs32 p ≠ 0) (neg : Bool) (e : ℤ) :
    round32 ((val32 p).add (.fin neg 0 e)) = p := by
  by_cases hfin : isFinite32 p = true
  · obtain ⟨hsumfin, hsum⟩ := FloatVal.add_exact (b := .fin neg 0 e) hfin rfl
    have hzero : (FloatVal.fin neg 0 e).toRat = 0 := by simp [FloatVal.toRat_fin]
    rw [hzero, add_zero] at hsum
    have hround := round32_correctlyRounded hsumfin
    rw [hsum] at hround
    exact hround.eq_of_toRat hfin rfl fun h => h0 (abs32_eq_zero_of_toRat hfin h)
  · unfold isFinite32 at hfin
    cases hval : val32 p with
    | nan => rwa [hval] at hp
    | inf a => rwa [hval] at hp
    | fin a m d => exact absurd (hval ▸ rfl) hfin

/-! ### The flat path (R238) -/

/-- +0.0 times a finite value is a zero with that value's sign. -/
theorem val32_mul32_zero {z : Word} (hz : isFinite32 z = true) :
    val32 (mul32 zero32 z) = .fin (z.getLsbD 31) 0 binary32.minExp := by
  obtain ⟨neg, m, e, hval⟩ := FloatVal.isFinite_iff.1 hz
  rw [mul32, val32_zero32, hval, FloatVal.mul_fin, Nat.zero_mul, val32_round32_zero, ← val32_sign hval, Bool.false_bne]

/-- Settles O27: two zeros are added to the product. -/
theorem flatPathIsPlainGain : Obligations.FlatPathIsPlainGain := by
  intro g x hb1 ha1 hz1 hzout1
  have hout : filterOutput g x =
      round32 ((val32 (round32 ((val32 (mul32 g.b0 x)).add (.fin (g.z1.getLsbD 31) 0 binary32.minExp)))).add
        (.fin (!g.zout1.getLsbD 31) 0 binary32.minExp)) := by
    rw [← val32_mul32_zero hz1]
    change _ = round32 (FloatVal.add _ (FloatVal.negate (.fin (g.zout1.getLsbD 31) 0 binary32.minExp)))
    rw [← val32_mul32_zero hzout1, filterOutput, hb1, ha1]
    rfl
  have hidem : round32 (val32 (mul32 g.b0 x)) = mul32 g.b0 x := round32_val32_round32 _
  rw [hout]
  generalize mul32 g.b0 x = p at hidem ⊢
  by_cases h0 : abs32 p = 0
  · obtain ⟨neg, hval⟩ := val32_of_abs_zero h0
    rw [hval, round32_zero] at hidem
    rw [hval, FloatVal.add_zero_zero, val32_round32_zero, FloatVal.add_zero_zero, round32_zero, ← hidem]
    cases neg <;> simp
  · rw [round32_add_zero hidem h0, round32_add_zero hidem h0, if_neg]
    rintro rfl
    exact h0 (by decide)

/-! ### Data that are not finite (R239) -/

theorem FloatVal.isFinite_negate (v : FloatVal) : v.negate.isFinite = v.isFinite := by cases v <;> rfl

theorem FloatVal.add_not_finite {a b : FloatVal} (h : a.isFinite = false ∨ b.isFinite = false) :
    (a.add b).isFinite = false := by
  cases a with
  | nan => rfl
  | inf s =>
    cases b with
    | nan => rfl
    | inf s' =>
      simp only [FloatVal.add]
      split <;> rfl
    | fin s' n d => rfl
  | fin s m e =>
    cases b with
    | nan => rfl
    | inf s' => rfl
    | fin s' n d => simp [FloatVal.isFinite] at h

theorem FloatVal.mul_not_finite (a : FloatVal) {b : FloatVal} (h : b.isFinite = false) : (a.mul b).isFinite = false := by
  cases b with
  | nan => rw [FloatVal.mul_nan, h]
  | inf s' =>
    cases a with
    | nan => rfl
    | inf s => rfl
    | fin s m e =>
      simp only [FloatVal.mul]
      split <;> rfl
  | fin s' n d => cases h

theorem isFinite32_round32_of_not_finite {v : FloatVal} (h : v.isFinite = false) : isFinite32 (round32 v) = false := by
  cases v with
  | nan => decide
  | inf neg => cases neg <;> decide
  | fin neg m e => cases h

theorem add32_not_finite {a b : Word} (h : isFinite32 a = false ∨ isFinite32 b = false) : isFinite32 (add32 a b) = false :=
  isFinite32_round32_of_not_finite (FloatVal.add_not_finite h)

theorem sub32_not_finite {a b : Word} (h : isFinite32 a = false ∨ isFinite32 b = false) : isFinite32 (sub32 a b) = false :=
  isFinite32_round32_of_not_finite (FloatVal.add_not_finite (h.imp_right (FloatVal.isFinite_negate _).trans))

theorem mul32_not_finite (a : Word) {b : Word} (h : isFinite32 b = false) : isFinite32 (mul32 a b) = false :=
  isFinite32_round32_of_not_finite (FloatVal.mul_not_finite _ h)

/-- A zero times an infinity or a NaN is the NaN. -/
theorem mul32_zero_not_finite {b : Word} (h : isFinite32 b = false) : mul32 zero32 b = nan32 := by
  unfold isFinite32 at h
  cases hval : val32 b with
  | nan => exact mul32_nan_right _ hval
  | inf neg => rw [mul32, val32_zero32, hval, FloatVal.mul, if_pos rfl, round32_nan]
  | fin neg m e =>
    rw [hval] at h
    cases h

theorem sub32_nan_right (a : Word) {b : Word} (hb : val32 b = .nan) : sub32 a b = nan32 := by
  rw [sub32, hb, FloatVal.negate, FloatVal.add_nan, round32_nan]

/-- Settles O28: the product with the datum that is not finite is not finite, and no sum or difference makes it finite again. -/
theorem nonFiniteOutputPersists : Obligations.NonFiniteOutputPersists := by
  intro g x
  refine ⟨fun hx => ?_, fun hzout1 => ?_, fun hzout1 ha1 => ?_⟩
  · exact sub32_not_finite (.inl (add32_not_finite (.inl (mul32_not_finite _ hx))))
  · exact sub32_not_finite (.inr (mul32_not_finite _ hzout1))
  · have hnan : mul32 g.a1 g.zout1 = nan32 := ha1 ▸ mul32_zero_not_finite hzout1
    rw [filterOutput, hnan, sub32_nan_right _ val32_nan32]
    rfl

/-! ### Exact results in binary64 (R18, R19) -/

/-- A pattern holds a number. -/
structure HasValue64 (w : DWord) (q : ℚ) : Prop where
  finite : isFinite64 w = true
  toRat : (val64 w).toRat = q

/-- A number whose magnitude is that of a finite pattern. -/
def Representable64 (q : ℚ) : Prop := ∃ z, z < binary64.infBits ∧ |q| = binary64.value z

/-- A pattern holds a number rounded once, as `CorrectlyRounded32` has it for binary32. -/
def CorrectlyRounded64 (q : ℚ) (w : DWord) : Prop :=
  NearestMag binary64 |(q : ℝ)| (w.toNat % 2 ^ 63) ∧ (q ≠ 0 → (w.getLsbD 63 = true ↔ q < 0))

theorem round64_correctlyRounded {v : FloatVal} (hv : v.isFinite = true) : CorrectlyRounded64 v.toRat (round64 v) := by
  obtain ⟨neg, m, e, rfl⟩ := FloatVal.isFinite_iff.1 hv
  refine ⟨?_, fun h => ?_⟩
  · rw [FloatVal.abs_toRat_fin_real, round64_fin_mag]
    exact roundMag_nearest binary64_wide m e
  · rw [round64_fin_sign]
    exact FloatVal.neg_iff h

/-- A representable number is held exactly. -/
theorem CorrectlyRounded64.hasValue {q : ℚ} {w : DWord} (h : CorrectlyRounded64 q w) (hq : Representable64 q) :
    HasValue64 w q := by
  obtain ⟨hmag, hsign⟩ := h
  obtain ⟨z, hz, habs⟩ := hq
  rw [← Rat.cast_abs, habs] at hmag
  have hbits := hmag.eq_of_value binary64_wide hz
  have hfin : isFinite64 w = true := isFinite64_of_mag_lt (hbits ▸ hz)
  refine ⟨hfin, ?_⟩
  have hval : |(val64 w).toRat| = |q| := by rw [val64, FloatFormat.abs_toRat_unpack, binary64_signUnit, hbits, habs]
  by_cases h0 : q = 0
  · rwa [h0, abs_zero, abs_eq_zero, ← h0] at hval
  · have hneg : (val64 w).toRat < 0 ↔ q < 0 :=
      (val64_sign_iff hfin fun hw => h0 (by rwa [hw, abs_zero, eq_comm, abs_eq_zero] at hval)).symm.trans (hsign h0)
    rcases abs_eq_abs.1 hval with heq | heq
    · exact heq
    · rw [heq, Left.neg_neg_iff] at hneg
      rcases lt_or_gt_of_ne h0 with hlt | hgt
      · exact absurd (hneg.2 hlt) (not_lt.2 hlt.le)
      · exact absurd (hneg.1 hgt) (not_lt.2 hgt.le)

section
variable {a b : DWord} {x y r : ℚ}

theorem HasValue64.add (ha : HasValue64 a x) (hb : HasValue64 b y) (hr : x + y = r) (hrep : Representable64 r) :
    HasValue64 (add64 a b) r := by
  obtain ⟨hfin, hval⟩ := FloatVal.add_exact ha.finite hb.finite
  rw [ha.toRat, hb.toRat, hr] at hval
  exact (hval ▸ round64_correctlyRounded hfin).hasValue hrep

theorem HasValue64.sub (ha : HasValue64 a x) (hb : HasValue64 b y) (hr : x - y = r) (hrep : Representable64 r) :
    HasValue64 (sub64 a b) r := by
  obtain ⟨hfin, hval⟩ := FloatVal.add_exact ha.finite (FloatVal.negate_isFinite hb.finite)
  rw [FloatVal.negate_toRat, ← sub_eq_add_neg, ha.toRat, hb.toRat, hr] at hval
  exact (hval ▸ round64_correctlyRounded hfin).hasValue hrep

theorem HasValue64.mul (ha : HasValue64 a x) (hb : HasValue64 b y) (hr : x * y = r) (hrep : Representable64 r) :
    HasValue64 (mul64 a b) r := by
  obtain ⟨hfin, hval⟩ := FloatVal.mul_exact ha.finite hb.finite
  rw [ha.toRat, hb.toRat, hr] at hval
  exact (hval ▸ round64_correctlyRounded hfin).hasValue hrep

theorem hasValue64_two64 : HasValue64 two64 2 := ⟨by decide, by decide +kernel⟩

theorem HasValue64.half (ha : HasValue64 a x) (hr : x / 2 = r) (hrep : Representable64 r) :
    HasValue64 (div64 a two64) r := by
  obtain ⟨hmag, hsign⟩ :=
    div64_correctlyRounded ha.finite hasValue64_two64.finite (hasValue64_two64.toRat.symm ▸ two_ne_zero)
  rw [ha.toRat, hasValue64_two64.toRat, hr] at hmag
  refine CorrectlyRounded64.hasValue ⟨hmag, fun h0 => ?_⟩ hrep
  have hx : (val64 a).toRat ≠ 0 := by
    intro hx
    rw [← hr, ← ha.toRat, hx, zero_div] at h0
    exact h0 rfl
  have htwo : two64.getLsbD 63 = false := by decide
  rw [hsign, htwo, Bool.bne_false, val64_sign_iff ha.finite hx, ha.toRat, ← hr]
  constructor <;> intro <;> linarith

end

/-- The exponents a finite pattern can stand for. -/
theorem FloatFormat.exp_bounds {f : FloatFormat} {bits m : Nat} {neg : Bool} {e : ℤ} (h : f.unpack bits = .fin neg m e) :
    f.minExp ≤ e ∧ e < f.minExp + 2 ^ f.ebits := by
  have hex : ((bits / f.expUnit % 2 ^ f.ebits : Nat) : ℤ) < 2 ^ f.ebits := by
    exact_mod_cast Nat.mod_lt _ (Nat.two_pow_pos _)
  unfold FloatFormat.unpack at h
  simp only [] at h
  split at h
  · split at h <;> cases h
  · split at h <;> cases h <;> omega

/-- Every significand has a pattern at every exponent from the least on. -/
theorem FloatFormat.exists_magVal (f : FloatFormat) (k : Nat) :
    ∀ m, m < 2 * f.expUnit → ∃ z, f.magVal z = m * 2 ^ (f.minExp + k) := by
  induction k with
  | zero => exact fun m hm => ⟨_, f.magVal_parts hm.le (.inl rfl)⟩
  | succ k ih =>
    intro m hm
    rcases Nat.lt_or_ge m f.expUnit with hlt | hge
    · obtain ⟨z, hz⟩ := ih (2 * m) (by omega)
      refine ⟨z, hz.trans ?_⟩
      push_cast
      rw [← add_assoc, zpow_add_one₀ two_ne_zero]
      ring
    · exact ⟨_, f.magVal_parts hm.le (.inr hge)⟩

/-- A number with at most 53 significant bits, its last place neither below binary64's least nor above its greatest. -/
theorem representable64_of_abs {q : ℚ} {m : Nat} {e : ℤ} (habs : |q| = m * 2 ^ e) (hm : m < 2 ^ 53) (hlo : -1074 ≤ e)
    (hhi : e ≤ 971) : Representable64 q := by
  have hmin : binary64.minExp = -1074 := by decide
  have hmask : binary64.expMask = 2047 := by decide
  obtain ⟨z, hz⟩ := binary64.exists_magVal (e + 1074).toNat m (by rw [binary64_expUnit]; omega)
  have hexp : binary64.minExp + ((e + 1074).toNat : ℤ) = e := by omega
  rw [hexp] at hz
  have hlt : z < binary64.infBits := by
    rw [← binary64.magVal_strictMono.lt_iff_lt, hz, FloatFormat.magVal_infBits binary64_wide, binary64_expUnit, hmin, hmask]
    have hpow : (2 : ℝ) ^ e ≤ 2 ^ (971 : ℤ) := zpow_le_zpow_right₀ one_le_two hhi
    have hm' : (m : ℝ) < 2 ^ 53 := by exact_mod_cast hm
    calc (m : ℝ) * 2 ^ e < 2 ^ 53 * 2 ^ (971 : ℤ) := mul_lt_mul hm' hpow (by positivity) (by positivity)
      _ = _ := by norm_num
  refine ⟨z, hlt, ?_⟩
  have : (|q| : ℝ) = binary64.value z := by
    rw [binary64.value_eq_magVal hlt, hz, ← Rat.cast_abs, habs]
    push_cast
    rfl
  exact_mod_cast this

/-- The values of binary32, and twice these values, have patterns in binary64. -/
theorem val32_representable64 {a : Word} (ha : isFinite32 a = true) :
    Representable64 (val32 a).toRat ∧ Representable64 (2 * (val32 a).toRat) := by
  obtain ⟨neg, m, e, hval⟩ := FloatVal.isFinite_iff.1 ha
  have hm : m < 2 ^ 24 := FloatFormat.mant_lt hval
  obtain ⟨hlo, hhi⟩ := FloatFormat.exp_bounds hval
  have hmin : binary32.minExp = -149 := by decide
  have hbits : (2 : ℤ) ^ binary32.ebits = 256 := by decide
  have habs := FloatVal.abs_toRat_fin neg m e
  rw [← hval] at habs
  constructor
  · exact representable64_of_abs habs (by omega) (by omega) (by omega)
  · refine representable64_of_abs (m := m) (e := e + 1) ?_ (by omega) (by omega) (by omega)
    rw [abs_mul, habs, abs_two, zpow_add_one₀ two_ne_zero]
    ring

theorem Representable64.neg {q : ℚ} (h : Representable64 q) : Representable64 (-q) := by
  unfold Representable64
  rwa [abs_neg]

theorem representable64_zero : Representable64 0 := ⟨0, by decide, by decide +kernel⟩

theorem hasValue64_zero64 : HasValue64 zero64 0 := ⟨by decide, by decide +kernel⟩

/-- The widening of a finite value is exact (R19). -/
theorem hasValue64_cvt64 {a : Word} (ha : isFinite32 a = true) : HasValue64 (cvt64 a) (val32 a).toRat :=
  (round64_correctlyRounded ha).hasValue (val32_representable64 ha).1

/-- A number that binary32 holds is narrowed exactly. -/
theorem HasValue64.cvt32_eq {w : DWord} {a : Word} {q : ℚ} (h : HasValue64 w q) (ha : isFinite32 a = true)
    (hval : (val32 a).toRat = q) (h0 : q ≠ 0) : cvt32 w = a := by
  have hround := round32_correctlyRounded h.finite
  rw [h.toRat] at hround
  exact hround.eq_of_toRat ha hval h0

/-! ### The design at a crossover of zero (R240) -/

theorem abs32_neg32 (a : Word) : abs32 (neg32 a) = abs32 a := by
  apply BitVec.eq_of_toNat_eq
  rw [abs32_toNat, abs32_toNat, neg32, BitVec.toNat_xor, Nat.xor_mod_two_pow]
  simp

/-- Flipping the sign bit of a finite pattern negates its value (R19). -/
theorem val32_neg32 {a : Word} (ha : isFinite32 a = true) : val32 (neg32 a) = (val32 a).negate := by
  obtain ⟨neg, m, e, hval⟩ := FloatVal.isFinite_iff.1 ha
  have hmag : (val32 (neg32 a)).magnitude = .fin false m e := by
    rw [← val32_abs32, abs32_neg32, val32_abs32, hval, FloatVal.magnitude]
  have hsign : (neg32 a).getLsbD 31 = !neg := by
    rw [val32_sign hval]
    simp [neg32]
  cases hneg : val32 (neg32 a) with
  | nan => rw [hneg] at hmag; cases hmag
  | inf s => rw [hneg] at hmag; cases hmag
  | fin s n d =>
    rw [hneg] at hmag
    cases hmag
    rw [hval, FloatVal.negate, val32_sign hneg, hsign]

theorem isFinite32_abs32 (a : Word) : isFinite32 (abs32 a) = isFinite32 a := by
  rw [isFinite32, isFinite32, val32_abs32]
  cases val32 a <;> rfl

theorem pos_of_lt32 {a : Word} (ha : isFinite32 a = true) (h : lt32 0 a = true) : 0 < (val32 a).toRat := by
  obtain ⟨neg, m, e, hval⟩ := FloatVal.isFinite_iff.1 ha
  change (val32 zero32).lt (val32 a) = true at h
  rw [val32_zero32, hval, FloatVal.lt_fin, ← hval] at h
  simpa [FloatVal.toRat_fin] using h

/-- +0.0 divided by a positive number is +0.0. -/
theorem div64_zero_pos {b : DWord} {y : ℚ} (hb : HasValue64 b y) (hy : 0 < y) : div64 zero64 b = zero64 := by
  obtain ⟨neg, n, d, hval⟩ := FloatVal.isFinite_iff.1 hb.finite
  have hpos : 0 < (FloatVal.fin neg n d).toRat := by rwa [← hval, hb.toRat]
  have hn : n ≠ 0 := by
    rintro rfl
    simp [FloatVal.toRat_fin] at hpos
  have hneg : neg = false := Bool.eq_false_iff.2 fun h => not_lt.2 hpos.le ((FloatVal.neg_iff hpos.ne').1 h)
  apply BitVec.eq_of_toNat_eq
  rw [div64, val64_zero64, hval, hneg]
  simp [FloatVal.div, hn, quotientSticky, sticky, round64_fin_toNat, FloatFormat.roundMag, zero64]

theorem tangent_zero {sr : Word} (hsr : isFinite32 sr = true) (hpos : lt32 0 sr = true) :
    tangent .correctlyRounded 0 sr = zero64 := by
  have hprod : mul64 piConst (cvt64 0) = zero64 := by decide
  rw [tangent, hprod, div64_zero_pos (hasValue64_cvt64 hsr) (pos_of_lt32 hsr hpos), tan64_zero val64_zero64]

/-- At a tangent of +0.0 the pole is -1.0, so gainLow is multiplied by zero and gainHigh by two. -/
theorem shelvingDesign_zero (glow ghigh : Word) :
    shelvingDesign glow ghigh zero64 =
      { b0 := cvt32 (div64 (add64 (mul64 (cvt64 glow) zero64) (mul64 (cvt64 ghigh) two64)) two64)
        b1 := cvt32 (div64 (sub64 (mul64 (cvt64 glow) zero64) (mul64 (cvt64 ghigh) two64)) two64)
        a1 := minusOne32 } := by
  have hpole : div64 (sub64 zero64 one64) (add64 zero64 one64) = neg64 one64 := by decide +kernel
  have hp : add64 one64 (neg64 one64) = zero64 := by decide
  have hq : sub64 one64 (neg64 one64) = two64 := by decide
  have ha1 : cvt32 (neg64 one64) = minusOne32 := by decide
  unfold shelvingDesign
  simp only [hpole, hp, hq, ha1]

/-- Settles O29: every operation of the design is exact there. -/
theorem zeroCrossoverIsFlatAtGainHigh : Obligations.ZeroCrossoverIsFlatAtGainHigh := by
  intro gl gh sr hgl hgh hne hsr hpos hflat
  set q := (val32 gh).toRat
  have h0 : q ≠ 0 := by
    have habs : 0 < (val32 (abs32 gh)).toRat := pos_of_lt32 (isFinite32_abs32 gh ▸ hgh) hne
    rwa [val32_abs32, FloatVal.magnitude_toRat, abs_pos] at habs
  obtain ⟨hrep, hrep2⟩ := val32_representable64 hgh
  have hlow : HasValue64 (mul64 (cvt64 gl) zero64) 0 :=
    (hasValue64_cvt64 hgl).mul hasValue64_zero64 (mul_zero _) representable64_zero
  have hhigh : HasValue64 (mul64 (cvt64 gh) two64) (2 * q) := (hasValue64_cvt64 hgh).mul hasValue64_two64 (mul_comm _ _) hrep2
  have hsum := (hlow.add hhigh (zero_add _) hrep2).half (mul_div_cancel_left₀ q two_ne_zero) hrep
  have hdiff := (hlow.sub hhigh (zero_sub _) hrep2.neg).half
    (by rw [neg_div, mul_div_cancel_left₀ q two_ne_zero]) hrep.neg
  have hneg := val32_neg32 hgh
  have hnegfin : isFinite32 (neg32 gh) = true := by rw [isFinite32, hneg, FloatVal.isFinite_negate, ← isFinite32, hgh]
  have hnegval : (val32 (neg32 gh)).toRat = -q := by rw [hneg, FloatVal.negate_toRat]
  rw [designCoefficients, hflat, if_neg Bool.false_ne_true, tangent_zero hsr hpos, shelvingDesign_zero,
    hsum.cvt32_eq hgh rfl h0, hdiff.cvt32_eq hnegfin hnegval (neg_ne_zero.2 h0)]
  rfl

end Sys2Proof.Machine
end

section
/-! SUPPORT. Proof of the statement about the two commands without effect (spec/44_control.md R270,
spec/43_early_reflections.md R262). -/

namespace Sys2Proof.Machine

/-! ### What NOP and ER_RESET answer -/

/-- R270: no operand, flag or PREPARED bit is looked at. -/
@[simp] theorem exec_nop (s : State) : exec .nop s = .next s := rfl

/-- R262: the stage keeps no state of its own to reset. -/
@[simp] theorem exec_erReset (s : State) : exec .erReset s = .next s := rfl

/-- Settles O21: neither meaning reads the state it answers. -/
theorem nopAndErResetDoNothing : Obligations.NopAndErResetDoNothing :=
  fun s => ⟨exec_nop s, exec_erReset s⟩

end Sys2Proof.Machine
end

section
/-! SUPPORT. Proofs of the statements about errors (spec/60_exceptions.md R280 to R294): what a refused word or command records, that
a command leaves the record or changes nothing else, that no command looks at it, and that it stays legal. -/

namespace Sys2Proof.Machine

/-! ### An illegal word on CMD (R126, R282) -/

/-- E_ILLEGAL: STATUS bit 8 and CODE = 1 (R281, R285). -/
theorem State.raise_illegal (s : State) (w : Word) :
    s.raise .illegal w = { s with err := { bits := s.err.bits ||| 1, code := 1, info := w } } := rfl

theorem executeCommand_of_error {w : Word} (h : ∃ e, decode w = .error e) (s : State) :
    executeCommand w s = .next (s.raise .illegal w) := by
  obtain ⟨e, he⟩ := h
  unfold executeCommand
  rw [he]

/-- Settles O5: the pending write reaches CMD, and the decoder rejects the word. -/
theorem illegalCommandRecorded : Obligations.IllegalCommandRecorded := by
  intro s w rest hpending hillegal
  calc step s = busWrite .word 0x004 w (moved s rest) := step_of_pending hpending
    _ = .next ((moved s rest).raise .illegal w) := by
      rw [busWrite_cmd, executeCommand_of_error ((illegalWordsExactly w).2 hillegal)]

/-! ### What recording an error writes (R285) -/

/-- The sticky bit of the recorded code is set, the others stay. -/
theorem recordError_bits_getLsbD (c : ErrorCause) (info : Word) (e : ErrorRecord) {j : Nat} (hj : j < 6) :
    (recordError c info e).bits.getLsbD j = (e.bits.getLsbD j || decide (errorCode c = j + 1)) := by
  have hcode := errorCode_bounds c
  have hbit : (1#6 <<< (errorCode c - 1)).getLsbD j = decide (errorCode c = j + 1) := by
    rw [BitVec.getLsbD_shiftLeft, BitVec.getLsbD_one, Bool.eq_iff_iff]
    simp only [Bool.and_eq_true, Bool.not_eq_true', decide_eq_true_eq, decide_eq_false_iff_not]
    omega
  show (e.bits ||| 1#6 <<< (errorCode c - 1)).getLsbD j = _
  rw [BitVec.getLsbD_or, hbit]

/-- Settles O17: STATUS bit 8 + j is bit j of the record. -/
theorem errorRecordLayout : Obligations.ErrorRecordLayout := by
  intro c info e
  refine ⟨fun j hj => ?_, recordError_code c info e, rfl⟩
  rw [recordError_bits_getLsbD c info e hj]
  exact congrArg _ (decide_eq_decide.2 (by omega))

/-! ### A command leaves the record, or changes nothing else (R16, R37, R286) -/

/-- A command raises an error of R281 with its own word, or keeps the error record. -/
theorem exec_error_effects {i : Instr} {s t : State} (h : exec i s = .next t) :
    (∃ c, c.Listed ∧ t = s.raise c (encode i)) ∨ t.err = s.err := by
  rcases exec_cases h with herror | ⟨-, rfl⟩ | ⟨-, dur, dens, -, rfl⟩ | ⟨-, -, -, rfl⟩ | ⟨f, -, hfilter⟩
  · exact .inl herror
  · exact .inr rfl
  · exact .inr rfl
  · exact .inr rfl
  · rcases hfilter with ⟨-, rfl⟩ | ⟨-, hconf, rfl⟩ | ⟨-, rfl⟩
    · exact .inr rfl
    · exact .inr (by rw [processSample_of_configured _ hconf, State.setFilter_err])
    · exact .inr rfl

/-- Settles O18: to raise is to write the record alone. -/
theorem commandErrorChangesOnlyRecord : Obligations.CommandErrorChangesOnlyRecord := by
  intro i s t h
  rcases exec_error_effects h with ⟨c, -, rfl⟩ | hkept
  · exact .inr ⟨c, rfl⟩
  · exact .inl hkept

/-! ### No command looks at the record (R287) -/

/-- An update whose result depends on the error record in the error record alone. -/
def IgnoresErrors (f : State → State) : Prop :=
  ∀ s e, ∃ e', f { s with err := e } = { f s with err := e' }

theorem runGeneration_ignoresErrors (w : Word) (sr dur dens : DWord) : IgnoresErrors (runGeneration w sr dur dens) := by
  intro s e
  rcases runGeneration_cases w sr dur dens s with ⟨sub, hv, hrun⟩ | ⟨hv, hrun⟩
  · exact ⟨recordError (.config sub) w e, by rw [hrun]; exact runGeneration_of_some hv⟩
  · exact ⟨e, by rw [hrun]; exact runGeneration_of_none hv⟩

theorem runConvolve_of_unprepared (w : Word) {s : State} (hp : s.prepared = false) :
    runConvolve w s = s.raise .notReady w := if_pos (by simp [hp])

theorem runConvolve_of_oversized (w : Word) {s : State} (hp : s.prepared = true)
    (hn : s.gen.actMaxblk.toNat < s.regs.nsamp.toNat) : runConvolve w s = s.raise .block w :=
  (if_neg (by simp [hp])).trans (if_pos hn)

theorem runConvolve_ignoresErrors (w : Word) : IgnoresErrors (runConvolve w) := by
  intro s e
  rcases runConvolve_cases w s with ⟨hp, hrun⟩ | ⟨hp, hn, hrun⟩ | ⟨hp, hn, hrun⟩
  · exact ⟨recordError .notReady w e, by rw [hrun]; exact runConvolve_of_unprepared w hp⟩
  · exact ⟨recordError .block w e, by rw [hrun]; exact runConvolve_of_oversized w hp hn⟩
  · exact ⟨e, by rw [hrun]; exact runConvolve_accepted hp hn⟩

theorem processSample_ignoresErrors (w : Word) (i : Nat) : IgnoresErrors (processSample w i) := by
  intro s e
  cases hconf : (s.filter i).configured with
  | false =>
    exact ⟨recordError .notReady w e, by
      rw [processSample_of_unconfigured w hconf]; exact processSample_of_unconfigured w hconf⟩
  | true =>
    exact ⟨e, by rw [processSample_of_configured w hconf]; exact processSample_of_configured w hconf⟩

/-- E_FILTER where the block lacks the filter (R284). -/
theorem withFilter_of_le {w : Word} {f : BitVec 8} {s : State} {body : Nat → State} (hf : s.params.nfilt ≤ f.toNat) :
    withFilter w f s body = s.raise .filter w := if_pos hf

/-- The index check looks at the parameters only. -/
theorem withFilter_ignoresErrors (w : Word) (f : BitVec 8) {body : Nat → State → State}
    (h : IgnoresErrors (body f.toNat)) : IgnoresErrors fun s => withFilter w f s fun i => body i s := by
  intro s e
  rcases Nat.lt_or_ge f.toNat s.params.nfilt with hf | hf
  · obtain ⟨e', he'⟩ := h s e
    exact ⟨e', by simp only [withFilter_of_lt hf]; exact (withFilter_of_lt (s := { s with err := e }) hf).trans he'⟩
  · exact ⟨recordError .filter w e, by simp only [withFilter_of_le hf]; exact withFilter_of_le hf⟩

/-- Every command completes, with an update that ignores the error record. -/
theorem exec_ignoresErrors (i : Instr) : ∃ f, IgnoresErrors f ∧ ∀ s, exec i s = .next (f s) := by
  cases i with
  | nop => exact ⟨fun s => s, fun _ e => ⟨e, rfl⟩, exec_nop⟩
  | erReset => exact ⟨fun s => s, fun _ e => ⟨e, rfl⟩, exec_erReset⟩
  | generate =>
    exact ⟨_, fun s e => runGeneration_ignoresErrors _ s.sampleRate s.duration s.density s e,
      fun s => exec_of_takesOperands (.inl ⟨rfl, rfl, rfl⟩)⟩
  | prepare =>
    exact ⟨_, fun s e => runGeneration_ignoresErrors _ s.sampleRate policyDuration policyDensity s e,
      fun s => exec_of_takesOperands (.inr ⟨rfl, rfl, rfl⟩)⟩
  | convolve => exact ⟨_, runConvolve_ignoresErrors 2, exec_convolve⟩
  | fltSetcoef f =>
    exact ⟨_, withFilter_ignoresErrors _ f (body := setCoefficients) fun _ e => ⟨e, rfl⟩, exec_fltSetcoef f⟩
  | fltProcess f =>
    exact ⟨_, withFilter_ignoresErrors _ f (processSample_ignoresErrors (encode (.fltProcess f)) f.toNat), exec_fltProcess f⟩
  | fltReset f =>
    exact ⟨_, withFilter_ignoresErrors _ f (body := resetFilter) fun _ e => ⟨e, rfl⟩, exec_fltReset f⟩

/-- Settles O19: the two results differ in the record only. -/
theorem errorsNeverBlock : Obligations.ErrorsNeverBlock := by
  intro i s t e h
  obtain ⟨f, hf, hexec⟩ := exec_ignoresErrors i
  obtain ⟨e', he'⟩ := hf s e
  obtain rfl : f s = t := by injection (hexec s).symm.trans h
  exact ⟨_, hexec _, by rw [he']⟩

/-! ### The record stays legal (R36, R281, R294) -/

/-- What becomes of the error record: kept, an error of R281 recorded, or some of its bits acknowledged. -/
def ErrorRecordUpdate (e e' : ErrorRecord) : Prop :=
  e' = e ∨ (∃ c info, c.Listed ∧ e' = recordError c info e) ∨ ∃ mask, e' = { e with bits := e.bits &&& mask }

theorem errorRecordUpdate_busError (s : State) (off : Offset) : ErrorRecordUpdate s.err (s.busError off).err :=
  .inr (.inl ⟨.bus, _, ErrorCause.listed_of_ne (by simp), rfl⟩)

theorem exec_errorRecordUpdate {i : Instr} {s t : State} (h : exec i s = .next t) : ErrorRecordUpdate s.err t.err := by
  rcases exec_error_effects h with ⟨c, hc, rfl⟩ | hkept
  · exact .inr (.inl ⟨c, _, hc, rfl⟩)
  · exact .inl hkept

theorem performAccess_errorRecordUpdate {a : Access} {s t : State} (h : performAccess a s = .next t) :
    ErrorRecordUpdate s.err t.err := by
  cases a with
  | read size off =>
    injection h with h
    subst h
    rw [State.logRead_err]
    rcases busRead_cases size off s with hread | hread
    · exact .inl (congrArg State.err hread)
    · rw [hread]
      exact errorRecordUpdate_busError s off
  | write size off v =>
    rcases busWrite_cases h with rfl | ⟨r, rfl⟩ | ⟨i, -, rfl⟩ | rfl | ⟨-, -, ⟨i, -, hexec⟩ | ⟨-, rfl⟩⟩
    · exact errorRecordUpdate_busError s off
    · exact .inl rfl
    · exact .inl rfl
    · exact .inr (.inr ⟨_, rfl⟩)
    · exact exec_errorRecordUpdate hexec
    · exact .inr (.inl ⟨.illegal, v, ErrorCause.listed_of_ne (by simp), rfl⟩)

theorem step_errorRecordUpdate {s t : State} (h : step s = .next t) : ErrorRecordUpdate s.err t.err := by
  rcases step_cases h with ⟨-, rfl⟩ | ⟨a, rest, -, haccess⟩
  · exact .inl rfl
  · exact performAccess_errorRecordUpdate (s := moved s rest) haccess

/-- An acknowledgement leaves ERRCODE, and no bit that was not set before (R294). -/
theorem ErrorRecordLegal.acknowledge {e : ErrorRecord} (h : ErrorRecordLegal e) (mask : BitVec 6) :
    ErrorRecordLegal { e with bits := e.bits &&& mask } where
  code_le := h.code_le
  sub_config := h.sub_config
  sub_le := h.sub_le
  bits_code := fun hbits => h.bits_code fun h0 => hbits (by rw [h0]; exact BitVec.zero_and)

theorem ErrorRecordUpdate.legal {e e' : ErrorRecord} (h : ErrorRecordUpdate e e') (he : ErrorRecordLegal e) :
    ErrorRecordLegal e' := by
  rcases h with rfl | ⟨c, info, hc, rfl⟩ | ⟨mask, rfl⟩
  · exact he
  · exact recordError_legal hc info e
  · exact he.acknowledge mask

theorem ErrorRecordUpdate.codeField_ne {e e' : ErrorRecord} (h : ErrorRecordUpdate e e') (he : e.codeField ≠ 0) :
    e'.codeField ≠ 0 := by
  rcases h with rfl | ⟨c, info, -, rfl⟩ | ⟨mask, rfl⟩
  · exact he
  · exact recordError_codeField_ne c info e
  · exact he

/-- No error is recorded at reset (R294). -/
theorem errorRecordLegal_reset : ErrorRecordLegal { bits := 0, code := 0, info := 0 } where
  code_le := by decide
  sub_config := by decide
  sub_le := by decide
  bits_code := fun h => absurd rfl h

/-- Settles O20: each update of the record keeps it legal, and none takes a code back. -/
theorem errorRecordLegalKept : Obligations.ErrorRecordLegalKept :=
  ⟨fun _ => errorRecordLegal_reset, fun _ _ hlegal hstep =>
    ⟨(step_errorRecordUpdate hstep).legal hlegal, (step_errorRecordUpdate hstep).codeField_ne⟩⟩

/-! ### A filter the block lacks (R284) -/

/-- E_FILTER: STATUS bit 12 and CODE = 5 (R281, R285). -/
theorem State.raise_filter (s : State) (w : Word) :
    s.raise .filter w = { s with err := { bits := s.err.bits ||| 16, code := 5, info := w } } := rfl

/-- A command's word as the sum of its opcode and FIDX in bits 15:8 (R121, R124). -/
theorem encode_eq_add (i : Instr) : encode i = (opcodeOf i).zeroExtend 32 + 0x100 * (indexOf i).zeroExtend 32 := by
  have hop := (opcodeOf i).isLt
  have hindex := (indexOf i).isLt
  apply BitVec.eq_of_toNat_eq
  rw [encode_toNat]
  simp
  omega

/-- Settles O22: the three commands make the same check. -/
theorem filterIndexRefused : Obligations.FilterIndexRefused := by
  intro s f hf
  have refused (w : Word) (body : Nat → State) :
      withFilter w f s body = { s with err := { bits := s.err.bits ||| 16, code := 5, info := w } } :=
    withFilter_of_le hf
  rw [exec_fltSetcoef, exec_fltProcess, exec_fltReset, refused, refused, refused, encode_eq_add, encode_eq_add, encode_eq_add]
  exact ⟨rfl, rfl, rfl⟩

end Sys2Proof.Machine
end

section
/-! SUPPORT. Proofs of the statements about reset and hazards (spec/70_reset_and_hazards.md R321 to R335): the fresh stream after
a generation, the completion of every step, and the reset state. -/

namespace Sys2Proof.Machine

/-! ### The fresh stream (R329) -/

/-- The empty stream is +0.0 at every time: x[t] = 0 for t < 0, and past its end by default (R209). -/
theorem streamAt_nil (i : ℤ) : streamAt [] i = zero32 := by
  unfold streamAt
  split
  · rfl
  · rw [List.getD_nil]

/-- R173 clears the whole ring in use, so every slot reads as the empty stream does. -/
theorem Generated.holdsHistory_nil {s t : State} {L G : Nat} {decay : DWord} (h : Generated s t L G decay) :
    HoldsHistory t [] := by
  intro d hd
  have hslot : ringSlot t.gen.ringcap.toNat t.gen.wptr.toNat 0 (d + 1) < L + 256 :=
    h.ringcap ▸ ringSlot_lt (Nat.zero_lt_of_lt hd) _ _ _
  rw [h.ring _ hslot, streamAt_nil]
  rfl

/-- Settles O41: an accepted command leaves what a generation leaves. -/
theorem generationStartsFreshStream : Obligations.GenerationStartsFreshStream := by
  intro s t i hp ha hexec
  obtain ⟨L, G, decay, -, -, -, h⟩ := exec_generated hp ha hexec
  exact h.holdsHistory_nil

/-! ### Every access completes (R333) -/

theorem exec_completes (i : Instr) (s : State) : ∃ t, exec i s = .next t := by
  obtain ⟨f, -, hexec⟩ := exec_ignoresErrors i
  exact ⟨f s, hexec s⟩

theorem executeCommand_completes (w : Word) (s : State) : ∃ t, executeCommand w s = .next t := by
  cases hdecode : decode w with
  | ok i => simpa only [executeCommand_of_decode hdecode] using exec_completes i s
  | error e => exact ⟨_, executeCommand_of_error ⟨e, hdecode⟩ s⟩

/-- Only CMD runs a command; every other target answers at once (R85, R93). -/
theorem writeTarget_completes (tgt : Target) (off : Offset) (v : Word) (s : State) :
    ∃ t, writeTarget tgt off v s = .next t := by
  cases tgt with
  | cmd => exact executeCommand_completes v s
  | status | operand _ | inbuf _ | readOnly _ | fbank _ _ | outbuf _ | pulse _ | env _ | ring _ => exact ⟨_, rfl⟩

/-- A write reaches its target or is a bus error (R85). -/
theorem busWrite_completes (size : AccessSize) (off : Offset) (v : Word) (s : State) :
    ∃ t, busWrite size off v s = .next t := by
  unfold busWrite
  split
  · exact writeTarget_completes _ off v s
  · exact ⟨_, rfl⟩

theorem performAccess_completes (a : Access) (s : State) : ∃ t, performAccess a s = .next t := by
  cases a with
  | read size off => exact ⟨_, rfl⟩
  | write size off v => exact busWrite_completes size off v s

/-! ### Only the step itself moves the host on (R62) -/

/-- No command touches the host. -/
theorem exec_host {i : Instr} {s t : State} (h : exec i s = .next t) : t.host = s.host := by
  rcases exec_effects h with ⟨e, rfl⟩ | ⟨-, dur, dens, -, rfl⟩ | ⟨-, -, rfl⟩ | ⟨f, g, y, -, rfl⟩
  · rfl
  · exact commit_host ..
  · exact s.convolveBlock_host _
  · exact s.setFilter_host f.toNat g

theorem busWrite_host {size : AccessSize} {off : Offset} {v : Word} {s t : State} (h : busWrite size off v s = .next t) :
    t.host = s.host := by
  rcases busWrite_cases h with rfl | ⟨r, rfl⟩ | ⟨i, -, rfl⟩ | rfl | ⟨-, -, ⟨i, -, hexec⟩ | ⟨-, rfl⟩⟩
  · exact s.raise_host .bus _
  · rfl
  · rfl
  · exact s.clearErrors_host v
  · exact exec_host hexec
  · exact s.raise_host .illegal v

theorem busRead_host (size : AccessSize) (off : Offset) (s : State) : (busRead size off s).2.host = s.host := by
  rcases busRead_cases size off s with hread | hread
  · rw [hread]
  · rw [hread]
    exact s.raise_host .bus _

/-- An access carried out adds at most to the values read (R335). -/
theorem performAccess_host {a : Access} {s t : State} (h : performAccess a s = .next t) :
    t.host.pending = s.host.pending ∧ t.host.position = s.host.position := by
  cases a with
  | read size off =>
    injection h with h
    subst h
    rw [State.logRead_host, busRead_host]
    exact ⟨rfl, rfl⟩
  | write size off v =>
    rw [busWrite_host h]
    exact ⟨rfl, rfl⟩

/-- A step with nothing pending waits (log entry 7). -/
theorem step_of_idle {s : State} (h : s.host.pending = []) : step s = .next s := by
  unfold step fetchAccess
  rw [h]

/-- Settles O6: the program at its end, or its next access carried out on the moved state. -/
theorem everyStepCompletes : Obligations.EveryStepCompletes := by
  intro s
  cases hpending : s.host.pending with
  | nil => exact ⟨s, step_of_idle hpending, fun _ _ h => (nomatch h), fun _ => rfl⟩
  | cons a rest =>
    obtain ⟨t, haccess⟩ := performAccess_completes a (moved s rest)
    refine ⟨t, (step_of_pending hpending).trans haccess, fun b rest' h => ?_, fun h => nomatch h⟩
    obtain ⟨-, rfl⟩ := List.cons.inj h
    exact performAccess_host haccess

/-! ### The reset state (R321) -/

/-- STATUS reads 0 while the block is not prepared and no error bit is set (R35). -/
theorem State.statusWord_eq_zero {s : State} (hprepared : s.prepared = false) (hbits : s.err.bits = 0) : s.statusWord = 0 := by
  unfold State.statusWord
  rw [hprepared, hbits]
  decide

/-- R94: a table entry beyond the count in use reads 0, whatever the memory holds there. -/
theorem readTarget_pulse_of_le {s : State} {k : Nat} (h : s.gen.npulses.toNat ≤ k) : s.readTarget (.pulse k) = 0 :=
  if_neg (not_lt.2 h)

theorem readTarget_env_of_le {s : State} {k : Nat} (h : s.gen.npulses.toNat ≤ k) : s.readTarget (.env k) = 0 :=
  if_neg (not_lt.2 h)

theorem readTarget_ring_of_le {s : State} {j : Nat} (h : s.gen.ringcap.toNat ≤ j) : s.readTarget (.ring j) = 0 :=
  if_neg (not_lt.2 h)

theorem OperandRegs.get_reset (r : OperandReg) : OperandRegs.reset.get r = 0 := by
  cases r <;> rfl

theorem filter_resetOf (p : Params) {i : Nat} (hi : i < p.nfilt) : (State.resetOf p).filter i = Filter.reset :=
  List.getD_replicate _ hi

/-- Each of the six words of a filter at reset, +0.0 or CONFIGURED = 0 (R59, R130). -/
theorem fbankWord_of_filter_reset {s : State} {i : Nat} (h : s.filter i = Filter.reset) (j : Nat) : s.fbankWord i j = 0 := by
  unfold State.fbankWord State.fflagsWord
  rw [h]
  split <;> rfl

/-- Settles O51: no table is in use at reset, and each register and record is the one named for reset. -/
theorem resetState : Obligations.ResetState := by
  intro p _ s
  exact ⟨State.statusWord_eq_zero rfl rfl, rfl, rfl, OperandRegs.get_reset, rfl, rfl, rfl, rfl, rfl, rfl, rfl, rfl, rfl, rfl,
    fun k => readTarget_pulse_of_le (Nat.zero_le k), fun k => readTarget_env_of_le (Nat.zero_le k),
    fun j => readTarget_ring_of_le (Nat.zero_le j),
    fun i hi j _ => fbankWord_of_filter_reset (filter_resetOf p hi) j, rfl⟩

end Sys2Proof.Machine
end
